-- ==== Sys2Proof/Word.lean ====
section
/-! DEFINITION. The word types of PCD-CORE, one name per width of 00_scope.md R5. Every field is unsigned (R8). -/

namespace Sys2Proof

/-- One sample, `SAMPLE_W` = 8 bits, unsigned (R5, R9); also one byte of the frame store (R53). -/
abbrev Sample := BitVec 8

/-- A run count, `CNT_W` = 32 bits, unsigned (R5). -/
abbrev Count := BitVec 32

/-- A height or a width, `DIM_W` = 16 bits, unsigned (R5). -/
abbrev Dim := BitVec 16

/-- A cause, info or kind code, 4 bits (R28, R71, R87). -/
abbrev Code := BitVec 4

/-- A token word, `TOK_W` = 44 bits (R70). -/
abbrev TokenWord := BitVec 44

/-- A register-port request word, 37 bits (R82). -/
abbrev RequestWord := BitVec 37

/-- A register-port data word, `REG_W` = 32 bits (R29). -/
abbrev RegWord := BitVec 32

/-- A register index, `REG_IDX_W` = 4 bits (R29). -/
abbrev RegIdx := BitVec 4

end Sys2Proof
end

