-- ==== Sys2Proof/Syntax.lean ====
section
/-! DEFINITION. Units, pixels, tokens, fault codes and the instructions: one constructor of `Instr` per row of spec/opcode_table.json. -/

namespace Sys2Proof

/-- The three units of PCD-CORE (R1); each names its input and its output port. -/
inductive UnitId where
  | enc
  | dec
  | seg
deriving DecidableEq, Repr, Inhabited

/-- The four agents that take steps (R7). -/
inductive Agent where
  | unit (u : UnitId)
  | host
deriving DecidableEq, Repr, Inhabited

/-- A pixel `(c0, c1, c2)` = (blue, green, red) (R101). -/
structure Pixel where
  c0 : Sample
  c1 : Sample
  c2 : Sample
deriving DecidableEq, Repr, Inhabited

/-- The black pixel `(0, 0, 0)` (R109). -/
def Pixel.black : Pixel := ⟨0, 0, 0⟩

/-- The hue, saturation and value of a pixel (R102). -/
structure Hsv where
  hue : Sample
  sat : Sample
  val : Sample
deriving DecidableEq, Repr, Inhabited

/-- A token, the unit of input and output on a stream port (R71). `fin` is END, `err` is ERR. -/
inductive Token where
  | data (v : Sample)
  | run (v : Sample) (c : Count)
  | pix (p : Pixel)
  | hdr (height width : Dim) (channels : Sample)
  | fin
  | err (cause info : Code)
deriving DecidableEq, Repr, Inhabited

/-- A run, the document's pair (value, count); the count is unbounded at the sequence level (R12, R130). -/
abbrev Run := Sample × Nat

/-- The causes a unit raises (R87, R190). -/
inductive Cause where
  | illegalToken
  | countOverflow
  | invalidRun
  | invalidImage
deriving DecidableEq, Repr

/-- The sub-reasons of a fault (R87). -/
inductive Info where
  | none
  | channels
  | zeroArea
  | tooLarge
  | length
deriving DecidableEq, Repr

/-- The instructions (R80, R82): one constructor per row of the opcode table, in the table's order. -/
inductive Instr where
  /-- SEG.HDR (R114). -/
  | segHdr (height width : Dim) (channels : Sample)
  /-- SEG.PIX (R115). -/
  | segPix (c0 c1 c2 : Sample)
  /-- SEG.END (R116). -/
  | segEnd
  /-- SEG.ERR (R117). -/
  | segErr (cause info : Code)
  /-- ENC.DATA (R133). -/
  | encData (v : Sample)
  /-- ENC.END (R134). -/
  | encEnd
  /-- ENC.ERR (R135). -/
  | encErr (cause info : Code)
  /-- DEC.RUN (R153). -/
  | decRun (v : Sample) (c : Count)
  /-- DEC.END (R154). -/
  | decEnd
  /-- DEC.ERR (R155). -/
  | decErr (cause info : Code)
  /-- RD (R170). -/
  | rd (idx : RegIdx)
  /-- WR (R171). -/
  | wr (idx : RegIdx) (v : RegWord)
deriving DecidableEq, Repr, Inhabited

end Sys2Proof
end

