-- ==== Sys2Proof/Config.lean ====
section
/-! DEFINITION. The parameters of 00_scope.md R5 and the free values. The colour conversion `Config.hsvConv` stands in Machine/Hsv.lean. -/

namespace Sys2Proof.Config

/-- `CHANNELS` (R5). -/
def channels : Sample := 3

/-- `MAXCNT` = 2^CNT_W - 1 (R5). -/
def maxCnt : Nat := 4294967295

/-- `MAX_H` (R5). -/
def maxH : Nat := 200

/-- `MAX_W` (R5). -/
def maxW : Nat := 200

/-- `MAX_PIX` = MAX_H x MAX_W (R5). -/
def maxPix : Nat := maxH * maxW

/-- `MAX_FLAT` = MAX_PIX x CHANNELS (R5); also the bytes of the frame store, addresses 0 to 119999 (R50). -/
def maxFlat : Nat := maxPix * 3

/-- `H_LO_RST` (R5, R35). -/
def hLoRst : Sample := 30

/-- `H_HI_RST` (R5, R36). -/
def hHiRst : Sample := 90

/-- `S_MIN_RST` (R5, R37). -/
def sMinRst : Sample := 40

/-- `V_MIN_RST` (R5, R38). -/
def vMinRst : Sample := 40

/-- The reset value of SEG_OPEN_EN (R39). -/
def openEnRst : Bool := true

/-- What the host reports as the ratio when N = 0 (R5, R141). -/
inductive RatioEmpty where
  | zero
  | undefined
deriving DecidableEq, Repr, Inhabited

/-- `RATIO_EMPTY`, OPEN (R5): which of the two the host reports. Log 13. -/
opaque ratioEmpty : RatioEmpty

/-- `REG_BASE`, OPEN (R5, D34): where an integrator places the register block. Log 13. -/
opaque regBase : Nat

/-- `OUTQ_DEPTH` - 1, OPEN (R5): a chip's output path holds at least one token. Log 13. -/
opaque outqDepthPred : Nat

/-- `OUTQ_DEPTH`, at least 1 in a chip (R5); the model's queue is unbounded (R45) and no rule reads it. -/
def outqDepth : Nat := outqDepthPred + 1

/-- FREE VALUE. The agent that moves at a turn which `State.sched` does not give, the n-th such turn: any interleaving is allowed (R61).
DESIGN CHOICE, safe: log 1. -/
opaque freeTurn : Nat → Agent

/-- FREE VALUE. The byte the frame store holds at an address nothing has written since the hard reset of the given number:
"unspecified" (R46, R222). DESIGN CHOICE, safe: log 4. -/
opaque frameStoreByte : Nat → Nat → Sample

end Sys2Proof.Config
end

