-- ==== Sys2Proof/WellFormed.lean ====
section
/-! DEFINITION. What well-formed means on this hardware. An `Instr` has no ill-formed value: every operand is a bit vector of
exactly its field's width and R78 makes every value of it legal. The checks below are those the spec states about runs, frames
and token sequences. -/

namespace Sys2Proof

/-- A run's count is a positive integer (R12: "count ≥ 1"). -/
def Run.wf (r : Run) : Bool := decide (1 ≤ r.2)

/-- A run a RUN token can carry: 1 to `MAXCNT` (R73, R158). -/
def Run.fits (r : Run) : Bool := decide (1 ≤ r.2) && decide (r.2 ≤ Config.maxCnt)

/-- Canonical form: "no two adjacent runs sharing the same value" (R12, R131). -/
def canonicalRuns : List Run → Bool
  | [] => true
  | [_] => true
  | a :: b :: rest => a.1 != b.1 && canonicalRuns (b :: rest)

/-- A frame SEG can take: 1 to `MAX_H` rows of 1 to `MAX_W` pixels, and exactly `h x w` pixels (R114, R120). -/
def frameWf (h w : Nat) (p : List Pixel) : Bool :=
  decide (1 ≤ h) && decide (h ≤ Config.maxH) && decide (1 ≤ w) && decide (w ≤ Config.maxW) && decide (p.length = h * w)

/-- The grammar `DATA* END` of one sequence on `enc_in` (41_enc.md §2). -/
def encSequence : List Token → Bool
  | .data _ :: rest => encSequence rest
  | [.fin] => true
  | _ => false

/-- The grammar `RUN* END` of one sequence on `dec_in` (42_dec.md §2). -/
def decSequence : List Token → Bool
  | .run _ _ :: rest => decSequence rest
  | [.fin] => true
  | _ => false

/-- `PIX^n END`: what follows a frame's header (40_seg.md §2). -/
def pixelsThenEnd : Nat → List Token → Bool
  | n + 1, .pix _ :: rest => pixelsThenEnd n rest
  | 0, [.fin] => true
  | _, _ => false

/-- The grammar `HDR PIX^(height x width) END` of one frame on `seg_in`, with a header SEG accepts (40_seg.md §2, R114). -/
def segSequence : List Token → Bool
  | .hdr h w c :: rest =>
    decide (c = Config.channels) && decide (1 ≤ h.toNat) && decide (h.toNat ≤ Config.maxH) && decide (1 ≤ w.toNat) &&
      decide (w.toNat ≤ Config.maxW) && pixelsThenEnd (h.toNat * w.toNat) rest
  | _ => false

end Sys2Proof
end

