-- ==== Sys2Proof/Decode.lean ====
section
/-! DEFINITION. The operand fields, the decoder of token words and register requests, total and rejecting by name, and the encoder
(30_encoding.md). -/

namespace Sys2Proof

/-! ### Operand fields (R78) -/

/-- `kind = w[43:40]` (R70). -/
def kindOf (w : TokenWord) : Code := w.extractLsb' 40 4

/-- `sample = w[7:0]` (R72), also `value` (R73), `c0` (R74), `channels` (R75). -/
def low8 (w : TokenWord) : BitVec 8 := w.extractLsb' 0 8

/-- `c1 = w[15:8]` (R74). -/
def c1Field (w : TokenWord) : Sample := w.extractLsb' 8 8

/-- `c2 = w[23:16]` (R74). -/
def c2Field (w : TokenWord) : Sample := w.extractLsb' 16 8

/-- `count = w[39:8]` (R73). -/
def countField (w : TokenWord) : Count := w.extractLsb' 8 32

/-- `height = w[39:24]` (R75). -/
def heightField (w : TokenWord) : Dim := w.extractLsb' 24 16

/-- `width = w[23:8]` (R75). -/
def widthField (w : TokenWord) : Dim := w.extractLsb' 8 16

/-- `cause = w[3:0]` (R77). -/
def causeField (w : TokenWord) : Code := w.extractLsb' 0 4

/-- `info = w[7:4]` (R77). -/
def infoField (w : TokenWord) : Code := w.extractLsb' 4 4

/-- `we` of a register request, bit 36 (R82). -/
def weField (w : RequestWord) : Bool := w.getLsbD 36

/-- `idx` of a register request, bits 35:32 (R82). -/
def idxField (w : RequestWord) : RegIdx := w.extractLsb' 32 4

/-- `wdata` of a register request, bits 31:0 (R82). -/
def wdataField (w : RequestWord) : RegWord := w.extractLsb' 0 32

/-! ### Decoding -/

/-- Why a token word is no instruction at a port (R81). -/
inductive DecodeError where
  /-- The kind is 0x6 to 0xF, reserved at every port. -/
  | reservedKind (k : Code)
  /-- The kind has a format, but is not one this port accepts. -/
  | notAtPort (u : UnitId) (k : Code)
deriving DecidableEq, Repr

/-- The token a word carries, by its kind (R71); unused bits are not read (R79). -/
def decodeToken (w : TokenWord) : Except DecodeError Token :=
  match (kindOf w).toNat with
  | 0 => .ok (.data (low8 w))
  | 1 => .ok (.run (low8 w) (countField w))
  | 2 => .ok (.pix ⟨low8 w, c1Field w, c2Field w⟩)
  | 3 => .ok (.hdr (heightField w) (widthField w) (low8 w))
  | 4 => .ok .fin
  | 5 => .ok (.err (causeField w) (infoField w))
  | _ => .error (.reservedKind (kindOf w))

/-- The kind code of a token (R71). -/
def Token.kind : Token → Code
  | .data _ => 0
  | .run _ _ => 1
  | .pix _ => 2
  | .hdr _ _ _ => 3
  | .fin => 4
  | .err _ _ => 5

/-- The rows of R80: which token is which instruction at which input port. -/
def accept : UnitId → Token → Except DecodeError Instr
  | .seg, .hdr h w c => .ok (.segHdr h w c)
  | .seg, .pix p => .ok (.segPix p.c0 p.c1 p.c2)
  | .seg, .fin => .ok .segEnd
  | .seg, .err c i => .ok (.segErr c i)
  | .seg, .data _ => .error (.notAtPort .seg 0)
  | .seg, .run _ _ => .error (.notAtPort .seg 1)
  | .enc, .data v => .ok (.encData v)
  | .enc, .fin => .ok .encEnd
  | .enc, .err c i => .ok (.encErr c i)
  | .enc, .run _ _ => .error (.notAtPort .enc 1)
  | .enc, .pix _ => .error (.notAtPort .enc 2)
  | .enc, .hdr _ _ _ => .error (.notAtPort .enc 3)
  | .dec, .run v c => .ok (.decRun v c)
  | .dec, .fin => .ok .decEnd
  | .dec, .err c i => .ok (.decErr c i)
  | .dec, .data _ => .error (.notAtPort .dec 0)
  | .dec, .pix _ => .error (.notAtPort .dec 2)
  | .dec, .hdr _ _ _ => .error (.notAtPort .dec 3)

/-- The decoder, a total function of (port, word) (R88). -/
def decode (u : UnitId) (w : TokenWord) : Except DecodeError Instr :=
  match decodeToken w with
  | .ok t => accept u t
  | .error e => .error e

/-- The instruction of a register request: every request word is one (R82). -/
def decodeRequest (w : RequestWord) : Instr :=
  if weField w then .wr (idxField w) (wdataField w) else .rd (idxField w)

/-! ### Encoding -/

/-- The word of a token, unused bits 0 (R72 to R77, R79). -/
def Token.word : Token → TokenWord
  | .data v => 0x0#4 ++ (0#32 ++ v)
  | .run v c => 0x1#4 ++ (c ++ v)
  | .pix p => 0x2#4 ++ (0#16 ++ (p.c2 ++ (p.c1 ++ p.c0)))
  | .hdr h w c => 0x3#4 ++ (h ++ (w ++ c))
  | .fin => 0x4#4 ++ 0#40
  | .err cause info => 0x5#4 ++ (0#32 ++ (info ++ cause))

/-- An instruction as it reaches the hardware: a word on an input port, or a word on the register port. -/
inductive Fetched where
  | token (u : UnitId) (w : TokenWord)
  | request (w : RequestWord)
deriving DecidableEq, Repr

/-- Decoding whatever reaches the hardware. -/
def decodeFetched : Fetched → Except DecodeError Instr
  | .token u w => decode u w
  | .request w => .ok (decodeRequest w)

/-- The encoder: the word of an instruction and the port it goes to (R72 to R77, R80, R82). -/
def encode : Instr → Fetched
  | .segHdr h w c => .token .seg (Token.hdr h w c).word
  | .segPix c0 c1 c2 => .token .seg (Token.pix ⟨c0, c1, c2⟩).word
  | .segEnd => .token .seg Token.fin.word
  | .segErr cause info => .token .seg (Token.err cause info).word
  | .encData v => .token .enc (Token.data v).word
  | .encEnd => .token .enc Token.fin.word
  | .encErr cause info => .token .enc (Token.err cause info).word
  | .decRun v c => .token .dec (Token.run v c).word
  | .decEnd => .token .dec Token.fin.word
  | .decErr cause info => .token .dec (Token.err cause info).word
  | .rd idx => .request (0#1 ++ (idx ++ 0#32))
  | .wr idx v => .request (1#1 ++ (idx ++ v))

/-- Whether the bits a word's format marks unused are all 0 (R79); false for a reserved kind. -/
def canonicalWord (w : TokenWord) : Bool :=
  match decodeToken w with
  | .ok t => decide (t.word = w)
  | .error _ => false

/-- Whether a word is a terminator, END or ERR (R86). -/
def isTerminator (w : TokenWord) : Bool := kindOf w == 4#4 || kindOf w == 5#4

/-! ### The opcode table's words -/

/-- The input port at which a table word is read: the first, in the table's order SEG, ENC, DEC, that accepts its kind.
END and ERR are accepted at all three, so they are read at `seg_in`. DESIGN CHOICE: log 8. -/
def tablePort (w : TokenWord) : UnitId :=
  match decode .seg w, decode .enc w, decode .dec w with
  | .ok _, _, _ => .seg
  | .error _, .ok _, _ => .enc
  | .error _, .error _, .ok _ => .dec
  | .error _, .error _, .error _ => .seg

/-- A table row's word as it reaches the hardware: rows of up to 40 bits are register requests (37 bits), longer rows are token
words (44 bits). -/
def tableFetched (nbits w : Nat) : Fetched :=
  if nbits ≤ 40 then .request (BitVec.ofNat 37 w) else .token (tablePort (BitVec.ofNat 44 w)) (BitVec.ofNat 44 w)

/-- Whether a number has no bit above its row's word. -/
def tableWordFits (nbits w : Nat) : Bool :=
  if nbits ≤ 40 then decide (w < 2 ^ 37) else decide (w < 2 ^ 44)

/-- The instruction the decoder reads from a table row's word; none where it refuses, or where the number has a bit above the word. -/
def decodeTableWord (nbits w : Nat) : Option Instr :=
  if tableWordFits nbits w then
    match decodeFetched (tableFetched nbits w) with
    | .ok i => some i
    | .error _ => none
  else none

end Sys2Proof
end

