-- ==== Sys2Proof/Machine/Codec.lean ====
section
/-! DEFINITION. The sequence level of the codec: `encode` (R130), `decode` (R150), the efficiency ratio (R141), and the token-stream
forms of the document's values (R86). -/

namespace Sys2Proof

/-- The scan of `encode` with a current value and a run counter (R130). -/
def encodeFrom (cur : Sample) (cnt : Nat) : List Sample → List Run
  | [] => [(cur, cnt)]
  | x :: xs => if x = cur then encodeFrom cur (cnt + 1) xs else (cur, cnt) :: encodeFrom x 1 xs

/-- `encode(x)` (R130). -/
def rleEncode : List Sample → List Run
  | [] => []
  | x :: xs => encodeFrom x 1 xs

/-- The document's `InvalidRunError` (R150, R193). -/
inductive DecodeFailure where
  | invalidRun
deriving DecidableEq, Repr

/-- `decode(r)`: the samples, or `InvalidRunError` and no output at all (R150). -/
def rleDecode : List Run → Except DecodeFailure (List Sample)
  | [] => .ok []
  | (v, c) :: rest =>
    if c = 0 then .error .invalidRun
    else
      match rleDecode rest with
      | .ok out => .ok (List.replicate c v ++ out)
      | .error e => .error e

/-- The total of the counts of a compressed sequence (R131). -/
def countSum (r : List Run) : Nat := (r.map Prod.snd).sum

/-- The efficiency ratio in percent as an exact rational, `100 x (N - M) / N`; `none` is "undefined" (R141). It is the host's, not a
unit's. -/
def ratio (empty : Config.RatioEmpty) (n m : Nat) : Option Rat :=
  if n = 0 then
    match empty with
    | .zero => some 0
    | .undefined => none
  else some (100 * ((n : Rat) - m) / n)

/-- The RUN token of a run (R73). DESIGN CHOICE: a count above `MAXCNT`, for which there is no RUN word, is reduced modulo 2^32 (log 23). -/
def runToken (r : Run) : Token := .run r.1 (BitVec.ofNat 32 r.2)

/-- `toks_data(x)` (R86). -/
def toksData (x : List Sample) : List Token := x.map Token.data ++ [.fin]

/-- `toks_runs(r)` (R86), for counts up to `MAXCNT` (log 23). -/
def toksRuns (r : List Run) : List Token := r.map runToken ++ [.fin]

/-- The header token of a frame of three channels (R86). DESIGN CHOICE: a height or width above 65535, for which there is no HDR word, is
reduced modulo 2^16 (log 23). -/
def headerToken (h w : Nat) : Token := .hdr (BitVec.ofNat 16 h) (BitVec.ofNat 16 w) Config.channels

/-- `toks_frame(h, w, p)` (R86), for `h` and `w` up to 65535 (log 23). -/
def toksFrame (h w : Nat) (p : List Pixel) : List Token := headerToken h w :: (p.map Token.pix ++ [.fin])

/-- The words of a token sequence. -/
def wordsOf (ts : List Token) : List TokenWord := ts.map Token.word

end Sys2Proof
end

