-- ==== Sys2Proof/Machine/Adapter.lean ====
section
/-! DEFINITION. The host's side of the data: `flatten` and `unflatten` (R51, R52), the FLAT and UNFLAT adapters (R178), what a receiver
keeps of the tokens it takes (R86, R229), and the counts the efficiency ratio is made of (R141). -/

namespace Sys2Proof

/-- An image of shape (height, width, channels), row by row, pixel by pixel, channel by channel (R51). -/
abbrev Image := List (List (List Sample))

/-- Whether an image has the shape `(h, w, ch)`. -/
def Image.shaped (img : Image) (h w ch : Nat) : Bool :=
  decide (img.length = h) && img.all fun row => decide (row.length = w) && row.all fun px => decide (px.length = ch)

/-- `img[r][c][k]` (R51). -/
def Image.at (img : Image) (r c k : Nat) : Sample := ((img.getD r []).getD c []).getD k 0

/-- `flatten`: rows first, then the pixels of a row, then the channels of a pixel (R51). -/
def flatten (img : Image) : List Sample := img.flatten.flatten

/-- `unflatten(flat, h, w, ch)`: refused when the length does not match (R52). -/
def unflatten (flat : List Sample) (h w ch : Nat) : Option Image :=
  if flat.length = h * w * ch then
    some ((List.range h).map fun r => (List.range w).map fun c => (List.range ch).map fun k => flat.getD ((r * w + c) * ch + k) 0)
  else none

/-- The samples of a pixel in channel order (R51 with `ch` = 3). -/
def Pixel.samples (p : Pixel) : List Sample := [p.c0, p.c1, p.c2]

/-- `flatten` of a frame's pixels in row-major order (R53, R178). -/
def flattenPixels (p : List Pixel) : List Sample := p.flatMap Pixel.samples

/-- FLAT on one word taken from `seg_out`: the words offered to `enc_in` for it (R178). A word of another kind, which SEG never emits, is
passed on as it is: log 12. -/
def flatWord (w : TokenWord) : List TokenWord :=
  match decodeToken w with
  | .ok (.hdr _ _ _) => []
  | .ok (.pix p) => p.samples.map fun x => (Token.data x).word
  | .ok .fin => [Token.fin.word]
  | .ok (.err cause info) => [(Token.err cause info).word]
  | .ok (.data _) => [w]
  | .ok (.run _ _) => [w]
  | .error _ => [w]

/-- FLAT on a sequence (R178). -/
def flat (ws : List TokenWord) : List TokenWord := ws.flatMap flatWord

/-- Why UNFLAT refuses (R178: "in a way the host defines"). Log 12. -/
inductive UnflatError where
  /-- The number of DATA tokens before the END is not `3 x h x w`. -/
  | length
  /-- A token that is neither DATA nor a terminator, or no terminator. -/
  | notFlat
deriving DecidableEq, Repr

/-- The DATA tokens at the head of a sequence, and what follows them. -/
def splitData : List TokenWord → List Sample × List TokenWord
  | [] => ([], [])
  | w :: ws =>
    match decodeToken w with
    | .ok (.data v) => (v :: (splitData ws).1, (splitData ws).2)
    | _ => ([], w :: ws)

/-- Group each three consecutive samples into a pixel (R178). -/
def groupPixels : List Sample → List Pixel
  | a :: b :: c :: rest => ⟨a, b, c⟩ :: groupPixels rest
  | _ => []

/-- UNFLAT on one sequence taken from `dec_out`, for a height and width the host gives (R178). Before an ERR an incomplete pixel is
dropped: log 12. A height or width above 65535 has no HDR word: log 23. -/
def unflat (h w : Nat) (ws : List TokenWord) : Except UnflatError (List TokenWord) :=
  match splitData ws with
  | (_, []) => .error .notFlat
  | (xs, t :: _) =>
    match decodeToken t with
    | .ok .fin =>
      if xs.length = 3 * h * w then .ok (wordsOf (headerToken h w :: ((groupPixels xs).map Token.pix ++ [.fin])))
      else .error .length
    | .ok (.err cause info) => .ok (wordsOf (headerToken h w :: ((groupPixels xs).map Token.pix ++ [.err cause info])))
    | _ => .error .notFlat

/-! ### What a receiver keeps -/

/-- The payloads of the sequences closed by END among the words taken from a port, after a payload begun; those of a sequence closed by
ERR, or not closed, are discarded (R86, R198, R229). What a reset cut short is no longer among the words: `closedPart`, R228. -/
def keptSequences : List TokenWord → List TokenWord → List (List TokenWord)
  | _, [] => []
  | begun, w :: ws =>
    if kindOf w = 4 then begun :: keptSequences [] ws
    else if kindOf w = 5 then keptSequences [] ws
    else keptSequences (begun ++ [w]) ws

/-- The words taken from a port up to the last END or ERR: what is left when the host discards "the payload tokens it took from that unit
since the last END or ERR it took" (R228). -/
def closedPart : List TokenWord → List TokenWord
  | [] => []
  | w :: ws =>
    match closedPart ws with
    | [] => if isTerminator w then [w] else []
    | x :: xs => w :: x :: xs

/-- `N`: the DATA tokens among the words offered to `enc_in` (R141). -/
def dataCount (ws : List TokenWord) : Nat := ws.countP fun w => kindOf w == 0

/-- `M`: the RUN tokens among the words taken from `enc_out` (R141). -/
def runCount (ws : List TokenWord) : Nat := ws.countP fun w => kindOf w == 1

/-- The ratio the host reports for a sequence, `RATIO_EMPTY` where it is empty (R141). -/
def reportedRatio (offered taken : List TokenWord) : Option Rat := ratio Config.ratioEmpty (dataCount offered) (runCount taken)

end Sys2Proof
end

