-- ==== Sys2Proof/Machine/State.lean ====
section
/-! DEFINITION. The state of PCD-CORE (10_state.md), the host's own state the rules name (43_host.md), and the reasons a step can stop. -/

namespace Sys2Proof.Machine

/-- SEG's frame store as (byte address, byte) pairs, addresses strictly rising; an unlisted address has not been written (R53). -/
abbrev Memory := List Host.Cell

/-- `seg.phase` (R26). -/
inductive Phase where
  | idle
  | load
deriving DecidableEq, Repr, Inhabited

/-- The state of ENC (R21 to R23, R28, R45). -/
structure EncState where
  /-- `enc.have`: a run is open (R21). -/
  haveRun : Bool
  /-- `enc.cur`: the value of the open run (R22). -/
  cur : Sample
  /-- `enc.cnt`: the length of the open run so far (R23). -/
  cnt : Count
  /-- `enc.fault` (R28). -/
  fault : Code
  /-- `enc.outq`, oldest first (R45). -/
  outq : List TokenWord
deriving DecidableEq, Repr

/-- The state of DEC (R25, R28, R45). -/
structure DecState where
  /-- `dec.fault` (R28). -/
  fault : Code
  /-- `dec.outq`, oldest first (R45). -/
  outq : List TokenWord
deriving DecidableEq, Repr

/-- The state of SEG (R26 to R28, R35 to R39, R45, R53). -/
structure SegState where
  phase : Phase
  /-- `seg.h`, `seg.w`: the open frame's size (R26). -/
  h : Dim
  w : Dim
  /-- `seg.n`: the pixels of the open frame consumed so far (R26). -/
  n : Dim
  /-- The active thresholds, copies taken when a header is accepted (R27). -/
  aHlo : Sample
  aHhi : Sample
  aSmin : Sample
  aVmin : Sample
  aOpen : Bool
  /-- `seg.fault`, `seg.info` (R28). -/
  fault : Code
  info : Code
  /-- `seg.outq`, oldest first (R45). -/
  outq : List TokenWord
  /-- SEG_H_LO, SEG_H_HI, SEG_S_MIN, SEG_V_MIN, SEG_OPEN_EN (R35 to R39). -/
  hLo : Sample
  hHi : Sample
  sMin : Sample
  vMin : Sample
  openEn : Bool
  /-- The frame store `FS` (R53). -/
  fs : Memory
  /-- The MODEL's own: how many hard resets there were, the index of the free value an unwritten byte reads as. Log 4. -/
  fsEpoch : Nat
deriving DecidableEq, Repr

/-- One operation the host makes (R84, R85, R177). DRAIN and PIPE are loops of TAKE and OFFER steps. -/
inductive HostOp where
  /-- OFFER a word on a unit's input port (R174). -/
  | offer (u : UnitId) (w : TokenWord)
  /-- TAKE the head of a unit's output queue (R175). -/
  | take (u : UnitId)
  /-- A register-port request, RD or WR (R82, R170, R171). -/
  | request (w : RequestWord)
  /-- RESET, the hard reset (R176). -/
  | reset
  /-- Remove from `U.inq` the token at a position, not yet consumed (R177). -/
  | withdraw (u : UnitId) (k : Nat)
  /-- `DRAIN`: TAKE until an END or ERR has been taken (R85). -/
  | drain (u : UnitId)
  /-- `PIPE <out> -> <in>`: TAKE and OFFER until an END or ERR has been moved (R85). -/
  | pipe (src dst : UnitId)
  /-- `PIPE seg_out -> FLAT -> enc_in` (R85, R178). -/
  | pipeFlat
deriving DecidableEq, Repr, Inhabited

/-- What belongs to the host: its queues of offered tokens (R174), its program (R84), and what its operations have returned. -/
structure HostState where
  /-- `enc.inq`, `dec.inq`, `seg.inq`, oldest first (R174). -/
  encIn : List TokenWord
  decIn : List TokenWord
  segIn : List TokenWord
  /-- The operations the host will issue, in order (R61, R84). Log 3. -/
  prog : List HostOp
  /-- The MODEL's own: the results of TAKE on each output port, oldest first, without what a reset made the host discard (R228). Log 7. -/
  encTaken : List TokenWord
  decTaken : List TokenWord
  segTaken : List TokenWord
  /-- The MODEL's own: the results of RD, oldest first. Log 7. -/
  reads : List RegWord
deriving DecidableEq, Repr

/-- The whole state: the disjoint union of the three units' states (R20), the host's, and the interleaving. -/
structure State where
  enc : EncState
  dec : DecState
  seg : SegState
  host : HostState
  /-- The MODEL's own: whose turns come next, one interleaving of R61. Log 1. -/
  sched : List Agent
  /-- The MODEL's own: how many turns `sched` did not give, the index of the free value that gives them. Log 1. -/
  tick : Nat
deriving DecidableEq, Repr

/-- Why the model stops without a next state. A fault of the spec is none of these: it is a next state (R195). -/
inductive Fault where
  /-- Raised by every token instruction handed to `exec` while its unit is halted: a halted unit has no consume step (R197, U11).
  `step` never reaches it. Safe. Log 6. -/
  | unitHalted (u : UnitId)
  /-- Raised by SEG.PIX and SEG.END on an access to a frame-store address above 119999, which does not exist (R50, R54).
  No reachable state does. Safe. Log 5. -/
  | frameStoreRange
deriving DecidableEq, Repr

/-- Why the model has no meaning to give. -/
inductive Refusal where
  /-- Raised by `exec` for an instruction whose arm has no meaning yet; no arm is one. Safe. -/
  | notModelled (mnemonic : String)
deriving DecidableEq, Repr

/-- The three outcomes of a step. -/
abbrev Result := Host.Outcome State Fault Refusal

/-- ENC after reset (R46). -/
def EncState.reset : EncState := { haveRun := false, cur := 0, cnt := 0, fault := 0, outq := [] }

/-- DEC after reset (R46). -/
def DecState.reset : DecState := { fault := 0, outq := [] }

/-- SEG after reset (R46); nothing is known of the frame store. -/
def SegState.reset : SegState :=
  { phase := .idle, h := 0, w := 0, n := 0, aHlo := 0, aHhi := 0, aSmin := 0, aVmin := 0, aOpen := false, fault := 0, info := 0, outq := [],
    hLo := Config.hLoRst, hHi := Config.hHiRst, sMin := Config.sMinRst, vMin := Config.vMinRst, openEn := Config.openEnRst,
    fs := [], fsEpoch := 0 }

/-- The host with nothing offered, nothing to do and nothing received. Log 3, log 7, log 9. -/
def HostState.reset : HostState :=
  { encIn := [], decIn := [], segIn := [], prog := [], encTaken := [], decTaken := [], segTaken := [], reads := [] }

/-- The machine right after reset (R46, R220). -/
def State.reset : State :=
  { enc := EncState.reset, dec := DecState.reset, seg := SegState.reset, host := HostState.reset, sched := [], tick := 0 }

end Sys2Proof.Machine
end

