-- ==== Sys2Proof/Machine/Ops.lean ====
section
/-! DEFINITION. The named operations over queues and the frame store; taking a fault, as one operation (R195), and the way out of it,
reset, beside it (R202, R220, R221). -/

namespace Sys2Proof

/-- The code of a cause (R87). -/
def Cause.code : Cause → Code
  | .illegalToken => 1
  | .countOverflow => 2
  | .invalidRun => 3
  | .invalidImage => 4

/-- The code of a sub-reason (R87). -/
def Info.code : Info → Code
  | .none => 0
  | .channels => 1
  | .zeroArea => 2
  | .tooLarge => 3
  | .length => 4

namespace Machine

/-! ### Fault registers and queues of a unit -/

/-- `U.fault` (R28). -/
def State.fault (s : State) : UnitId → Code
  | .enc => s.enc.fault
  | .dec => s.dec.fault
  | .seg => s.seg.fault

/-- `U.outq` (R45). -/
def State.outq (s : State) : UnitId → List TokenWord
  | .enc => s.enc.outq
  | .dec => s.dec.outq
  | .seg => s.seg.outq

/-- `U.outq <- q`. -/
def State.setOutq (s : State) (u : UnitId) (q : List TokenWord) : State :=
  match u with
  | .enc => { s with enc := { s.enc with outq := q } }
  | .dec => { s with dec := { s.dec with outq := q } }
  | .seg => { s with seg := { s.seg with outq := q } }

/-- `U.inq` (R174). -/
def State.inq (s : State) : UnitId → List TokenWord
  | .enc => s.host.encIn
  | .dec => s.host.decIn
  | .seg => s.host.segIn

/-- `U.inq <- q`. -/
def State.setInq (s : State) (u : UnitId) (q : List TokenWord) : State :=
  match u with
  | .enc => { s with host := { s.host with encIn := q } }
  | .dec => { s with host := { s.host with decIn := q } }
  | .seg => { s with host := { s.host with segIn := q } }

/-- What TAKE has returned on a unit's output port. -/
def State.taken (s : State) : UnitId → List TokenWord
  | .enc => s.host.encTaken
  | .dec => s.host.decTaken
  | .seg => s.host.segTaken

/-- Record what TAKE has returned. -/
def State.setTaken (s : State) (u : UnitId) (q : List TokenWord) : State :=
  match u with
  | .enc => { s with host := { s.host with encTaken := q } }
  | .dec => { s with host := { s.host with decTaken := q } }
  | .seg => { s with host := { s.host with segTaken := q } }

/-- The host's program. -/
def State.setProg (s : State) (ops : List HostOp) : State := { s with host := { s.host with prog := ops } }

/-- `emit(U, t)`: append a token word to the output queue (R11, R45). -/
def State.emit (s : State) (u : UnitId) (t : Token) : State := s.setOutq u (s.outq u ++ [t.word])

/-- Several `emit` in one rule, in the order written (R11). -/
def State.emitAll (s : State) (u : UnitId) (ts : List Token) : State := s.setOutq u (s.outq u ++ ts.map Token.word)

/-! ### The fault action and the idle state -/

/-- `raise Fault(U, cause, info)`: the fault action (R195). -/
def State.raise (s : State) (u : UnitId) (cause : Cause) (info : Info) : State :=
  match u with
  | .enc => { s with enc := { s.enc with fault := cause.code } }.emit .enc (.err cause.code info.code)
  | .dec => { s with dec := { s.dec with fault := cause.code } }.emit .dec (.err cause.code info.code)
  | .seg => { s with seg := { s.seg with fault := cause.code, info := info.code } }.emit .seg (.err cause.code info.code)

/-- `idle(ENC)` (R47). -/
def EncState.idle (e : EncState) : EncState := { e with haveRun := false, cur := 0, cnt := 0 }

/-- `idle(SEG)` (R47). -/
def SegState.idle (g : SegState) : SegState :=
  { g with phase := .idle, h := 0, w := 0, n := 0, aHlo := 0, aHhi := 0, aSmin := 0, aVmin := 0, aOpen := false }

/-- `idle(U)` (R47); DEC has nothing to assign. -/
def State.idle (s : State) : UnitId → State
  | .enc => { s with enc := s.enc.idle }
  | .dec => s
  | .seg => { s with seg := s.seg.idle }

/-- Consume an input ERR: forward it and go idle, no fault (R199). -/
def State.forwardErr (s : State) (u : UnitId) (cause info : Code) : State := (s.emit u (.err cause info)).idle u

/-! ### Reset -/

/-- `soft_reset(U)` (R221): configuration registers, frame store and the other units unchanged. -/
def State.softReset (s : State) : UnitId → State
  | .enc => { s with enc := { s.enc.idle with fault := 0, outq := [] } }
  | .dec => { s with dec := { s.dec with fault := 0, outq := [] } }
  | .seg => { s with seg := { s.seg.idle with fault := 0, info := 0, outq := [] } }

/-- The hard reset (R220). The host's queues are not touched (R176). The frame store's content is unspecified after it (R46):
nothing is listed and the free value's index moves on, log 4. -/
def State.hardReset (s : State) : State :=
  { s with enc := EncState.reset, dec := DecState.reset, seg := { SegState.reset with fsEpoch := s.seg.fsEpoch + 1 } }

/-! ### The frame store -/

/-- Canonical form: addresses strictly rising (an unlisted address has no value, so no entry repeats one). -/
def Memory.wf : Memory → Bool
  | [] => true
  | [_] => true
  | a :: b :: rest => decide (a.1 < b.1) && Memory.wf (b :: rest)

/-- The byte written last at an address, if any was. -/
def Memory.read : Memory → Nat → Option Sample
  | [], _ => none
  | (x, y) :: m, a => if x = a then some y else Memory.read m a

/-- Write one byte, keeping the canonical form. -/
def Memory.write : Memory → Nat → Sample → Memory
  | [], a, b => [(a, b)]
  | (x, y) :: m, a, b =>
    if a < x then (a, b) :: (x, y) :: m
    else if a = x then (a, b) :: m
    else (x, y) :: Memory.write m a b

/-- The byte at a frame-store address; a free value where nothing has been written (R46, U6; log 4). -/
def SegState.byte (g : SegState) (a : Nat) : Sample := (Memory.read g.fs a).getD (Config.frameStoreByte g.fsEpoch a)

/-- `MemRead(a, n)` (R54): little-endian. -/
def SegState.memRead (g : SegState) (a : Nat) : Nat → Nat
  | 0 => 0
  | n + 1 => (g.byte a).toNat + 256 * g.memRead (a + 1) n

/-- The store after `MemWrite(a, n, v)` (R54): byte `j` of `v` goes to address `a + j`. -/
def Memory.writeLE (m : Memory) (a : Nat) : Nat → Nat → Memory
  | 0, _ => m
  | n + 1, v => Memory.writeLE (Memory.write m a (BitVec.ofNat 8 v)) (a + 1) n (v / 256)

/-- `MemWrite(a, n, v)` (R54). -/
def SegState.memWrite (g : SegState) (a n v : Nat) : SegState := { g with fs := Memory.writeLE g.fs a n v }

/-- Whether the `n` bytes from address `a` exist: addresses 0 to 119999 (R50). -/
def frameStoreHas (a n : Nat) : Bool := decide (a + n ≤ Config.maxFlat)

/-! ### The guard of every token instruction -/

/-- All token instructions require `U.fault = 0`; a halted unit has no consume step (R197). Log 6. -/
def State.whenRunning (s : State) (u : UnitId) (r : Result) : Result :=
  if s.fault u = 0 then r else .fault (.unitHalted u)

end Machine
end Sys2Proof
end

