-- ==== Sys2Proof/Machine/Operands.lean ====
section
/-! DEFINITION. The operands: a pixel as a 24-bit frame-store word (R54, R74), frame positions (R53), and the register file by name and
index (R29). -/

namespace Sys2Proof

/-- `w[23:0]` of a PIX token: the 24-bit number SEG.PIX stores, channel `k` in bits `8k+7:8k` (R74, R115). -/
def Pixel.toNat24 (p : Pixel) : Nat := p.c0.toNat + 256 * (p.c1.toNat + 256 * p.c2.toNat)

/-- The pixel `(x[7:0], x[15:8], x[23:16])` (R116). -/
def Pixel.ofNat24 (x : Nat) : Pixel := ⟨BitVec.ofNat 8 x, BitVec.ofNat 8 (x / 256), BitVec.ofNat 8 (x / 65536)⟩

namespace Machine

/-- The frame-store address of pixel `i`, `3 x i` (R53). -/
def pixelAddr (i : Nat) : Nat := 3 * i

/-- The address SEG.PIX stores to, `3 x seg.n` (R115). -/
def SegState.storeAddr (g : SegState) : Nat := pixelAddr g.n.toNat

/-- The number of pixels of the open frame, `seg.h x seg.w` (R115, R116). -/
def SegState.frameSize (g : SegState) : Nat := g.h.toNat * g.w.toNat

/-- Pixel `i` of the loaded frame, `MemRead(3 x i, 3)` (R116). -/
def SegState.pixel (g : SegState) (i : Nat) : Pixel := Pixel.ofNat24 (g.memRead (pixelAddr i) 3)

/-- The pixels of the loaded frame in row-major order (R116). -/
def SegState.pixels (g : SegState) (n : Nat) : List Pixel := (List.range n).map g.pixel

/-- The registers by name (R29). -/
inductive RegName where
  | encCtrl
  | encStatus
  | decCtrl
  | decStatus
  | segCtrl
  | segHLo
  | segHHi
  | segSMin
  | segVMin
  | segOpenEn
  | segStatus
  | unmapped
deriving DecidableEq, Repr

/-- The register at an index (R29); 11 to 15 are unmapped (R41). -/
def RegName.ofIndex (idx : RegIdx) : RegName :=
  match idx.toNat with
  | 0 => .encCtrl
  | 1 => .encStatus
  | 2 => .decCtrl
  | 3 => .decStatus
  | 4 => .segCtrl
  | 5 => .segHLo
  | 6 => .segHHi
  | 7 => .segSMin
  | 8 => .segVMin
  | 9 => .segOpenEn
  | 10 => .segStatus
  | _ => .unmapped

/-- The byte address of a register on an integrator's bus, from `REG_BASE`, which the integrator chooses (D34; log 13). DEDUCED: the offset
is 4 x index, as 10_state.md R29 and R56 state it, though D34 leaves the stride between indices open with `REG_BASE` (log 25). -/
def busAddress (idx : RegIdx) : Nat := Config.regBase + 4 * idx.toNat

end Machine
end Sys2Proof
end

