-- ==== Sys2Proof/Machine/Flags.lean ====
section
/-! DEFINITION. The status flags ACTIVE, FAULT and INFO (R42), the STATUS words (R31, R33, R40) and the interrupt lines (R200). The
hardware has no arithmetic condition codes (R42). -/

namespace Sys2Proof.Machine

/-- ACTIVE of ENC = `enc.have` (R42). -/
def EncState.active (e : EncState) : Bool := e.haveRun

/-- ACTIVE of SEG = `seg.phase`, 1 in LOAD (R42). -/
def SegState.active (g : SegState) : Bool := g.phase == .load

/-- ENC_STATUS: `{24 zeros, enc.fault, 3 zeros, enc.have}` (R31, R170). -/
def EncState.status (e : EncState) : RegWord := 0#24 ++ (e.fault ++ (0#3 ++ BitVec.ofBool e.active))

/-- DEC_STATUS: `{24 zeros, dec.fault, 4 zeros}` (R33, R170). -/
def DecState.status (d : DecState) : RegWord := 0#24 ++ (d.fault ++ 0#4)

/-- SEG_STATUS: `{20 zeros, seg.info, seg.fault, 3 zeros, seg.phase}` (R40, R170). -/
def SegState.status (g : SegState) : RegWord := 0#20 ++ (g.info ++ (g.fault ++ (0#3 ++ BitVec.ofBool g.active)))

/-- The interrupt line `irq_U`, a level: 1 iff `U.fault` is not 0 (R200). -/
def State.irq (s : State) (u : UnitId) : Bool := s.fault u != 0

end Sys2Proof.Machine
end

