-- ==== Sys2Proof/Machine/Dec.lean ====
section
/-! DEFINITION. The meanings of DEC.RUN, DEC.END and DEC.ERR (R153 to R155). -/

namespace Sys2Proof.Machine

/-- DEC.RUN: expand one run, all its samples in this one step (R153). -/
def execDecRun (v : Sample) (c : Count) (s : State) : Result :=
  s.whenRunning .dec <|
    if c = 0 then .next (s.raise .dec .invalidRun .none)
    else .next (s.emitAll .dec (List.replicate c.toNat (.data v)))

/-- DEC.END: end of the sequence (R154). -/
def execDecEnd (s : State) : Result :=
  s.whenRunning .dec <| .next (s.emit .dec .fin)

/-- DEC.ERR: an aborted sequence from upstream (R155). -/
def execDecErr (cause info : Code) (s : State) : Result :=
  s.whenRunning .dec <| .next (s.forwardErr .dec cause info)

end Sys2Proof.Machine
end

