-- ==== Sys2Proof/Machine/Enc.lean ====
section
/-! DEFINITION. The meanings of ENC.DATA, ENC.END and ENC.ERR (R133 to R137). -/

namespace Sys2Proof.Machine

/-- The RUN token of the open run (R133, R134). -/
def EncState.openRun (e : EncState) : Token := .run e.cur e.cnt

/-- ENC: open a run of one sample (R133). -/
def State.encOpen (s : State) (v : Sample) : State := { s with enc := { s.enc with haveRun := true, cur := v, cnt := 1 } }

/-- ENC.DATA: consume one sample (R133, R137). -/
def execEncData (v : Sample) (s : State) : Result :=
  s.whenRunning .enc <|
    if s.enc.haveRun = false then .next (s.encOpen v)
    else if v = s.enc.cur then
      if s.enc.cnt.toNat = Config.maxCnt then .next (s.raise .enc .countOverflow .none)
      else .next { s with enc := { s.enc with cnt := s.enc.cnt + 1 } }
    else .next ((s.emit .enc s.enc.openRun).encOpen v)

/-- ENC.END: flush the open run, if any, then END (R134). -/
def execEncEnd (s : State) : Result :=
  s.whenRunning .enc <|
    .next ((s.emitAll .enc (if s.enc.haveRun then [s.enc.openRun, .fin] else [.fin])).idle .enc)

/-- ENC.ERR: an aborted sequence from upstream; an open run is dropped (R135). -/
def execEncErr (cause info : Code) (s : State) : Result :=
  s.whenRunning .enc <| .next (s.forwardErr .enc cause info)

end Sys2Proof.Machine
end

