-- ==== Sys2Proof/Machine/RegPort.lean ====
section
/-! DEFINITION. The meanings of RD and WR (R170 to R173). Both are enabled in every state. -/

namespace Sys2Proof.Machine

/-- `value(idx)` (R170). -/
def State.regValue (s : State) (idx : RegIdx) : RegWord :=
  match RegName.ofIndex idx with
  | .encCtrl => 0
  | .encStatus => s.enc.status
  | .decCtrl => 0
  | .decStatus => s.dec.status
  | .segCtrl => 0
  | .segHLo => s.seg.hLo.setWidth 32
  | .segHHi => s.seg.hHi.setWidth 32
  | .segSMin => s.seg.sMin.setWidth 32
  | .segVMin => s.seg.vMin.setWidth 32
  | .segOpenEn => (BitVec.ofBool s.seg.openEn).setWidth 32
  | .segStatus => s.seg.status
  | .unmapped => 0

/-- A write to a CTRL register: bit 0 = 1 performs the soft reset, bit 0 = 0 does nothing (R30, R32, R34, R172). -/
def State.ctrlWrite (s : State) (u : UnitId) (v : RegWord) : State := if v.getLsbD 0 then s.softReset u else s

/-- What a write of a word to an index does (R171). -/
def State.regWrite (s : State) (idx : RegIdx) (v : RegWord) : State :=
  match RegName.ofIndex idx with
  | .encCtrl => s.ctrlWrite .enc v
  | .decCtrl => s.ctrlWrite .dec v
  | .segCtrl => s.ctrlWrite .seg v
  | .segHLo => { s with seg := { s.seg with hLo := v.extractLsb' 0 8 } }
  | .segHHi => { s with seg := { s.seg with hHi := v.extractLsb' 0 8 } }
  | .segSMin => { s with seg := { s.seg with sMin := v.extractLsb' 0 8 } }
  | .segVMin => { s with seg := { s.seg with vMin := v.extractLsb' 0 8 } }
  | .segOpenEn => { s with seg := { s.seg with openEn := v.getLsbD 0 } }
  | .encStatus => s
  | .decStatus => s
  | .segStatus => s
  | .unmapped => s

/-- RD: the register's word is returned to the host; no state of PCD-CORE is written (R170). Log 7. -/
def execRd (idx : RegIdx) (s : State) : Result :=
  .next { s with host := { s.host with reads := s.host.reads ++ [s.regValue idx] } }

/-- WR: write a register (R171). -/
def execWr (idx : RegIdx) (v : RegWord) (s : State) : Result := .next (s.regWrite idx v)

end Sys2Proof.Machine
end

