-- ==== Sys2Proof/Machine/Hsv.lean ====
section
/-! DEFINITION. The colour conversion: `HSV_REF` (R103), and `HSV_CONV`, the configuration function this hardware instantiates with
it (R102). -/

namespace Sys2Proof

/-- The hue of `HSV_REF` before it is narrowed to 8 bits, for blue `b`, green `g`, red `r` (R103). The divisor is positive, so `/` is
floor division. -/
def hueRef (b g r : Nat) : Int :=
  let v := max r (max g b)
  let d := v - min r (min g b)
  if d = 0 then 0
  else
    let n : Int :=
      if v = r then (g : Int) - b
      else if v = g then ((b : Int) - r) + 2 * d
      else ((r : Int) - g) + 4 * d
    let q := (60 * n + d) / (2 * (d : Int))
    if q < 0 then q + 180 else q

/-- The saturation of `HSV_REF`: 255 x d / V rounded half up (R103). -/
def satRef (b g r : Nat) : Nat :=
  let v := max r (max g b)
  let d := v - min r (min g b)
  if v = 0 then 0 else (510 * d + v) / (2 * v)

/-- The value of `HSV_REF`: the largest channel (R103). -/
def valRef (b g r : Nat) : Nat := max r (max g b)

/-- `HSV_REF(c0, c1, c2)` (R103). -/
def hsvRef (p : Pixel) : Hsv :=
  ⟨BitVec.ofInt 8 (hueRef p.c0.toNat p.c1.toNat p.c2.toNat), BitVec.ofNat 8 (satRef p.c0.toNat p.c1.toNat p.c2.toNat),
    BitVec.ofNat 8 (valRef p.c0.toNat p.c1.toNat p.c2.toNat)⟩

/-- `HSV_CONV`: "This hardware instantiates `HSV_CONV` with `HSV_REF`" (R102, R5). Log 10. -/
def Config.hsvConv : Pixel → Hsv := hsvRef

end Sys2Proof
end

