-- ==== Sys2Proof/Machine/Mask.lean ====
section
/-! DEFINITION. What SEG computes from a frame: threshold, erosion, dilation, opening, mask application, `seg_frame` (R104 to R111).
A mask element 255 is `true`, 0 is `false` (R104 allows one bit). The conversion is a parameter of every function here (R102). -/

namespace Sys2Proof

/-- `cfg = (hlo, hhi, smin, vmin, open_en)` (R111). -/
structure SegCfg where
  hlo : Sample
  hhi : Sample
  smin : Sample
  vmin : Sample
  openEn : Bool
deriving DecidableEq, Repr

/-- Whether a pixel of the given hue, saturation and value is foreground: four inclusive unsigned comparisons (R104). -/
def SegCfg.accepts (cfg : SegCfg) (x : Hsv) : Bool :=
  decide (cfg.hlo ≤ x.hue) && decide (x.hue ≤ cfg.hhi) && decide (cfg.smin ≤ x.sat) && decide (cfg.vmin ≤ x.val)

/-- The threshold mask `m0` of a frame (R104). -/
def thresholdMask (conv : Pixel → Hsv) (cfg : SegCfg) (p : List Pixel) : List Bool := p.map fun x => cfg.accepts (conv x)

/-- `|a - b| <= 1` (R105). -/
def near (a b : Nat) : Bool := decide (a ≤ b + 1) && decide (b ≤ a + 1)

/-- `N(r, c)` of position `i` = row `i div w`, column `i mod w`: the 3x3 square cut off at the frame's edge (R105). -/
def neighbours (h w i : Nat) : List Nat :=
  ((List.range h).filter (near (i / w))).flatMap fun r => ((List.range w).filter (near (i % w))).map fun c => r * w + c

/-- The mask's element at a position. -/
def maskAt (m : List Bool) (i : Nat) : Bool := m.getD i false

/-- Erosion: set where every neighbour is set (R105). -/
def erode (h w : Nat) (m : List Bool) : List Bool := (List.range (h * w)).map fun i => (neighbours h w i).all (maskAt m)

/-- Dilation: set where some neighbour is set (R106). -/
def dilate (h w : Nat) (m : List Bool) : List Bool := (List.range (h * w)).map fun i => (neighbours h w i).any (maskAt m)

/-- Opening: one erosion, then one dilation (R107). -/
def opening (h w : Nat) (m : List Bool) : List Bool := dilate h w (erode h w m)

/-- The final mask `m1` (R108). -/
def finalMask (h w : Nat) (openEn : Bool) (m0 : List Bool) : List Bool := if openEn then opening h w m0 else m0

/-- Applying the mask, the three channels of a pixel alike (R109). -/
def applyMask (p : List Pixel) (m : List Bool) : List Pixel := List.zipWith (fun x b => if b then x else Pixel.black) p m

/-- `seg_frame(h, w, p, cfg)` (R111). -/
def segFrame (conv : Pixel → Hsv) (h w : Nat) (p : List Pixel) (cfg : SegCfg) : List Pixel :=
  applyMask p (finalMask h w cfg.openEn (thresholdMask conv cfg p))

end Sys2Proof
end

