-- ==== Sys2Proof/Machine/Seg.lean ====
section
/-! DEFINITION. The meanings of SEG.HDR, SEG.PIX, SEG.END and SEG.ERR (R114 to R117). -/

namespace Sys2Proof.Machine

/-- The configuration registers as a `cfg` (R120). -/
def SegState.config (g : SegState) : SegCfg := ⟨g.hLo, g.hHi, g.sMin, g.vMin, g.openEn⟩

/-- The latched thresholds as a `cfg` (R116). -/
def SegState.latched (g : SegState) : SegCfg := ⟨g.aHlo, g.aHhi, g.aSmin, g.aVmin, g.aOpen⟩

/-- Open a frame: the size, no pixel yet, the configuration copied into the latches (R114, R121). -/
def SegState.openFrame (g : SegState) (height width : Dim) : SegState :=
  { g with
    phase := .load, h := height, w := width, n := 0
    aHlo := g.hLo, aHhi := g.hHi, aSmin := g.sMin, aVmin := g.vMin, aOpen := g.openEn }

/-- Load one pixel: `MemWrite(3 x seg.n, 3, w[23:0])`, `seg.n <- seg.n + 1` (R115). -/
def SegState.loadPixel (g : SegState) (p : Pixel) : SegState := { g.memWrite g.storeAddr 3 p.toNat24 with n := g.n + 1 }

/-- The segmented frame of the loaded pixels under the latched thresholds (R116). -/
def SegState.segmented (g : SegState) : List Pixel :=
  segFrame Config.hsvConv g.h.toNat g.w.toNat (g.pixels g.frameSize) g.latched

/-- The tokens SEG.END emits: `toks_frame` of the segmented frame (R116, R110). -/
def SegState.outputTokens (g : SegState) : List Token :=
  .hdr g.h g.w Config.channels :: (g.segmented.map Token.pix ++ [.fin])

/-- SEG.HDR: open a frame; the tests in the order R114 writes them (R114, R201). -/
def execSegHdr (height width : Dim) (channels : Sample) (s : State) : Result :=
  s.whenRunning .seg <|
    if s.seg.phase = .load then .next (s.raise .seg .illegalToken .none)
    else if channels ≠ Config.channels then .next (s.raise .seg .invalidImage .channels)
    else if height = 0 ∨ width = 0 then .next (s.raise .seg .invalidImage .zeroArea)
    else if Config.maxH < height.toNat ∨ Config.maxW < width.toNat then .next (s.raise .seg .invalidImage .tooLarge)
    else .next { s with seg := s.seg.openFrame height width }

/-- SEG.PIX: load one pixel (R115). -/
def execSegPix (c0 c1 c2 : Sample) (s : State) : Result :=
  s.whenRunning .seg <|
    if s.seg.phase = .idle then .next (s.raise .seg .illegalToken .none)
    else if s.seg.n.toNat = s.seg.frameSize then .next (s.raise .seg .invalidImage .length)
    else if frameStoreHas s.seg.storeAddr 3 then .next { s with seg := s.seg.loadPixel ⟨c0, c1, c2⟩ }
    else .fault .frameStoreRange

/-- SEG.END: close the frame, compute, emit the segmented frame (R116). -/
def execSegEnd (s : State) : Result :=
  s.whenRunning .seg <|
    if s.seg.phase = .idle then .next (s.raise .seg .illegalToken .none)
    else if s.seg.n.toNat ≠ s.seg.frameSize then .next (s.raise .seg .invalidImage .length)
    else if frameStoreHas 0 (3 * s.seg.frameSize) then .next ((s.emitAll .seg s.seg.outputTokens).idle .seg)
    else .fault .frameStoreRange

/-- SEG.ERR: an aborted frame from upstream, accepted in both phases (R117). -/
def execSegErr (cause info : Code) (s : State) : Result :=
  s.whenRunning .seg <| .next (s.forwardErr .seg cause info)

end Sys2Proof.Machine
end

