-- ==== Sys2Proof/Machine/Dispatch.lean ====
section
/-! DEFINITION. One arm per instruction. -/

namespace Sys2Proof.Machine

/-- What an instruction does, once its token or request has reached its unit. -/
def exec (i : Instr) (s : State) : Host.Outcome State Fault Refusal :=
  match i with
  | .segHdr height width channels => Sys2Proof.Machine.execSegHdr height width channels s
  | .segPix c0 c1 c2 => Sys2Proof.Machine.execSegPix c0 c1 c2 s
  | .segEnd => Sys2Proof.Machine.execSegEnd s
  | .segErr cause info => Sys2Proof.Machine.execSegErr cause info s
  | .encData v => Sys2Proof.Machine.execEncData v s
  | .encEnd => Sys2Proof.Machine.execEncEnd s
  | .encErr cause info => Sys2Proof.Machine.execEncErr cause info s
  | .decRun v c => Sys2Proof.Machine.execDecRun v c s
  | .decEnd => Sys2Proof.Machine.execDecEnd s
  | .decErr cause info => Sys2Proof.Machine.execDecErr cause info s
  | .rd idx => Sys2Proof.Machine.execRd idx s
  | .wr idx v => Sys2Proof.Machine.execWr idx v s

end Sys2Proof.Machine
end

