-- ==== Sys2Proof/Machine/Signals.lean ====
section
/-! DEFINITION. The levels of the port signals that are functions of the state (R182); the clock and the handshake are not modelled
(R237, log 18). The interrupt lines stand in Flags.lean. -/

namespace Sys2Proof.Machine

/-- `U_in_ready`: 0 while the unit is halted; the model's output path is never full (R182, R231). -/
def State.inReady (s : State) (u : UnitId) : Bool := s.fault u == 0

/-- `U_in_valid`: the host has offered a token the unit has not consumed (R174, R182). -/
def State.inValid (s : State) (u : UnitId) : Bool := !(s.inq u).isEmpty

/-- `U_in_data`: the token at the head of the input port (R174, R182). -/
def State.inData (s : State) (u : UnitId) : Option TokenWord := (s.inq u).head?

/-- A unit's consume step is enabled: `U.inq` is not empty and `U.fault` = 0 (R174, R197). -/
def State.canConsume (s : State) (u : UnitId) : Bool := s.inValid u && s.inReady u

/-- `U_out_valid` = 1 iff `U.outq` is not empty (R182). -/
def State.outValid (s : State) (u : UnitId) : Bool := !(s.outq u).isEmpty

/-- `U_out_data`: the head of `U.outq` (R182). -/
def State.outData (s : State) (u : UnitId) : Option TokenWord := (s.outq u).head?

end Sys2Proof.Machine
end

