-- ==== Sys2Proof/Machine/Agents.lean ====
section
/-! DEFINITION. The turns of the four agents (R7): a unit's consume step (R66, R174), the host's operations (R174 to R177, R85, R228), and
whose turn it is (R61). -/

namespace Sys2Proof.Machine

/-- Whose turn is next: the interleaving in `sched`, then the free value (R61; log 1). -/
def State.nextTurn (s : State) : Agent × State :=
  match s.sched with
  | a :: rest => (a, { s with sched := rest })
  | [] => (Config.freeTurn s.tick, { s with tick := s.tick + 1 })

/-- Execute a consumed token: its instruction, or ILLEGAL_TOKEN where the port accepts no such kind (R81, R88). -/
def State.executeToken (s : State) (u : UnitId) (w : TokenWord) : Result :=
  match decode u w with
  | .ok i => exec i s
  | .error _ => .next (s.raise u .illegalToken .none)

/-- A unit's turn: its consume step, "enabled iff `U.inq` is not empty and `U.fault` = 0" (R174, R197); a turn of a unit with no
enabled step passes (log 2). -/
def State.consume (s : State) (u : UnitId) : Result :=
  match s.inq u with
  | [] => .next s
  | w :: rest => if s.fault u = 0 then (s.setInq u rest).executeToken u w else .next s

/-- OFFER: the word joins the tail of `U.inq` (R174). -/
def State.offer (s : State) (u : UnitId) (w : TokenWord) : State := s.setInq u (s.inq u ++ [w])

/-- TAKE of the word `w` at the head of `U.outq`, leaving `q` (R175). -/
def State.takeHead (s : State) (u : UnitId) (w : TokenWord) (q : List TokenWord) : State :=
  (s.setOutq u q).setTaken u (s.taken u ++ [w])

/-- A TAKE the host makes, with what its program is afterwards, by the word taken; on an empty queue it "is not a step; the host
waits" (R175; log 2). -/
def State.takeThen (s : State) (u : UnitId) (prog : TokenWord → List HostOp) : Result :=
  match s.outq u with
  | [] => .next s
  | w :: q => .next ((s.takeHead u w q).setProg (prog w))

/-- The host's program after the TAKE of a DRAIN or PIPE loop: the OFFERs the taken word asks for, then the loop again unless the word
was a terminator (R85). -/
def loopProg (op : HostOp) (rest : List HostOp) (offers : TokenWord → List HostOp) (w : TokenWord) : List HostOp :=
  offers w ++ (if isTerminator w then rest else op :: rest)

/-- The host discards what it took from a unit since the last END or ERR (R228): its record ends there. Log 7. -/
def State.discardCut (s : State) (u : UnitId) : State := s.setTaken u (closedPart (s.taken u))

/-- The unit a register request soft-resets, if it is a write of 1 to bit 0 of a CTRL register (R171). -/
def resetTarget (w : RequestWord) : Option UnitId :=
  if weField w && (wdataField w).getLsbD 0 then
    match RegName.ofIndex (idxField w) with
    | .encCtrl => some .enc
    | .decCtrl => some .dec
    | .segCtrl => some .seg
    | .encStatus => none
    | .decStatus => none
    | .segHLo => none
    | .segHHi => none
    | .segSMin => none
    | .segVMin => none
    | .segOpenEn => none
    | .segStatus => none
    | .unmapped => none
  else none

/-- What the host discards when it makes a register request: the payload that a soft reset cuts short (R177, R228). -/
def State.discardFor (s : State) (w : RequestWord) : State :=
  match resetTarget w with
  | some u => s.discardCut u
  | none => s

/-- What the host discards at a RESET: the payload cut short on each port (R177, R228). -/
def State.discardAll (s : State) : State := ((s.discardCut .enc).discardCut .dec).discardCut .seg

/-- One host operation, with the rest of the host's program. -/
def State.hostOp (s : State) (op : HostOp) (rest : List HostOp) : Result :=
  match op with
  | .offer u w => .next ((s.setProg rest).offer u w)
  | .take u => s.takeThen u fun _ => rest
  | .request w => exec (decodeRequest w) ((s.setProg rest).discardFor w)
  | .reset => .next (s.setProg rest).discardAll.hardReset
  | .withdraw u k => .next ((s.setProg rest).setInq u ((s.inq u).eraseIdx k))
  | .drain u => s.takeThen u (loopProg op rest fun _ => [])
  | .pipe src dst => s.takeThen src (loopProg op rest fun w => [.offer dst w])
  | .pipeFlat => s.takeThen .seg (loopProg op rest fun w => (flatWord w).map (.offer .enc))

/-- The host's turn: its next operation; a host with nothing to do takes no step (log 2, log 3). -/
def State.hostTurn (s : State) : Result :=
  match s.host.prog with
  | [] => .next s
  | op :: rest => s.hostOp op rest

/-- An agent's turn. -/
def State.turn (s : State) (a : Agent) : Result :=
  match a with
  | .unit u => s.consume u
  | .host => s.hostTurn

/-- Put an instruction's word where it is fetched next: at the head of its input port, at that unit's turn; or at the head of the
host's program, at the host's turn (R66, R84; log 9). -/
def State.place (s : State) (f : Fetched) : State :=
  match f with
  | .token u w => { s.setInq u (w :: s.inq u) with sched := .unit u :: s.sched }
  | .request w => { s.setProg (.request w :: s.host.prog) with sched := .host :: s.sched }

end Sys2Proof.Machine
end

