-- ==== Sys2Proof/Machine/Step.lean ====
section
/-! DEFINITION. One step of the machine, and where it fetches. -/

namespace Sys2Proof.Machine

/-- One atomic step: the turn of the agent whose turn it is (R61). -/
def step (s : State) : Host.Outcome State Fault Refusal := s.nextTurn.2.turn s.nextTurn.1

/-- The state with a table row's word placed where `step` fetches next (log 8, log 9). -/
def State.withFetchWord (s : State) (nbits w : Nat) : State := s.place (tableFetched nbits w)

end Sys2Proof.Machine
end

