-- ==== Sys2Proof/Machine/Asm.lean ====
section
/-! DEFINITION. The lines of a program and the pseudo-instructions (R84, R85), as data, their expansion to host operations, and
the default interleaving of R84. -/

namespace Sys2Proof.Machine

/-- One line of a program (R84) or a pseudo-instruction (R85). -/
inductive Line where
  /-- `<port>: DATA/RUN/PIX/HDR/END/ERR …` -/
  | token (u : UnitId) (t : Token)
  /-- `<port>: WORD <hex>` -/
  | word (u : UnitId) (w : TokenWord)
  /-- `TAKE <port>` -/
  | take (u : UnitId)
  /-- `WR <reg>, <v>` -/
  | wr (idx : RegIdx) (v : RegWord)
  /-- `RD <reg>` -/
  | rd (idx : RegIdx)
  /-- `RESET` -/
  | reset
  /-- `<port>: SEQ [v0, …]` -/
  | seq (u : UnitId) (x : List Sample)
  /-- `<port>: RUNS [(v0, c0), …]` -/
  | runs (u : UnitId) (r : List Run)
  /-- `<port>: FRAME h, w, [p0, …]` -/
  | frame (u : UnitId) (h w : Nat) (p : List Pixel)
  /-- `SRST ENC`, `SRST DEC`, `SRST SEG` -/
  | srst (u : UnitId)
  /-- `DRAIN <port>` -/
  | drain (u : UnitId)
  /-- `PIPE <out> -> <in>` -/
  | pipe (src dst : UnitId)
  /-- `PIPE seg_out -> FLAT -> enc_in` -/
  | pipeFlat
deriving DecidableEq, Repr

/-- The request word of an RD or WR (R82). -/
def requestWord (we : Bool) (idx : RegIdx) (v : RegWord) : RequestWord := BitVec.ofBool we ++ (idx ++ v)

/-- The CTRL register of a unit: ENC_CTRL, DEC_CTRL, SEG_CTRL (R29). -/
def ctrlIndex : UnitId → RegIdx
  | .enc => 0
  | .dec => 2
  | .seg => 4

/-- OFFER each token of a sequence, in order. -/
def offers (u : UnitId) (ts : List Token) : List HostOp := ts.map fun t => .offer u t.word

/-- What a line stands for (R84, R85). -/
def Line.expand : Line → List HostOp
  | .token u t => [.offer u t.word]
  | .word u w => [.offer u w]
  | .take u => [.take u]
  | .wr idx v => [.request (requestWord true idx v)]
  | .rd idx => [.request (requestWord false idx 0)]
  | .reset => [.reset]
  | .seq u x => offers u (toksData x)
  | .runs u r => offers u (toksRuns r)
  | .frame u h w p => offers u (toksFrame h w p)
  | .srst u => [.request (requestWord true (ctrlIndex u) 1)]
  | .drain u => [.drain u]
  | .pipe src dst => [.pipe src dst]
  | .pipeFlat => [.pipeFlat]

/-- The host operations of a program (R84). -/
def assemble (p : List Line) : List HostOp := p.flatMap Line.expand

/-- Whose turn it is where "each unit consumes every offered token as soon as it is offered" (R84): a unit's with an enabled consume step,
else the host's. -/
def State.eagerAgent (s : State) : Agent :=
  if s.canConsume .enc then .unit .enc
  else if s.canConsume .dec then .unit .dec
  else if s.canConsume .seg then .unit .seg
  else .host

/-- The default interleaving of R84 for `k` turns, from a state; it is the value of `sched` that gives those turns. Log 22. -/
def State.eagerTurns : Nat → State → List Agent
  | 0, _ => []
  | k + 1, s =>
    s.eagerAgent ::
      (match s.turn s.eagerAgent with
      | .next t => State.eagerTurns k t
      | .fault _ => []
      | .refused _ => [])

/-- A state with a program and an interleaving loaded from outside (log 9). -/
def State.loadProgram (s : State) (ops : List HostOp) (turns : List Agent) : State :=
  { s.setProg ops with sched := turns }

end Sys2Proof.Machine
end

