-- ==== Sys2Proof/Safety.lean ====
section
/-! DEFINITION. The terms claims use: several steps, a run with no recorded fault, fairness, and the invariant every
step keeps. -/

namespace Sys2Proof.Machine

/-- `k` steps, stopping at the first stop. -/
def steps : Nat → State → Result
  | 0, s => .next s
  | k + 1, s =>
    match step s with
    | .next t => steps k t
    | .fault f => .fault f
    | .refused r => .refused r

/-- No unit has recorded a fault (R197: "the absence of a recorded fault"). -/
def State.noFault (s : State) : Bool := s.enc.fault == 0 && s.dec.fault == 0 && s.seg.fault == 0

/-- A safe run of `k` steps: it completes, and no unit is halted at its end (R197; faults are sticky but for a reset). -/
def safeRun (k : Nat) (s : State) : Bool :=
  match steps k s with
  | .next t => t.noFault
  | .fault _ => false
  | .refused _ => false

/-- Fairness of the units in the run from a state: "a unit whose consume step stays enabled eventually takes it" (R237, D26). After every
step there is a later one at which the step is not enabled or it is the unit's turn. A premise for claims that something happens
eventually, never built in: log 24. -/
def State.unitsFair (s : State) : Prop :=
  ∀ (u : UnitId) (k : Nat), ∃ j, k ≤ j ∧ ∀ t, steps j s = .next t → t.canConsume u = false ∨ t.nextTurn.1 = .unit u

/-- Fairness of the host in the run from a state: "a host bound by R177 eventually takes every output token" (R231, R237). While a token
waits in an output queue, a later step of the host changes that queue, which only a TAKE of its head or a reset does. Log 24. -/
def State.hostFair (s : State) : Prop :=
  ∀ (u : UnitId) (k : Nat) (t : State), steps k s = .next t → t.outq u ≠ [] →
    ∃ (j : Nat) (a b : State), k ≤ j ∧ steps j s = .next a ∧ a.nextTurn.1 = .host ∧ step a = .next b ∧ b.outq u ≠ a.outq u

/-- A fair run (R237). -/
def State.fair (s : State) : Prop := s.unitsFair ∧ s.hostFair

/-- ENC is idle (R47). -/
abbrev EncState.isIdle (e : EncState) : Prop := e.haveRun = false ∧ e.cur = 0 ∧ e.cnt = 0

/-- SEG is idle (R47). -/
abbrev SegState.isIdle (g : SegState) : Prop :=
  g.phase = .idle ∧ g.h = 0 ∧ g.w = 0 ∧ g.n = 0 ∧ g.aHlo = 0 ∧ g.aHhi = 0 ∧ g.aSmin = 0 ∧ g.aVmin = 0 ∧ g.aOpen = false

/-- The kinds a unit emits (R80), a RUN with a count of at least 1 (R152). -/
def emittable : UnitId → Token → Bool
  | .enc, .run _ c => c != 0
  | .enc, .fin => true
  | .enc, .err _ _ => true
  | .enc, .data _ => false
  | .enc, .pix _ => false
  | .enc, .hdr _ _ _ => false
  | .dec, .data _ => true
  | .dec, .fin => true
  | .dec, .err _ _ => true
  | .dec, .run _ _ => false
  | .dec, .pix _ => false
  | .dec, .hdr _ _ _ => false
  | .seg, .hdr _ _ _ => true
  | .seg, .pix _ => true
  | .seg, .fin => true
  | .seg, .err _ _ => true
  | .seg, .data _ => false
  | .seg, .run _ _ => false

/-- A word a unit can have emitted: unused bits 0 (R79), a kind the unit emits (R80). -/
def emittedWord (u : UnitId) (w : TokenWord) : Bool :=
  canonicalWord w &&
    match decodeToken w with
    | .ok t => emittable u t
    | .error _ => false

/-- ENC's invariant: R24, the causes ENC raises (R190), the words it emits (R80). -/
abbrev EncState.Inv (e : EncState) : Prop :=
  (e.haveRun = false → e.cur = 0 ∧ e.cnt = 0) ∧ (e.haveRun = true → e.cnt ≠ 0) ∧ e.fault ∈ [0#4, 1#4, 2#4] ∧
    ∀ w ∈ e.outq, emittedWord .enc w = true

/-- DEC's invariant: the causes DEC raises (R190), the words it emits (R80). -/
abbrev DecState.Inv (d : DecState) : Prop := d.fault ∈ [0#4, 1#4, 3#4] ∧ ∀ w ∈ d.outq, emittedWord .dec w = true

/-- SEG's invariant: idle registers in IDLE (R47), an acceptable frame partly loaded in LOAD (R26, R114), the causes SEG raises with
their info (R190, R28), the frame store in canonical form, inside its addresses and written as far as the frame is loaded (R53), the
words SEG emits (R80). -/
abbrev SegState.Inv (g : SegState) : Prop :=
  (g.phase = .idle → g.isIdle) ∧
    (g.phase = .load →
      (1 ≤ g.h.toNat ∧ g.h.toNat ≤ Config.maxH) ∧ (1 ≤ g.w.toNat ∧ g.w.toNat ≤ Config.maxW) ∧ g.n.toNat ≤ g.frameSize ∧
        ∀ a < 3 * g.n.toNat, (Memory.read g.fs a).isSome = true) ∧
    g.fault ∈ [0#4, 1#4, 4#4] ∧ (g.fault = 4 ↔ g.info ≠ 0) ∧ g.info ∈ [0#4, 1#4, 2#4, 3#4, 4#4] ∧
    Memory.wf g.fs = true ∧ (∀ x ∈ g.fs, x.1 < Config.maxFlat) ∧ ∀ w ∈ g.outq, emittedWord .seg w = true

/-- The invariant of the whole machine. -/
abbrev State.Inv (s : State) : Prop := s.enc.Inv ∧ s.dec.Inv ∧ s.seg.Inv

end Sys2Proof.Machine
end

