-- ==== Sys2Proof/Certificates/Slice0/Obligations.lean ====
section
/-! DEFINITION. The statements for the provers. Words of tokens are written out from 30_encoding.md, not by the model's encoder, where a
statement is about a word. -/

open Sys2Proof Sys2Proof.Machine

/-! ### SEG's instructions -/

/-- R114. SEG.HDR: the operand fields, the four tests in their order, and the frame an accepted header opens, with the configuration
latched; the rest of the state, the frame store included, as before. -/
def Obligations.SegHdrOpensFrame : Prop :=
  (∀ w : TokenWord, w.extractLsb' 40 4 = 3#4 →
    decode .seg w = .ok (.segHdr (w.extractLsb' 24 16) (w.extractLsb' 8 16) (w.extractLsb' 0 8))) ∧
  ∀ (height width : Dim) (channels : Sample) (s : State), s.seg.fault = 0 →
    (s.seg.phase = .load →
      exec (.segHdr height width channels) s =
        .next { s with seg := { s.seg with fault := 1, info := 0, outq := s.seg.outq ++ [0x50000000001#44] } }) ∧
    (s.seg.phase = .idle →
      (channels ≠ 3 →
        exec (.segHdr height width channels) s =
          .next { s with seg := { s.seg with fault := 4, info := 1, outq := s.seg.outq ++ [0x50000000014#44] } }) ∧
      (channels = 3 → height = 0 ∨ width = 0 →
        exec (.segHdr height width channels) s =
          .next { s with seg := { s.seg with fault := 4, info := 2, outq := s.seg.outq ++ [0x50000000024#44] } }) ∧
      (channels = 3 → height ≠ 0 → width ≠ 0 → 200 < height.toNat ∨ 200 < width.toNat →
        exec (.segHdr height width channels) s =
          .next { s with seg := { s.seg with fault := 4, info := 3, outq := s.seg.outq ++ [0x50000000034#44] } }) ∧
      (channels = 3 → 1 ≤ height.toNat → height.toNat ≤ 200 → 1 ≤ width.toNat → width.toNat ≤ 200 →
        exec (.segHdr height width channels) s =
          .next
            { s with
              seg :=
                { s.seg with
                  phase := .load, h := height, w := width, n := 0
                  aHlo := s.seg.hLo, aHhi := s.seg.hHi, aSmin := s.seg.sMin, aVmin := s.seg.vMin, aOpen := s.seg.openEn } }))

/-- R115. SEG.PIX: the operand fields, the two faults, and the pixel stored in flat order at byte `3 x seg.n` with `seg.n` advanced by 1;
every other byte of the frame store and the rest of the state as before. The premise `seg.h x seg.w <= MAX_PIX` holds in every state that
meets the invariant. -/
def Obligations.SegPixLoadsPixel : Prop :=
  (∀ w : TokenWord, w.extractLsb' 40 4 = 2#4 →
    decode .seg w = .ok (.segPix (w.extractLsb' 0 8) (w.extractLsb' 8 8) (w.extractLsb' 16 8))) ∧
  ∀ (c0 c1 c2 : Sample) (s : State), s.seg.fault = 0 →
    (s.seg.phase = .idle →
      exec (.segPix c0 c1 c2) s =
        .next { s with seg := { s.seg with fault := 1, info := 0, outq := s.seg.outq ++ [0x50000000001#44] } }) ∧
    (s.seg.phase = .load → s.seg.n.toNat = s.seg.h.toNat * s.seg.w.toNat →
      exec (.segPix c0 c1 c2) s =
        .next { s with seg := { s.seg with fault := 4, info := 4, outq := s.seg.outq ++ [0x50000000044#44] } }) ∧
    (s.seg.phase = .load → s.seg.n.toNat < s.seg.h.toNat * s.seg.w.toNat → s.seg.h.toNat * s.seg.w.toNat ≤ 40000 →
      ∃ fs, exec (.segPix c0 c1 c2) s = .next { s with seg := { s.seg with fs := fs, n := s.seg.n + 1 } } ∧
        (s.seg.n + 1).toNat = s.seg.n.toNat + 1 ∧
        { s.seg with fs := fs }.byte s.seg.storeAddr = c0 ∧
        { s.seg with fs := fs }.byte (s.seg.storeAddr + 1) = c1 ∧
        { s.seg with fs := fs }.byte (s.seg.storeAddr + 2) = c2 ∧
        s.seg.storeAddr = 3 * s.seg.n.toNat ∧
        ∀ a, a < s.seg.storeAddr ∨ s.seg.storeAddr + 3 ≤ a → { s.seg with fs := fs }.byte a = s.seg.byte a)

/-- R116. SEG.END: the two faults, and on a complete frame the tokens HDR, the segmented pixels, END, all in this one step, computed from
the stored bytes `FS[3i .. 3i+2]` under the latched thresholds; SEG is then idle and the rest of the state, the frame store included, as
before. -/
def Obligations.SegEndEmitsFrame : Prop :=
  (∀ w : TokenWord, w.extractLsb' 40 4 = 4#4 → decode .seg w = .ok .segEnd) ∧
  ∀ s : State, s.seg.fault = 0 →
    (s.seg.phase = .idle →
      exec .segEnd s = .next { s with seg := { s.seg with fault := 1, info := 0, outq := s.seg.outq ++ [0x50000000001#44] } }) ∧
    (s.seg.phase = .load → s.seg.n.toNat ≠ s.seg.h.toNat * s.seg.w.toNat →
      exec .segEnd s = .next { s with seg := { s.seg with fault := 4, info := 4, outq := s.seg.outq ++ [0x50000000044#44] } }) ∧
    (s.seg.phase = .load → s.seg.n.toNat = s.seg.h.toNat * s.seg.w.toNat → s.seg.h.toNat * s.seg.w.toNat ≤ 40000 →
      exec .segEnd s =
        .next
          { s with
            seg :=
              { s.seg with
                phase := .idle, h := 0, w := 0, n := 0, aHlo := 0, aHhi := 0, aSmin := 0, aVmin := 0, aOpen := false
                outq :=
                  s.seg.outq ++
                    ((0x3#4 ++ (s.seg.h ++ (s.seg.w ++ 3#8)) : BitVec 44) ::
                      (segFrame Config.hsvConv s.seg.h.toNat s.seg.w.toNat
                          ((List.range (s.seg.h.toNat * s.seg.w.toNat)).map fun i =>
                            ⟨s.seg.byte (3 * i), s.seg.byte (3 * i + 1), s.seg.byte (3 * i + 2)⟩)
                          ⟨s.seg.aHlo, s.seg.aHhi, s.seg.aSmin, s.seg.aVmin, s.seg.aOpen⟩).map
                        (fun x => (0x2#4 ++ (0#16 ++ (x.c2 ++ (x.c1 ++ x.c0))) : BitVec 44)) ++
                      [0x40000000000#44]) } })

/-- R117. SEG.ERR, in IDLE and in LOAD: bits 7:0 of the token forwarded in an ERR word, SEG idle, no fault, the rest as before. -/
def Obligations.SegErrForwardsAbort : Prop :=
  (∀ w : TokenWord, w.extractLsb' 40 4 = 5#4 → decode .seg w = .ok (.segErr (w.extractLsb' 0 4) (w.extractLsb' 4 4))) ∧
  ∀ (cause info : Code) (s : State), s.seg.fault = 0 →
    exec (.segErr cause info) s =
      .next
        { s with
          seg :=
            { s.seg with
              phase := .idle, h := 0, w := 0, n := 0, aHlo := 0, aHhi := 0, aSmin := 0, aVmin := 0, aOpen := false
              outq := s.seg.outq ++ [0x5#4 ++ (0#32 ++ (info ++ cause))] } }

/-- R118. At SEG's turn a token of kind DATA, RUN or 0x6 to 0xF in any phase, HDR in LOAD, PIX or END in IDLE is consumed and raises
ILLEGAL_TOKEN, and nothing else happens. -/
def Obligations.SegRejectsIllegalTokens : Prop :=
  ∀ (s : State) (turns : List Agent) (w : TokenWord) (q : List TokenWord),
    s.sched = .unit .seg :: turns → s.host.segIn = w :: q → s.seg.fault = 0 →
    (w.extractLsb' 40 4 = 0#4 ∨ w.extractLsb' 40 4 = 1#4 ∨ 6#4 ≤ w.extractLsb' 40 4) ∨
      (w.extractLsb' 40 4 = 3#4 ∧ s.seg.phase = .load) ∨
      ((w.extractLsb' 40 4 = 2#4 ∨ w.extractLsb' 40 4 = 4#4) ∧ s.seg.phase = .idle) →
    step s =
      .next
        { s with
          sched := turns
          host := { s.host with segIn := q }
          seg := { s.seg with fault := 1, info := 0, outq := s.seg.outq ++ [0x50000000001#44] } }

/-! ### ENC's instructions -/

/-- R133. ENC.DATA: the operand field and the three branches, the count never wrapping: at `MAXCNT` an equal sample raises
COUNT_OVERFLOW and the open run stays as it is. -/
def Obligations.EncDataConsumesSample : Prop :=
  (∀ w : TokenWord, w.extractLsb' 40 4 = 0#4 → decode .enc w = .ok (.encData (w.extractLsb' 0 8))) ∧
  ∀ (v : Sample) (s : State), s.enc.fault = 0 →
    (s.enc.haveRun = false → exec (.encData v) s = .next { s with enc := { s.enc with haveRun := true, cur := v, cnt := 1 } }) ∧
    (s.enc.haveRun = true → v = s.enc.cur → s.enc.cnt.toNat = 4294967295 →
      exec (.encData v) s = .next { s with enc := { s.enc with fault := 2, outq := s.enc.outq ++ [0x50000000002#44] } }) ∧
    (s.enc.haveRun = true → v = s.enc.cur → s.enc.cnt.toNat < 4294967295 →
      ∃ c : Count, c.toNat = s.enc.cnt.toNat + 1 ∧ exec (.encData v) s = .next { s with enc := { s.enc with cnt := c } }) ∧
    (s.enc.haveRun = true → v ≠ s.enc.cur →
      exec (.encData v) s =
        .next
          { s with
            enc := { s.enc with cur := v, cnt := 1, outq := s.enc.outq ++ [0x1#4 ++ (s.enc.cnt ++ s.enc.cur)] } })

/-- R134. ENC.END: the open run, if there is one, then END; ENC idle. -/
def Obligations.EncEndFlushesRun : Prop :=
  (∀ w : TokenWord, w.extractLsb' 40 4 = 4#4 → decode .enc w = .ok .encEnd) ∧
  ∀ s : State, s.enc.fault = 0 →
    (s.enc.haveRun = true →
      exec .encEnd s =
        .next
          { s with
            enc :=
              { s.enc with
                haveRun := false, cur := 0, cnt := 0
                outq := s.enc.outq ++ [0x1#4 ++ (s.enc.cnt ++ s.enc.cur), 0x40000000000#44] } }) ∧
    (s.enc.haveRun = false →
      exec .encEnd s =
        .next { s with enc := { s.enc with haveRun := false, cur := 0, cnt := 0, outq := s.enc.outq ++ [0x40000000000#44] } })

/-- R135. ENC.ERR: the open run, if any, is dropped, the ERR forwarded with bits 7:0 unchanged, ENC idle, no fault. -/
def Obligations.EncErrForwardsAbort : Prop :=
  (∀ w : TokenWord, w.extractLsb' 40 4 = 5#4 → decode .enc w = .ok (.encErr (w.extractLsb' 0 4) (w.extractLsb' 4 4))) ∧
  ∀ (cause info : Code) (s : State), s.enc.fault = 0 →
    exec (.encErr cause info) s =
      .next
        { s with
          enc :=
            { s.enc with haveRun := false, cur := 0, cnt := 0, outq := s.enc.outq ++ [0x5#4 ++ (0#32 ++ (info ++ cause))] } }

/-- R136. At ENC's turn a token of kind RUN, PIX, HDR or 0x6 to 0xF is consumed and raises ILLEGAL_TOKEN; an open run is neither emitted
nor dropped. DATA, END and ERR are accepted in every non-halted state. -/
def Obligations.EncRejectsIllegalTokens : Prop :=
  (∀ (s : State) (turns : List Agent) (w : TokenWord) (q : List TokenWord),
    s.sched = .unit .enc :: turns → s.host.encIn = w :: q → s.enc.fault = 0 →
    (w.extractLsb' 40 4 = 1#4 ∨ w.extractLsb' 40 4 = 2#4 ∨ w.extractLsb' 40 4 = 3#4 ∨ 6#4 ≤ w.extractLsb' 40 4) →
    step s =
      .next
        { s with
          sched := turns
          host := { s.host with encIn := q }
          enc := { s.enc with fault := 1, outq := s.enc.outq ++ [0x50000000001#44] } }) ∧
  ∀ (s : State) (i : Instr), s.enc.fault = 0 → ((∃ v, i = .encData v) ∨ i = .encEnd ∨ ∃ c d, i = .encErr c d) →
    ∃ t, exec i s = .next t ∧ t.enc.fault ≠ 1

/-! ### DEC's instructions -/

/-- R153. DEC.RUN: the operand fields, INVALID_RUN on a zero count, and `count` DATA tokens in this one step otherwise. -/
def Obligations.DecRunExpandsRun : Prop :=
  (∀ w : TokenWord, w.extractLsb' 40 4 = 1#4 → decode .dec w = .ok (.decRun (w.extractLsb' 0 8) (w.extractLsb' 8 32))) ∧
  ∀ (v : Sample) (c : Count) (s : State), s.dec.fault = 0 →
    (c.toNat = 0 →
      exec (.decRun v c) s = .next { s with dec := { s.dec with fault := 3, outq := s.dec.outq ++ [0x50000000003#44] } }) ∧
    (1 ≤ c.toNat →
      exec (.decRun v c) s =
        .next { s with dec := { s.dec with outq := s.dec.outq ++ List.replicate c.toNat (0x0#4 ++ (0#32 ++ v)) } })

/-- R154. DEC.END: END is emitted and nothing else changes. -/
def Obligations.DecEndEmitsEnd : Prop :=
  (∀ w : TokenWord, w.extractLsb' 40 4 = 4#4 → decode .dec w = .ok .decEnd) ∧
  ∀ s : State, s.dec.fault = 0 →
    exec .decEnd s = .next { s with dec := { s.dec with outq := s.dec.outq ++ [0x40000000000#44] } }

/-- R155. DEC.ERR: the ERR is forwarded with bits 7:0 unchanged; no fault, nothing else changes. -/
def Obligations.DecErrForwardsAbort : Prop :=
  (∀ w : TokenWord, w.extractLsb' 40 4 = 5#4 → decode .dec w = .ok (.decErr (w.extractLsb' 0 4) (w.extractLsb' 4 4))) ∧
  ∀ (cause info : Code) (s : State), s.dec.fault = 0 →
    exec (.decErr cause info) s =
      .next { s with dec := { s.dec with outq := s.dec.outq ++ [0x5#4 ++ (0#32 ++ (info ++ cause))] } }

/-- R156. At DEC's turn a token of kind DATA, PIX, HDR or 0x6 to 0xF is consumed and raises ILLEGAL_TOKEN, and nothing else happens. RUN,
END and ERR are accepted in every non-halted state. -/
def Obligations.DecRejectsIllegalTokens : Prop :=
  (∀ (s : State) (turns : List Agent) (w : TokenWord) (q : List TokenWord),
    s.sched = .unit .dec :: turns → s.host.decIn = w :: q → s.dec.fault = 0 →
    (w.extractLsb' 40 4 = 0#4 ∨ w.extractLsb' 40 4 = 2#4 ∨ w.extractLsb' 40 4 = 3#4 ∨ 6#4 ≤ w.extractLsb' 40 4) →
    step s =
      .next
        { s with
          sched := turns
          host := { s.host with decIn := q }
          dec := { s.dec with fault := 1, outq := s.dec.outq ++ [0x50000000001#44] } }) ∧
  ∀ (s : State) (i : Instr), s.dec.fault = 0 → ((∃ v c, i = .decRun v c) ∨ i = .decEnd ∨ ∃ c d, i = .decErr c d) →
    ∃ t, exec i s = .next t ∧ t.dec.fault ≠ 1

/-! ### The register port -/

/-- R170. RD in every state: the request word, the value returned at each index, and nothing
of the machine written; the value joins what the host has read (the model's record, log 7). -/
def Obligations.RdReturnsRegister : Prop :=
  (∀ w : RequestWord, w.getLsbD 36 = false → decodeRequest w = .rd (w.extractLsb' 32 4)) ∧
  ∀ (idx : RegIdx) (s : State), ∃ v : RegWord,
    exec (.rd idx) s = .next { s with host := { s.host with reads := s.host.reads ++ [v] } } ∧
    ((idx.toNat = 0 ∨ idx.toNat = 2 ∨ idx.toNat = 4) → v.toNat = 0) ∧
    (idx.toNat = 1 → v.toNat = 16 * s.enc.fault.toNat + s.enc.haveRun.toNat) ∧
    (idx.toNat = 3 → v.toNat = 16 * s.dec.fault.toNat) ∧
    (idx.toNat = 5 → v.toNat = s.seg.hLo.toNat) ∧
    (idx.toNat = 6 → v.toNat = s.seg.hHi.toNat) ∧
    (idx.toNat = 7 → v.toNat = s.seg.sMin.toNat) ∧
    (idx.toNat = 8 → v.toNat = s.seg.vMin.toNat) ∧
    (idx.toNat = 9 → v.toNat = s.seg.openEn.toNat) ∧
    (idx.toNat = 10 → v.toNat = 256 * s.seg.info.toNat + 16 * s.seg.fault.toNat + (if s.seg.phase = .load then 1 else 0)) ∧
    (11 ≤ idx.toNat → v.toNat = 0)

/-- R171, the soft reset as R221 defines it. WR in every state: the request word, and what a write does at each index; bits a register does
not implement are ignored, writes to read-only and unmapped indices change nothing. -/
def Obligations.WrWritesRegister : Prop :=
  (∀ w : RequestWord, w.getLsbD 36 = true → decodeRequest w = .wr (w.extractLsb' 32 4) (w.extractLsb' 0 32)) ∧
  ∀ (idx : RegIdx) (v : RegWord) (s : State),
    (idx.toNat = 0 → v.getLsbD 0 = true →
      exec (.wr idx v) s = .next { s with enc := { haveRun := false, cur := 0, cnt := 0, fault := 0, outq := [] } }) ∧
    (idx.toNat = 2 → v.getLsbD 0 = true → exec (.wr idx v) s = .next { s with dec := { fault := 0, outq := [] } }) ∧
    (idx.toNat = 4 → v.getLsbD 0 = true →
      exec (.wr idx v) s =
        .next
          { s with
            seg :=
              { s.seg with
                phase := .idle, h := 0, w := 0, n := 0, aHlo := 0, aHhi := 0, aSmin := 0, aVmin := 0, aOpen := false
                fault := 0, info := 0, outq := [] } }) ∧
    ((idx.toNat = 0 ∨ idx.toNat = 2 ∨ idx.toNat = 4) → v.getLsbD 0 = false → exec (.wr idx v) s = .next s) ∧
    (idx.toNat = 5 → exec (.wr idx v) s = .next { s with seg := { s.seg with hLo := v.setWidth 8 } }) ∧
    (idx.toNat = 6 → exec (.wr idx v) s = .next { s with seg := { s.seg with hHi := v.setWidth 8 } }) ∧
    (idx.toNat = 7 → exec (.wr idx v) s = .next { s with seg := { s.seg with sMin := v.setWidth 8 } }) ∧
    (idx.toNat = 8 → exec (.wr idx v) s = .next { s with seg := { s.seg with vMin := v.setWidth 8 } }) ∧
    (idx.toNat = 9 → exec (.wr idx v) s = .next { s with seg := { s.seg with openEn := v.getLsbD 0 } }) ∧
    ((idx.toNat = 1 ∨ idx.toNat = 3 ∨ 10 ≤ idx.toNat) → exec (.wr idx v) s = .next s)

/-- A write to a configuration register is read back, cut to the register's bits (R35 to R39). -/
def Obligations.ConfigurationWriteReadsBack : Prop :=
  ∀ (idx : RegIdx) (v : RegWord) (s : State), 5 ≤ idx.toNat → idx.toNat ≤ 9 →
    ∃ t, exec (.wr idx v) s = .next t ∧
      exec (.rd idx) t =
        .next
          { t with
            host := { s.host with reads := s.host.reads ++ [if idx.toNat = 9 then v &&& 0x00000001#32 else v &&& 0x000000FF#32] } }

/-! ### Encodings -/

/-- R79, R88 at the level of instructions: decoding the encoding of any instruction gives it back, every operand at every value. -/
def Obligations.DecodeEncodeRoundTrip : Prop := ∀ i : Instr, decodeFetched (encode i) = .ok i

/-- R79. Unused bits are ignored on input: a word decodes as the word with its unused bits cleared, and that word is the encoding of the
token it decodes to. -/
def Obligations.UnusedBitsAreIgnored : Prop :=
  ∀ (w : TokenWord) (t : Token), decodeToken w = .ok t →
    ∃ mask : TokenWord,
      (w.extractLsb' 40 4 = 0#4 → mask = 0xF00000000FF#44) ∧
      (w.extractLsb' 40 4 = 1#4 → mask = 0xFFFFFFFFFFF#44) ∧
      (w.extractLsb' 40 4 = 2#4 → mask = 0xF0000FFFFFF#44) ∧
      (w.extractLsb' 40 4 = 3#4 → mask = 0xFFFFFFFFFFF#44) ∧
      (w.extractLsb' 40 4 = 4#4 → mask = 0xF0000000000#44) ∧
      (w.extractLsb' 40 4 = 5#4 → mask = 0xF00000000FF#44) ∧
      decodeToken (w &&& mask) = .ok t ∧ t.word = w &&& mask

/-- R88, R81. A word is an instruction at a port exactly when its kind is in the port's rows; every other word is rejected. -/
def Obligations.PortsAcceptTheirKinds : Prop :=
  ∀ (u : UnitId) (w : TokenWord),
    (∃ i, decode u w = .ok i) ↔
      w.extractLsb' 40 4 ∈
        (match u with
          | .enc => [0#4, 4#4, 5#4]
          | .dec => [1#4, 4#4, 5#4]
          | .seg => [2#4, 3#4, 4#4, 5#4])

/-- Words written out from the formats of 30_encoding.md decode to the instructions they stand for. -/
def Obligations.WrittenWordsDecode : Prop :=
  decode .seg 0x300C800C803#44 = .ok (.segHdr 200 200 3) ∧
  decode .seg 0x20000C0C8C0#44 = .ok (.segPix 192 200 192) ∧
  decode .enc 0x0ABCDEF1207#44 = .ok (.encData 7) ∧
  decode .dec 0x10001D4C000#44 = .ok (.decRun 0 120000) ∧
  decode .dec 0x4FFFFFFFFFF#44 = .ok .decEnd ∧
  decode .enc 0x5ABCDE00F34#44 = .ok (.encErr 4 3) ∧
  decodeRequest 0x0A00000000#37 = .rd 10 ∧
  decodeRequest 0x1500000023#37 = .wr 5 35

/-! ### Steps -/

/-- R66, R174. At a unit's turn, with a word that decodes at the head of its input and no fault, a step is `exec` of that instruction in
the state with the turn and the token used up. A step with no turn given is the step whose turn is the free value's (log 1). -/
def Obligations.StepRunsDecodedToken : Prop :=
  (∀ (s : State) (u : UnitId) (turns : List Agent) (w : TokenWord) (q : List TokenWord) (i : Instr),
    s.sched = .unit u :: turns → s.inq u = w :: q → s.fault u = 0 → decode u w = .ok i →
    step s = exec i ({ s with sched := turns }.setInq u q)) ∧
  ∀ s : State, s.sched = [] → step s = step { s with sched := [Config.freeTurn s.tick], tick := s.tick + 1 }

/-- R82, R170, R171, R228. At the host's turn, with a register request at the head of its program, a step is `exec` of the request's
instruction in the state with the turn and the request used up; where the request is a soft reset, the host has also discarded what it took
from that unit since the last END or ERR, so that the sequences it keeps of what it takes later begin anew (its record of what it took is the
model's, log 7). -/
def Obligations.StepRunsRegisterRequest : Prop :=
  (∀ (s : State) (turns : List Agent) (w : RequestWord) (ops : List HostOp),
    s.sched = .host :: turns → s.host.prog = .request w :: ops →
    (∀ (u : UnitId) (v : RegWord),
      decodeRequest w = .wr (match u with | .enc => 0#4 | .dec => 2#4 | .seg => 4#4) v → v.getLsbD 0 = false) →
    step s = exec (decodeRequest w) { s with sched := turns, host := { s.host with prog := ops } }) ∧
  ∀ (s : State) (turns : List Agent) (w : RequestWord) (ops : List HostOp) (u : UnitId) (v : RegWord),
    s.sched = .host :: turns → s.host.prog = .request w :: ops →
    decodeRequest w = .wr (match u with | .enc => 0#4 | .dec => 2#4 | .seg => 4#4) v → v.getLsbD 0 = true →
    ∃ q cut : List TokenWord,
      step s = exec (decodeRequest w) ({ s with sched := turns, host := { s.host with prog := ops } }.setTaken u q) ∧
      s.taken u = q ++ cut ∧ (∀ x ∈ cut, isTerminator x = false) ∧ (∀ x, q.getLast? = some x → isTerminator x = true) ∧
      ∀ later, keptSequences [] (q ++ later) = keptSequences [] (s.taken u) ++ keptSequences [] later

/-- R174, R175, R177. OFFER joins the tail of the input queue and TAKE removes the head of the output queue, halted or not; on an empty
queue TAKE waits; a withdrawn token leaves the input queue; no unit's other state changes. The model's own here: the turn at an empty queue
passes (log 2), the words taken are recorded (log 7), the withdrawn token is named by its position (log 15). -/
def Obligations.OfferTakeWithdraw : Prop :=
  (∀ (s : State) (turns : List Agent) (u : UnitId) (w : TokenWord) (ops : List HostOp),
    s.sched = .host :: turns → s.host.prog = .offer u w :: ops →
    step s = .next ({ s with sched := turns, host := { s.host with prog := ops } }.setInq u (s.inq u ++ [w]))) ∧
  (∀ (s : State) (turns : List Agent) (u : UnitId) (w : TokenWord) (q : List TokenWord) (ops : List HostOp),
    s.sched = .host :: turns → s.host.prog = .take u :: ops → s.outq u = w :: q →
    step s =
      .next (({ s with sched := turns, host := { s.host with prog := ops } }.setOutq u q).setTaken u (s.taken u ++ [w]))) ∧
  (∀ (s : State) (turns : List Agent) (u : UnitId) (ops : List HostOp),
    s.sched = .host :: turns → s.host.prog = .take u :: ops → s.outq u = [] → step s = .next { s with sched := turns }) ∧
  ∀ (s : State) (turns : List Agent) (u : UnitId) (ops : List HostOp) (q1 q2 : List TokenWord) (w : TokenWord),
    s.sched = .host :: turns → s.host.prog = .withdraw u q1.length :: ops → s.inq u = q1 ++ w :: q2 →
    step s = .next ({ s with sched := turns, host := { s.host with prog := ops } }.setInq u (q1 ++ q2))

/-- DRAIN takes exactly the next sequence, up to and including its terminator, and is then done (R85). -/
def Obligations.DrainTakesOneSequence : Prop :=
  ∀ (s : State) (u : UnitId) (q1 q2 : List TokenWord) (w : TokenWord) (ops : List HostOp) (turns : List Agent),
    (∀ x ∈ q1, isTerminator x = false) → isTerminator w = true → s.outq u = q1 ++ w :: q2 → s.host.prog = .drain u :: ops →
    s.sched = List.replicate (q1.length + 1) .host ++ turns →
    steps (q1.length + 1) s =
      .next
        (({ s with sched := turns, host := { s.host with prog := ops } }.setOutq u q2).setTaken u (s.taken u ++ (q1 ++ [w])))

/-! ### Faults and reset -/

/-- R195. Whenever a unit's turn records a fault, the step did exactly the fault action: the token consumed, the cause (and SEG's info)
recorded, one ERR token with them emitted, nothing else. -/
def Obligations.FaultActionIsWholeEffect : Prop :=
  (∀ (s t : State), s.consume .enc = .next t → s.enc.fault = 0 → t.enc.fault ≠ 0 →
    ∃ w q, s.host.encIn = w :: q ∧
      t =
        { s with
          host := { s.host with encIn := q }
          enc := { s.enc with fault := t.enc.fault, outq := s.enc.outq ++ [0x5#4 ++ (0#32 ++ (0#4 ++ t.enc.fault))] } }) ∧
  (∀ (s t : State), s.consume .dec = .next t → s.dec.fault = 0 → t.dec.fault ≠ 0 →
    ∃ w q, s.host.decIn = w :: q ∧
      t =
        { s with
          host := { s.host with decIn := q }
          dec := { s.dec with fault := t.dec.fault, outq := s.dec.outq ++ [0x5#4 ++ (0#32 ++ (0#4 ++ t.dec.fault))] } }) ∧
  ∀ (s t : State), s.consume .seg = .next t → s.seg.fault = 0 → t.seg.fault ≠ 0 →
    ∃ w q, s.host.segIn = w :: q ∧
      t =
        { s with
          host := { s.host with segIn := q }
          seg :=
            { s.seg with
              fault := t.seg.fault, info := t.seg.info
              outq := s.seg.outq ++ [0x5#4 ++ (0#32 ++ (t.seg.info ++ t.seg.fault))] } }

/-- R197. A halted unit has no consume step: at its turn nothing changes but whose turn it is, its offered tokens waiting; and handed to
`exec` directly, its instructions stop with `unitHalted` (log 6). -/
def Obligations.HaltedUnitConsumesNothing : Prop :=
  (∀ (s : State) (u : UnitId) (turns : List Agent),
    s.sched = .unit u :: turns → s.fault u ≠ 0 → step s = .next { s with sched := turns }) ∧
  ∀ (u : UnitId) (w : TokenWord) (i : Instr) (s : State),
    s.fault u ≠ 0 → decode u w = .ok i → exec i s = .fault (.unitHalted u)

/-- R202, R203. A recorded fault stays as it is, and the halted unit emits nothing more, in every step but a RESET or a write of 1 to bit
0 of the unit's CTRL register by the host; those clear it and empty the output queue. -/
def Obligations.OnlyResetLeavesHaltedState : Prop :=
  ∀ (s t : State) (u : UnitId), s.fault u ≠ 0 → step s = .next t →
    (t.fault u = s.fault u ∧ t.outq u <:+ s.outq u) ∨
      (s.nextTurn.1 = .host ∧ t.fault u = 0 ∧ t.outq u = [] ∧
        ∃ op ops, s.host.prog = op :: ops ∧
          (op = .reset ∨
            ∃ w v, op = .request w ∧ v.getLsbD 0 = true ∧
              decodeRequest w = .wr (match u with | .enc => 0#4 | .dec => 2#4 | .seg => 4#4) v))

/-- R200. An interrupt line is 1 exactly when the unit's fault register is not 0; it rises only in a consume step of the unit, with an ERR
emitted, and falls only in a step of the host that empties the unit's output queue. -/
def Obligations.InterruptLinesFollowFaults : Prop :=
  (∀ (s : State) (u : UnitId), s.irq u = true ↔ s.fault u ≠ 0) ∧
  ∀ (s t : State) (u : UnitId), step s = .next t →
    (s.irq u = false → t.irq u = true →
      s.nextTurn.1 = .unit u ∧ ∃ info : Code, t.outq u = s.outq u ++ [0x5#4 ++ (0#32 ++ (info ++ t.fault u))]) ∧
    (s.irq u = true → t.irq u = false → s.nextTurn.1 = .host ∧ t.outq u = [])

/-- R220. RESET from any state puts every unit in its reset state, with the threshold registers at 30, 90, 40, 40 and the opening
enabled, as they are in the machine's reset state; the host's queues are not touched; every STATUS register then reads 0, every interrupt
line is 0, and a unit with no token offered does nothing. The host discards what it took on each port since the last END or ERR (R228; its
record is the model's, log 7). That the frame store's content is forgotten is the model's choice (log 4). -/
def Obligations.HardResetFromAnyState : Prop :=
  ∀ (s : State) (turns : List Agent) (ops : List HostOp),
    s.sched = .host :: turns → s.host.prog = .reset :: ops →
    ∃ t, step s = .next t ∧
      t.enc = { haveRun := false, cur := 0, cnt := 0, fault := 0, outq := [] } ∧
      t.dec = { fault := 0, outq := [] } ∧
      t.seg =
        { phase := .idle, h := 0, w := 0, n := 0, aHlo := 0, aHhi := 0, aSmin := 0, aVmin := 0, aOpen := false, fault := 0, info := 0,
          outq := [], hLo := 30, hHi := 90, sMin := 40, vMin := 40, openEn := true, fs := t.seg.fs, fsEpoch := t.seg.fsEpoch } ∧
      t.host =
        { s.host with prog := ops, encTaken := t.host.encTaken, decTaken := t.host.decTaken, segTaken := t.host.segTaken } ∧
      t.sched = turns ∧
      State.reset.enc = t.enc ∧ State.reset.dec = t.dec ∧ State.reset.seg = { t.seg with fs := [], fsEpoch := 0 } ∧
      (∀ idx : RegIdx, idx.toNat = 1 ∨ idx.toNat = 3 ∨ idx.toNat = 10 → t.regValue idx = 0) ∧
      ∀ u : UnitId, t.irq u = false ∧ (t.inq u = [] → t.consume u = .next t) ∧
        (∃ cut, s.taken u = t.taken u ++ cut ∧ ∀ x ∈ cut, isTerminator x = false) ∧
        (∀ x, (t.taken u).getLast? = some x → isTerminator x = true) ∧
        ∀ later, keptSequences [] (t.taken u ++ later) = keptSequences [] (s.taken u) ++ keptSequences [] later

/-- R223. A consume step followed by the soft reset of the same unit leaves the same state as the soft reset with the token taken away,
but for frame-store bytes: nothing of the consumed token survives. -/
def Obligations.ConsumeThenResetLeavesNoTrace : Prop :=
  ∀ (s t : State) (u : UnitId), s.consume u = .next t →
    ∃ a b,
      exec (.wr (match u with | .enc => 0#4 | .dec => 2#4 | .seg => 4#4) 1) t = .next a ∧
      exec (.wr (match u with | .enc => 0#4 | .dec => 2#4 | .seg => 4#4) 1) (s.setInq u (t.inq u)) = .next b ∧
      a = { b with seg := { b.seg with fs := a.seg.fs } }

/-- R47. After an END or ERR it accepts, a unit is register for register a reset unit but for its configuration registers, its output
queue and the frame store. -/
def Obligations.TerminatorLeavesUnitAsReset : Prop :=
  (∀ (s t : State) (i : Instr), s.Inv → s.enc.fault = 0 → (i = .encEnd ∨ ∃ c d, i = .encErr c d) → exec i s = .next t →
    t.enc = { State.reset.enc with outq := t.enc.outq }) ∧
  (∀ (s t : State) (i : Instr), s.Inv → s.dec.fault = 0 → (i = .decEnd ∨ ∃ c d, i = .decErr c d) → exec i s = .next t →
    t.dec = { State.reset.dec with outq := t.dec.outq }) ∧
  ∀ (s t : State) (i : Instr), s.Inv → s.seg.fault = 0 → (i = .segEnd ∨ ∃ c d, i = .segErr c d) → exec i s = .next t → t.seg.fault = 0 →
    t.seg =
      { State.reset.seg with
        outq := t.seg.outq, hLo := s.seg.hLo, hHi := s.seg.hHi, sMin := s.seg.sMin, vMin := s.seg.vMin, openEn := s.seg.openEn
        fs := s.seg.fs, fsEpoch := s.seg.fsEpoch }

/-! ### Invariants and whole-machine rules -/

/-- Every step keeps the invariant: R24 of ENC, a legal fault code in each fault register and SEG's info with it, the open frame within
its limits, the frame store in canonical form inside its addresses and written as far as the frame is loaded, only words a unit emits in
its output queue. -/
def Obligations.StepKeepsInvariant : Prop := ∀ s t : State, s.Inv → step s = .next t → t.Inv

/-- The reset state meets the invariant. -/
def Obligations.ResetMeetsInvariant : Prop := State.reset.Inv

/-- From every state that meets the invariant a step goes on: no token, request or host operation stops the machine. -/
def Obligations.InvariantStepsGoOn : Prop := ∀ s : State, s.Inv → ∃ t, step s = .next t

/-- R20, R68. A unit's turn changes no other unit, no other unit's offered tokens, and nothing else of the host. -/
def Obligations.UnitsShareNoState : Prop :=
  ∀ s t : State, step s = .next t →
    (s.nextTurn.1 = .unit .enc → t.dec = s.dec ∧ t.seg = s.seg ∧ t.host = { s.host with encIn := t.host.encIn }) ∧
    (s.nextTurn.1 = .unit .dec → t.enc = s.enc ∧ t.seg = s.seg ∧ t.host = { s.host with decIn := t.host.decIn }) ∧
    (s.nextTurn.1 = .unit .seg → t.enc = s.enc ∧ t.dec = s.dec ∧ t.host = { s.host with segIn := t.host.segIn })

/-- R61, R68. Turns of two different units commute: both interleavings lead to the same state. -/
def Obligations.UnitTurnsCommute : Prop :=
  ∀ (s a b : State) (u v : UnitId), u ≠ v → s.consume u = .next a → a.consume v = .next b →
    ∃ a', s.consume v = .next a' ∧ a'.consume u = .next b

/-- R62. What the host has taken from an output port followed by what still waits there only ever grows at the tail, in every step but a
reset of that unit: tokens are taken in the order emitted, none lost, none duplicated. -/
def Obligations.OutputPortIsFifo : Prop :=
  ∀ (s t : State) (u : UnitId), step s = .next t →
    (s.nextTurn.1 = .host →
      s.host.prog.head? ≠ some .reset ∧
      ∀ w v, s.host.prog.head? = some (.request w) →
        decodeRequest w = .wr (match u with | .enc => 0#4 | .dec => 2#4 | .seg => 4#4) v → v.getLsbD 0 = false) →
    s.taken u ++ s.outq u <+: t.taken u ++ t.outq u

/-- The frame of every instruction but SEG.PIX and the frame of SEG's: no instruction but SEG.PIX changes a frame-store byte, none but WR a
configuration register, and a token instruction leaves the other units, the host and the interleaving as they are. -/
def Obligations.InstructionFrames : Prop :=
  ∀ (i : Instr) (s t : State), exec i s = .next t →
    t.sched = s.sched ∧ t.tick = s.tick ∧
    ((∀ idx, i ≠ .rd idx) → t.host = s.host) ∧
    ((∀ c0 c1 c2, i ≠ .segPix c0 c1 c2) → ∀ a, t.seg.byte a = s.seg.byte a) ∧
    ((∀ idx v, i ≠ .wr idx v) →
      t.seg.hLo = s.seg.hLo ∧ t.seg.hHi = s.seg.hHi ∧ t.seg.sMin = s.seg.sMin ∧ t.seg.vMin = s.seg.vMin ∧ t.seg.openEn = s.seg.openEn) ∧
    (∀ v c d, (i = .encData v ∨ i = .encEnd ∨ i = .encErr c d) → t.dec = s.dec ∧ t.seg = s.seg) ∧
    (∀ v n c d, (i = .decRun v n ∨ i = .decEnd ∨ i = .decErr c d) → t.enc = s.enc ∧ t.seg = s.seg) ∧
    ∀ h w n c0 c1 c2 c d, (i = .segHdr h w n ∨ i = .segPix c0 c1 c2 ∨ i = .segEnd ∨ i = .segErr c d) →
      t.enc = s.enc ∧ t.dec = s.dec

/-- R121. A write to a configuration register while a frame is open, wherever it falls, does not change what the frame's END emits: the
write leaves the frame loaded so far and the latches as they are, it commutes with every PIX, END and ERR that follows, and with a
complete frame END emits the same tokens with and without it. -/
def Obligations.OpenFrameKeepsItsThresholds : Prop :=
  (∀ (idx : RegIdx) (v : RegWord) (s : State), 5 ≤ idx.toNat → idx.toNat ≤ 9 → s.seg.phase = .load →
    ∃ t, exec (.wr idx v) s = .next t ∧
      t = { s with
            seg :=
              { s.seg with
                hLo := t.seg.hLo, hHi := t.seg.hHi, sMin := t.seg.sMin, vMin := t.seg.vMin, openEn := t.seg.openEn } } ∧
      ∀ (i : Instr) (a : State), ((∃ c0 c1 c2, i = .segPix c0 c1 c2) ∨ i = .segEnd ∨ ∃ c d, i = .segErr c d) → exec i s = .next a →
        ∃ b, exec i t = .next b ∧ exec (.wr idx v) a = .next b ∧ b.seg.outq = a.seg.outq) ∧
  ∀ (idx : RegIdx) (v : RegWord) (s : State), 5 ≤ idx.toNat → idx.toNat ≤ 9 → s.seg.fault = 0 → s.seg.phase = .load →
    s.seg.n.toNat = s.seg.h.toNat * s.seg.w.toNat → s.seg.h.toNat * s.seg.w.toNat ≤ 40000 →
    ∃ a b t, exec .segEnd s = .next a ∧ exec (.wr idx v) s = .next t ∧ exec .segEnd t = .next b ∧ b.seg.outq = a.seg.outq

/-- R236. What SEG.END emits does not depend on stale bytes: two states that differ only in frame-store bytes at and above
`3 x seg.h x seg.w` emit the same tokens. -/
def Obligations.StaleBytesNeverLeak : Prop :=
  ∀ (s : State) (fs : Memory) (epoch : Nat) (a b : State),
    (∀ x < 3 * (s.seg.h.toNat * s.seg.w.toNat), { s.seg with fs := fs, fsEpoch := epoch }.byte x = s.seg.byte x) →
    exec .segEnd s = .next a → exec .segEnd { s with seg := { s.seg with fs := fs, fsEpoch := epoch } } = .next b →
    b.seg.outq = a.seg.outq

/-- An access outside the frame store, which no state that meets the invariant makes, stops with `frameStoreRange` (log 5). -/
def Obligations.OutsideFrameStoreStops : Prop :=
  (∀ (c0 c1 c2 : Sample) (s : State), s.seg.fault = 0 → s.seg.phase = .load → s.seg.n.toNat ≠ s.seg.h.toNat * s.seg.w.toNat →
    40000 ≤ s.seg.n.toNat → exec (.segPix c0 c1 c2) s = .fault .frameStoreRange) ∧
  ∀ s : State, s.seg.fault = 0 → s.seg.phase = .load → s.seg.n.toNat = s.seg.h.toNat * s.seg.w.toNat →
    40000 < s.seg.h.toNat * s.seg.w.toNat → exec .segEnd s = .fault .frameStoreRange

/-! ### What SEG computes -/

/-- R104. The threshold: four inclusive comparisons of unsigned numbers; under the reset configuration, 30 to 90, at least 40, at
least 40. -/
def Obligations.ThresholdIsInclusiveBand : Prop :=
  (∀ (cfg : SegCfg) (x : Hsv),
    cfg.accepts x = true ↔
      cfg.hlo.toNat ≤ x.hue.toNat ∧ x.hue.toNat ≤ cfg.hhi.toNat ∧ cfg.smin.toNat ≤ x.sat.toNat ∧ cfg.vmin.toNat ≤ x.val.toNat) ∧
  (∀ x : Hsv,
    State.reset.seg.config.accepts x = true ↔ 30 ≤ x.hue.toNat ∧ x.hue.toNat ≤ 90 ∧ 40 ≤ x.sat.toNat ∧ 40 ≤ x.val.toNat) ∧
  ∀ (conv : Pixel → Hsv) (cfg : SegCfg) (p : List Pixel) (i : Nat) (x : Pixel), p[i]? = some x →
    (thresholdMask conv cfg p)[i]? = some (cfg.accepts (conv x))

/-- R103. `HSV_REF` with the rule's own numbers written out: the value is the largest channel V; with d = V - min, the saturation is 0 for
V = 0 and else the S with 2V·S <= 510d + V < 2V·(S + 1); the hue is 0 for d = 0 and else comes from the n of the largest channel, ties
going to red, then green, through the q with 2d·q <= 60n + d < 2d·(q + 1), plus 180 where q is negative; the hue is at most 179, and hue
and saturation are exact in 8 bits. With a floor of at least 1 a foreground pixel is never black (R113 (e)). -/
def Obligations.HsvRefStaysInItsScales : Prop :=
  (∀ (p : Pixel) (b g r v m d : Int),
    b = p.c0.toNat → g = p.c1.toNat → r = p.c2.toNat → v = max r (max g b) → m = min r (min g b) → d = v - m →
    ((hsvRef p).val.toNat : Int) = v ∧
    (v = 0 → (hsvRef p).sat = 0) ∧
    (v ≠ 0 → 2 * v * (hsvRef p).sat.toNat ≤ 510 * d + v ∧ 510 * d + v < 2 * v * ((hsvRef p).sat.toNat + 1)) ∧
    (d = 0 → (hsvRef p).hue = 0 ∧ (hsvRef p).sat = 0) ∧
    (d ≠ 0 →
      ∃ n q : Int,
        (r = v → n = g - b) ∧ (r ≠ v → g = v → n = (b - r) + 2 * d) ∧ (r ≠ v → g ≠ v → n = (r - g) + 4 * d) ∧
        2 * d * q ≤ 60 * n + d ∧ 60 * n + d < 2 * d * (q + 1) ∧
        (q < 0 → ((hsvRef p).hue.toNat : Int) = q + 180) ∧ (0 ≤ q → ((hsvRef p).hue.toNat : Int) = q))) ∧
  ∀ p : Pixel,
    (hsvRef p).hue.toNat ≤ 179 ∧
    ((hsvRef p).hue.toNat : Int) = hueRef p.c0.toNat p.c1.toNat p.c2.toNat ∧
    (hsvRef p).sat.toNat = satRef p.c0.toNat p.c1.toNat p.c2.toNat ∧
    (hsvRef p).val.toNat = max p.c2.toNat (max p.c1.toNat p.c0.toNat) ∧
    (p.c0 = p.c1 → p.c1 = p.c2 → (hsvRef p).hue = 0 ∧ (hsvRef p).sat = 0) ∧
    ∀ cfg : SegCfg, 1 ≤ cfg.vmin.toNat → cfg.accepts (hsvRef p) = true → p ≠ Pixel.black

/-- R105, R106. Erosion and dilation, position by position: all, respectively some, of the in-frame positions at most one row and one
column away are set. -/
def Obligations.ErosionAndDilationByNeighbours : Prop :=
  ∀ (h w r c : Nat) (m : List Bool), r < h → c < w →
    (maskAt (erode h w m) (r * w + c) = true ↔
      ∀ r' c', r' < h → c' < w → r' ≤ r + 1 → r ≤ r' + 1 → c' ≤ c + 1 → c ≤ c' + 1 → maskAt m (r' * w + c') = true) ∧
    (maskAt (dilate h w m) (r * w + c) = true ↔
      ∃ r' c', r' < h ∧ c' < w ∧ r' ≤ r + 1 ∧ r ≤ r' + 1 ∧ c' ≤ c + 1 ∧ c ≤ c' + 1 ∧ maskAt m (r' * w + c') = true)

/-- R113 (c). Opening is idempotent. -/
def Obligations.OpeningIsIdempotent : Prop :=
  ∀ (h w : Nat) (m : List Bool), opening h w (opening h w m) = opening h w m

/-- R113 (b), (d). Opening never adds foreground; an all-foreground frame stays all foreground and an all-background frame all
background, whatever its size. -/
def Obligations.OpeningRemovesOnlyAndKeepsUniformFrames : Prop :=
  (∀ (h w i : Nat) (m : List Bool), maskAt (opening h w m) i = true → maskAt m i = true) ∧
  ∀ (h w : Nat) (b : Bool), opening h w (List.replicate (h * w) b) = List.replicate (h * w) b

/-- R108, R109, R113 (a), (b). For every conversion: the output frame has the input's length; the output pixel at a position is the input
pixel there where the final mask is set and black where it is not, the final mask being the opened threshold mask with the opening enabled
and the threshold mask itself with it disabled; so each output pixel is the input pixel or black, and one that is not black passed the
threshold test. -/
def Obligations.OutputPixelsAreInputOrBlack : Prop :=
  ∀ (conv : Pixel → Hsv) (h w : Nat) (p : List Pixel) (cfg : SegCfg), p.length = h * w →
    (segFrame conv h w p cfg).length = h * w ∧
    (∀ (i : Nat) (x : Pixel), p[i]? = some x →
      (cfg.openEn = true →
        (segFrame conv h w p cfg)[i]? =
          some (if maskAt (opening h w (thresholdMask conv cfg p)) i = true then x else Pixel.black)) ∧
      (cfg.openEn = false →
        (segFrame conv h w p cfg)[i]? = some (if maskAt (thresholdMask conv cfg p) i = true then x else Pixel.black))) ∧
    ∀ (i : Nat) (x y : Pixel), p[i]? = some x → (segFrame conv h w p cfg)[i]? = some y →
      (y = x ∨ y = Pixel.black) ∧ (y ≠ Pixel.black → cfg.accepts (conv x) = true)

/-- R120. Consuming the tokens of a frame takes one step each, raises no fault, emits nothing before the last step, and in it exactly the
tokens of the segmented frame under the configuration at the header; SEG is then idle; nothing else changes but the frame store. -/
def Obligations.SegmenterCorrespondence : Prop :=
  ∀ (h w : Nat) (p : List Pixel) (s : State) (rest : List TokenWord) (turns : List Agent),
    1 ≤ h → h ≤ 200 → 1 ≤ w → w ≤ 200 → p.length = h * w → s.seg.isIdle → s.seg.fault = 0 →
    s.host.segIn = wordsOf (toksFrame h w p) ++ rest → s.sched = List.replicate (h * w + 2) (.unit .seg) ++ turns →
    (∃ t, steps (h * w + 1) s = .next t ∧ t.seg.outq = s.seg.outq) ∧
    ∃ fs,
      steps (h * w + 2) s =
        .next
          { s with
            sched := turns
            host := { s.host with segIn := rest }
            seg :=
              { s.seg with
                fs := fs
                outq := s.seg.outq ++ wordsOf (toksFrame h w (segFrame Config.hsvConv h w p s.seg.config)) } }

/-! ### What ENC and DEC compute -/

/-- R131. The four guarantees of `encode`, and that no other sequence of pairs has them. -/
def Obligations.EncodeGuarantees : Prop :=
  ∀ x : List Sample,
    countSum (rleEncode x) = x.length ∧ rleDecode (rleEncode x) = .ok x ∧ canonicalRuns (rleEncode x) = true ∧
    (∀ r ∈ rleEncode x, 1 ≤ r.2) ∧
    ∀ r : List Run, countSum r = x.length → rleDecode r = .ok x → canonicalRuns r = true → (∀ a ∈ r, 1 ≤ a.2) → r = rleEncode x

/-- R140. Non-expansion: never more runs than samples, at most one word emitted per DATA token consumed, and at most one run beside the
terminator. -/
def Obligations.EncodingNeverExpands : Prop :=
  (∀ x : List Sample, (rleEncode x).length ≤ x.length) ∧
  (∀ (v : Sample) (s t : State), exec (.encData v) s = .next t → t.enc.outq.length ≤ s.enc.outq.length + 1) ∧
  ∀ (s t : State) (i : Instr), (i = .encEnd ∨ ∃ c d, i = .encErr c d) → exec i s = .next t →
    ∃ q, t.enc.outq = s.enc.outq ++ q ∧ (q.filter isTerminator).length = 1 ∧ q.length ≤ 2

/-- R141. For a sequence that is not empty the efficiency ratio is defined, whatever `RATIO_EMPTY` is, and lies in [0, 100). -/
def Obligations.EfficiencyRatioRange : Prop :=
  ∀ (e : Config.RatioEmpty) (x : List Sample), x ≠ [] →
    ∃ q : Rat, ratio e x.length (rleEncode x).length = some q ∧ 0 ≤ q ∧ q < 100

/-- R159. Re-encoding: a canonical sequence with positive counts is reproduced, `encode(decode(encode(x))) = encode(x)`, and a
non-canonical one gives a different, canonical sequence with the same expansion. -/
def Obligations.ReencodingGivesCanonicalForm : Prop :=
  (∀ r : List Run, canonicalRuns r = true → (∀ a ∈ r, 1 ≤ a.2) → ∃ x, rleDecode r = .ok x ∧ rleEncode x = r) ∧
  (∀ x : List Sample, ∃ y, rleDecode (rleEncode x) = .ok y ∧ rleEncode y = rleEncode x) ∧
  ∀ (r : List Run) (x : List Sample), canonicalRuns r = false → rleDecode r = .ok x →
    canonicalRuns (rleEncode x) = true ∧ rleDecode (rleEncode x) = .ok x ∧ rleEncode x ≠ r

/-- R160. `decode` distributes over concatenation when neither part fails. -/
def Obligations.DecodeDistributesOverConcatenation : Prop :=
  ∀ (r q : List Run) (x y : List Sample), rleDecode r = .ok x → rleDecode q = .ok y → rleDecode (r ++ q) = .ok (x ++ y)

/-- R138. Consuming the tokens of a flat sequence with no run longer than `MAXCNT` takes one step each, raises no fault, appends exactly
the tokens of `encode(x)` and leaves ENC idle; nothing else changes. After the first `j` tokens the open run is the last pair of the
encoding of the first `j` samples and the runs before it have been emitted. -/
def Obligations.EncoderCorrespondence : Prop :=
  ∀ (x : List Sample) (s : State) (rest : List TokenWord) (turns : List Agent),
    (∀ r ∈ rleEncode x, r.2 ≤ 4294967295) → s.enc.isIdle → s.enc.fault = 0 → s.host.encIn = wordsOf (toksData x) ++ rest →
    s.sched = List.replicate (x.length + 1) (.unit .enc) ++ turns →
    steps (x.length + 1) s =
      .next
        { s with
          sched := turns
          host := { s.host with encIn := rest }
          enc := { s.enc with outq := s.enc.outq ++ wordsOf (toksRuns (rleEncode x)) } } ∧
    ∀ j, 1 ≤ j → j ≤ x.length →
      ∃ (t : State) (runs : List Run) (last : Run), steps j s = .next t ∧ rleEncode (x.take j) = runs ++ [last] ∧
        t.enc =
          { haveRun := true, cur := last.1, cnt := BitVec.ofNat 32 last.2, fault := 0
            outq := s.enc.outq ++ wordsOf (runs.map runToken) }

/-- R137, R138. The DATA token that would be sample `MAXCNT` + 1 of a run raises COUNT_OVERFLOW: the runs before it have been emitted, then
ERR(2, 0), and the open run stays in ENC. -/
def Obligations.TooLongRunOverflows : Prop :=
  ∀ (x : List Sample) (v : Sample) (s : State) (rest : List TokenWord) (turns : List Agent),
    (∀ r ∈ rleEncode x, r.2 ≤ 4294967295) → x.getLast? ≠ some v → s.enc.isIdle → s.enc.fault = 0 →
    s.host.encIn = wordsOf ((x ++ List.replicate (Config.maxCnt + 1) v).map Token.data) ++ rest →
    s.sched = List.replicate (x.length + (Config.maxCnt + 1)) (.unit .enc) ++ turns →
    steps (x.length + (Config.maxCnt + 1)) s =
      .next
        { s with
          sched := turns
          host := { s.host with encIn := rest }
          enc :=
            { haveRun := true, cur := v, cnt := 0xFFFFFFFF#32, fault := 2
              outq := s.enc.outq ++ (wordsOf ((rleEncode x).map runToken) ++ [0x50000000002#44]) } }

/-- R158. Consuming the tokens of runs with counts 1 to `MAXCNT` takes one step each, raises no fault and appends exactly the tokens of
`decode(r)`; at the first pair with count 0 `decode` is the error, the runs before it have been expanded, ERR(3, 0) follows, and the
tokens after it are not consumed. -/
def Obligations.DecoderCorrespondence : Prop :=
  (∀ (r : List Run) (x : List Sample) (s : State) (rest : List TokenWord) (turns : List Agent),
    (∀ a ∈ r, 1 ≤ a.2 ∧ a.2 ≤ 4294967295) → rleDecode r = .ok x → s.dec.fault = 0 →
    s.host.decIn = wordsOf (toksRuns r) ++ rest → s.sched = List.replicate (r.length + 1) (.unit .dec) ++ turns →
    steps (r.length + 1) s =
      .next
        { s with
          sched := turns
          host := { s.host with decIn := rest }
          dec := { s.dec with outq := s.dec.outq ++ wordsOf (toksData x) } }) ∧
  ∀ (r r' : List Run) (v : Sample) (x : List Sample) (s : State) (rest : List TokenWord) (turns : List Agent),
    (∀ a ∈ r, 1 ≤ a.2 ∧ a.2 ≤ 4294967295) → rleDecode r = .ok x → s.dec.fault = 0 →
    s.host.decIn = wordsOf (toksRuns (r ++ (v, 0) :: r')) ++ rest →
    s.sched = List.replicate (r.length + 1) (.unit .dec) ++ turns →
    rleDecode (r ++ (v, 0) :: r') = .error .invalidRun ∧
    steps (r.length + 1) s =
      .next
        { s with
          sched := turns
          host := { s.host with decIn := wordsOf (toksRuns r') ++ rest }
          dec := { fault := 3, outq := s.dec.outq ++ (wordsOf (x.map Token.data) ++ [0x50000000003#44]) } }

/-- R151. The round trip in hardware: with ENC's output piped to DEC, offering the tokens of `x` to ENC makes the tokens of `x` appear on
DEC's output, no fault is raised and both units end idle, for every `x` with no run longer than `MAXCNT`. -/
def Obligations.RoundTripThroughUnits : Prop :=
  ∀ (x : List Sample) (s : State) (rest : List TokenWord) (ops : List HostOp) (turns : List Agent) (m : Nat),
    (∀ r ∈ rleEncode x, r.2 ≤ 4294967295) → m = (rleEncode x).length → s.enc.isIdle → s.enc.fault = 0 → s.dec.fault = 0 →
    s.enc.outq = [] → s.host.decIn = [] → s.host.encIn = wordsOf (toksData x) ++ rest → s.host.prog = .pipe .enc .dec :: ops →
    s.sched =
      List.replicate (x.length + 1) (.unit .enc) ++
        (List.replicate (2 * (m + 1)) .host ++ (List.replicate (m + 1) (.unit .dec) ++ turns)) →
    ∃ t, steps (x.length + 1 + (2 * (m + 1) + (m + 1))) s = .next t ∧
      t.dec = { s.dec with outq := s.dec.outq ++ wordsOf (toksData x) } ∧ t.enc = s.enc ∧ t.seg = s.seg ∧
      t.host =
        { s.host with
          encIn := rest, prog := ops, encTaken := s.host.encTaken ++ wordsOf (toksRuns (rleEncode x)) } ∧
      t.sched = turns

/-- R179, R212. The pipeline: a frame offered to SEG, its output moved through FLAT to ENC, ENC's output moved to DEC, makes the tokens of
the flattened segmented frame appear on DEC's output; no fault is raised. -/
def Obligations.PipelineEndToEnd : Prop :=
  ∀ (h w : Nat) (p : List Pixel) (s : State) (ops : List HostOp) (turns : List Agent) (x : List Sample) (m : Nat),
    1 ≤ h → h ≤ 200 → 1 ≤ w → w ≤ 200 → p.length = h * w →
    x = flattenPixels (segFrame Config.hsvConv h w p s.seg.config) → m = (rleEncode x).length →
    s.seg.isIdle → s.enc.isIdle → s.noFault = true → s.seg.outq = [] → s.enc.outq = [] → s.host.encIn = [] → s.host.decIn = [] →
    s.host.segIn = wordsOf (toksFrame h w p) → s.host.prog = .pipeFlat :: .pipe .enc .dec :: ops →
    s.sched =
      List.replicate (h * w + 2) (.unit .seg) ++
        (List.replicate (4 * (h * w) + 3) .host ++
          (List.replicate (3 * (h * w) + 1) (.unit .enc) ++
            (List.replicate (2 * (m + 1)) .host ++ (List.replicate (m + 1) (.unit .dec) ++ turns)))) →
    ∃ t,
      steps (h * w + 2 + (4 * (h * w) + 3 + (3 * (h * w) + 1 + (2 * (m + 1) + (m + 1))))) s = .next t ∧
      t.dec.outq = s.dec.outq ++ wordsOf (toksData x) ∧ t.noFault = true ∧ t.seg.isIdle ∧ t.enc.isIdle ∧ t.host.prog = ops ∧
      t.sched = turns

/-! ### The host's reshaping -/

/-- R51, R52. `flatten` puts sample `img[r][c][k]` at index `(r x w + c) x ch + k`; `unflatten` is its inverse both ways and refuses any
other length. -/
def Obligations.FlattenOrderAndInverse : Prop :=
  (∀ (img : Image) (h w ch : Nat), img.shaped h w ch = true →
    (flatten img).length = h * w * ch ∧
    (∀ r c k, r < h → c < w → k < ch → (flatten img)[(r * w + c) * ch + k]? = some (img.at r c k)) ∧
    unflatten (flatten img) h w ch = some img) ∧
  (∀ (x : List Sample) (h w ch : Nat), x.length = h * w * ch → ∃ img, unflatten x h w ch = some img ∧ flatten img = x) ∧
  ∀ (x : List Sample) (h w ch : Nat), x.length ≠ h * w * ch → unflatten x h w ch = none

/-- R178. FLAT turns a frame's tokens into those of its flattened pixels, UNFLAT turns them back, and UNFLAT refuses a flat sequence whose
length is not `3 x h x w`. -/
def Obligations.FlatAndUnflatAreInverse : Prop :=
  (∀ (h w : Nat) (p : List Pixel),
    flat (wordsOf (toksFrame h w p)) = wordsOf (toksData (flattenPixels p)) ∧
    (p.length = h * w → unflat h w (flat (wordsOf (toksFrame h w p))) = .ok (wordsOf (toksFrame h w p)))) ∧
  ∀ (h w : Nat) (x : List Sample), x.length ≠ 3 * h * w → unflat h w (wordsOf (toksData x)) = .error .length
end

