-- ==== Sys2Proof/Laws/Adapter.lean ====
section
/-! SUPPORT. What a receiver keeps (R86, R198), and what it keeps after a reset has cut a sequence short (R228). -/

namespace Sys2Proof

theorem closedPart_nil : closedPart [] = [] := rfl

theorem closedPart_cons (w : TokenWord) (ws : List TokenWord) :
    closedPart (w :: ws) = if closedPart ws = [] then (if isTerminator w then [w] else []) else w :: closedPart ws := by
  rw [closedPart]
  cases closedPart ws <;> simp

/-- What follows the closed part is the payload since the last END or ERR. -/
theorem closedPart_append (l : List TokenWord) : ∃ cut, l = closedPart l ++ cut ∧ ∀ x ∈ cut, isTerminator x = false := by
  induction l with
  | nil => exact ⟨[], rfl, by simp⟩
  | cons w ws ih =>
    obtain ⟨cut, h, hcut⟩ := ih
    rw [closedPart_cons]
    split
    · rename_i hc
      rw [hc, List.nil_append] at h
      subst h
      split
      · exact ⟨ws, rfl, hcut⟩
      · rename_i hw
        exact ⟨w :: ws, rfl, by simpa [hw] using hcut⟩
    · exact ⟨cut, congrArg (w :: ·) h, hcut⟩

/-- The closed part is empty or ends in END or ERR. -/
theorem closedPart_last (l : List TokenWord) : ∀ x, (closedPart l).getLast? = some x → isTerminator x = true := by
  induction l with
  | nil => simp [closedPart_nil]
  | cons w ws ih =>
    rw [closedPart_cons]
    split
    · split <;> simp_all
    · rename_i hc
      rw [List.getLast?_cons_of_ne_nil hc]
      exact ih

/-- Words that are no terminator join the payload begun. -/
theorem keptSequences_payload {q : List TokenWord} (hq : ∀ x ∈ q, isTerminator x = false) (begun later : List TokenWord) :
    keptSequences begun (q ++ later) = keptSequences (begun ++ q) later := by
  induction q generalizing begun with
  | nil => simp
  | cons w ws ih =>
    have hw := hq w List.mem_cons_self
    simp only [isTerminator, Bool.or_eq_false_iff, beq_eq_false_iff_ne] at hw
    simp [keptSequences, hw, ih (fun x hx => hq x (List.mem_cons_of_mem _ hx))]

/-- After an END or ERR a new sequence begins. -/
theorem keptSequences_append {q : List TokenWord} (hq : ∀ x, q.getLast? = some x → isTerminator x = true) {begun : List TokenWord}
    (hb : q = [] → begun = []) (later : List TokenWord) :
    keptSequences begun (q ++ later) = keptSequences begun q ++ keptSequences [] later := by
  induction q generalizing begun with
  | nil => simp [hb rfl, keptSequences]
  | cons w ws ih =>
    by_cases hws : ws = []
    · subst hws
      have hw := hq w rfl
      simp only [isTerminator, Bool.or_eq_true, beq_iff_eq] at hw
      rcases hw with hw | hw <;> simp [keptSequences, hw]
    · have ih := @ih (by rwa [List.getLast?_cons_of_ne_nil hws] at hq)
      simp only [List.cons_append, keptSequences, ih (absurd · hws)]
      split
      · rfl
      · split <;> rfl

/-- What is kept of the words taken before a reset and after it: the two sequences never join (R228). -/
theorem keptSequences_closedPart (l later : List TokenWord) :
    keptSequences [] (closedPart l ++ later) = keptSequences [] l ++ keptSequences [] later := by
  obtain ⟨cut, h, hcut⟩ := closedPart_append l
  have hl : keptSequences [] l = keptSequences [] (closedPart l) := by
    have h2 := keptSequences_append (closedPart_last l) (fun _ => rfl) cut
    rw [← h] at h2
    have h3 := keptSequences_payload hcut [] []
    rw [List.append_nil] at h3
    rw [h2, h3, keptSequences, List.append_nil]
  rw [hl]
  exact keptSequences_append (closedPart_last l) (fun _ => rfl) later

end Sys2Proof
end

