-- ==== Sys2Proof/Laws/Encoding.lean ====
section
/-! SUPPORT. Fields of concatenated words: what each operand field of 30_encoding.md reads from each token's word. -/

namespace Sys2Proof

/-- A field inside the less significant part of a concatenation. -/
theorem field_append_low {n m : Nat} (a : BitVec n) (b : BitVec m) (s k : Nat) (h : s + k ≤ m) :
    (a ++ b).extractLsb' s k = b.extractLsb' s k := by
  apply BitVec.eq_of_getLsbD_eq
  intro i hi
  have h2 : s + i < m := by omega
  simp [BitVec.getLsbD_extractLsb', BitVec.getLsbD_append, h2]

/-- A field inside the more significant part of a concatenation. -/
theorem field_append_high {n m : Nat} (a : BitVec n) (b : BitVec m) (s k : Nat) :
    (a ++ b).extractLsb' (m + s) k = a.extractLsb' s k := by
  apply BitVec.eq_of_getLsbD_eq
  intro i hi
  have h2 : ¬ m + s + i < m := by omega
  have h3 : m + s + i - m = s + i := by omega
  simp [BitVec.getLsbD_extractLsb', BitVec.getLsbD_append, h2, h3]

/-- The whole of a word as a field. -/
theorem field_whole {n : Nat} (a : BitVec n) : a.extractLsb' 0 n = a := by
  apply BitVec.eq_of_getLsbD_eq
  intro i hi
  simp [hi]

/-- The kind field of a token's word is the token's kind (R70, R71). -/
@[simp] theorem kindOf_word (t : Token) : kindOf t.word = t.kind := by
  cases t with
  | data v => exact (field_append_high 0x0#4 (0#32 ++ v) 0 4).trans (field_whole _)
  | run v c => exact (field_append_high 0x1#4 (c ++ v) 0 4).trans (field_whole _)
  | pix p => exact (field_append_high 0x2#4 (0#16 ++ (p.c2 ++ (p.c1 ++ p.c0))) 0 4).trans (field_whole _)
  | hdr h w c => exact (field_append_high 0x3#4 (h ++ (w ++ c)) 0 4).trans (field_whole _)
  | fin => rfl
  | err cause info => exact (field_append_high 0x5#4 (0#32 ++ (info ++ cause)) 0 4).trans (field_whole _)

@[simp] theorem low8_data (v : Sample) : low8 (Token.data v).word = v :=
  (field_append_low 0x0#4 (0#32 ++ v) 0 8 (by omega)).trans ((field_append_low 0#32 v 0 8 (by omega)).trans (field_whole v))

@[simp] theorem low8_run (v : Sample) (c : Count) : low8 (Token.run v c).word = v :=
  (field_append_low 0x1#4 (c ++ v) 0 8 (by omega)).trans ((field_append_low c v 0 8 (by omega)).trans (field_whole v))

@[simp] theorem countField_run (v : Sample) (c : Count) : countField (Token.run v c).word = c :=
  (field_append_low 0x1#4 (c ++ v) 8 32 (by omega)).trans ((field_append_high c v 0 32).trans (field_whole c))

@[simp] theorem low8_pix (p : Pixel) : low8 (Token.pix p).word = p.c0 :=
  (field_append_low 0x2#4 (0#16 ++ (p.c2 ++ (p.c1 ++ p.c0))) 0 8 (by omega)).trans
    ((field_append_low 0#16 (p.c2 ++ (p.c1 ++ p.c0)) 0 8 (by omega)).trans
      ((field_append_low p.c2 (p.c1 ++ p.c0) 0 8 (by omega)).trans
        ((field_append_low p.c1 p.c0 0 8 (by omega)).trans (field_whole _))))

@[simp] theorem c1Field_pix (p : Pixel) : c1Field (Token.pix p).word = p.c1 :=
  (field_append_low 0x2#4 (0#16 ++ (p.c2 ++ (p.c1 ++ p.c0))) 8 8 (by omega)).trans
    ((field_append_low 0#16 (p.c2 ++ (p.c1 ++ p.c0)) 8 8 (by omega)).trans
      ((field_append_low p.c2 (p.c1 ++ p.c0) 8 8 (by omega)).trans
        ((field_append_high p.c1 p.c0 0 8).trans (field_whole _))))

@[simp] theorem c2Field_pix (p : Pixel) : c2Field (Token.pix p).word = p.c2 :=
  (field_append_low 0x2#4 (0#16 ++ (p.c2 ++ (p.c1 ++ p.c0))) 16 8 (by omega)).trans
    ((field_append_low 0#16 (p.c2 ++ (p.c1 ++ p.c0)) 16 8 (by omega)).trans
      ((field_append_high p.c2 (p.c1 ++ p.c0) 0 8).trans (field_whole _)))

@[simp] theorem heightField_hdr (h w : Dim) (c : Sample) : heightField (Token.hdr h w c).word = h :=
  (field_append_low 0x3#4 (h ++ (w ++ c)) 24 16 (by omega)).trans ((field_append_high h (w ++ c) 0 16).trans (field_whole _))

@[simp] theorem widthField_hdr (h w : Dim) (c : Sample) : widthField (Token.hdr h w c).word = w :=
  (field_append_low 0x3#4 (h ++ (w ++ c)) 8 16 (by omega)).trans
    ((field_append_low h (w ++ c) 8 16 (by omega)).trans ((field_append_high w c 0 16).trans (field_whole _)))

@[simp] theorem low8_hdr (h w : Dim) (c : Sample) : low8 (Token.hdr h w c).word = c :=
  (field_append_low 0x3#4 (h ++ (w ++ c)) 0 8 (by omega)).trans
    ((field_append_low h (w ++ c) 0 8 (by omega)).trans ((field_append_low w c 0 8 (by omega)).trans (field_whole _)))

@[simp] theorem causeField_err (cause info : Code) : causeField (Token.err cause info).word = cause :=
  (field_append_low 0x5#4 (0#32 ++ (info ++ cause)) 0 4 (by omega)).trans
    ((field_append_low 0#32 (info ++ cause) 0 4 (by omega)).trans
      ((field_append_low info cause 0 4 (by omega)).trans (field_whole _)))

@[simp] theorem infoField_err (cause info : Code) : infoField (Token.err cause info).word = info :=
  (field_append_low 0x5#4 (0#32 ++ (info ++ cause)) 4 4 (by omega)).trans
    ((field_append_low 0#32 (info ++ cause) 4 4 (by omega)).trans
      ((field_append_high info cause 0 4).trans (field_whole _)))

/-- Only END and ERR are terminators (R86). -/
@[simp] theorem isTerminator_word (t : Token) : isTerminator t.word = (t.kind == 4#4 || t.kind == 5#4) := by
  simp [isTerminator]

end Sys2Proof
end

