-- ==== Sys2Proof/Laws/State.lean ====
section
/-! SUPPORT. One lemma per field per update of State, so that no later proof unfolds a record update. -/

namespace Sys2Proof.Machine

variable (s : State) (u v : UnitId) (q : List TokenWord) (ops : List HostOp)

/-! ### `setOutq` -/

@[simp] theorem setOutq_outq_self : (s.setOutq u q).outq u = q := by cases u <;> rfl
@[simp] theorem setOutq_outq_ne (h : v ≠ u) : (s.setOutq u q).outq v = s.outq v := by
  cases u <;> cases v <;> first | rfl | exact absurd rfl h
@[simp] theorem setOutq_fault : (s.setOutq u q).fault v = s.fault v := by cases u <;> cases v <;> rfl
@[simp] theorem setOutq_host : (s.setOutq u q).host = s.host := by cases u <;> rfl
@[simp] theorem setOutq_sched : (s.setOutq u q).sched = s.sched := by cases u <;> rfl
@[simp] theorem setOutq_tick : (s.setOutq u q).tick = s.tick := by cases u <;> rfl
@[simp] theorem setOutq_enc : (s.setOutq .enc q).enc = { s.enc with outq := q } := rfl
@[simp] theorem setOutq_enc_dec : (s.setOutq .enc q).dec = s.dec := rfl
@[simp] theorem setOutq_enc_seg : (s.setOutq .enc q).seg = s.seg := rfl
@[simp] theorem setOutq_dec : (s.setOutq .dec q).dec = { s.dec with outq := q } := rfl
@[simp] theorem setOutq_dec_enc : (s.setOutq .dec q).enc = s.enc := rfl
@[simp] theorem setOutq_dec_seg : (s.setOutq .dec q).seg = s.seg := rfl
@[simp] theorem setOutq_seg : (s.setOutq .seg q).seg = { s.seg with outq := q } := rfl
@[simp] theorem setOutq_seg_enc : (s.setOutq .seg q).enc = s.enc := rfl
@[simp] theorem setOutq_seg_dec : (s.setOutq .seg q).dec = s.dec := rfl

/-! ### `setInq` -/

@[simp] theorem setInq_inq_self : (s.setInq u q).inq u = q := by cases u <;> rfl
@[simp] theorem setInq_inq_ne (h : v ≠ u) : (s.setInq u q).inq v = s.inq v := by
  cases u <;> cases v <;> first | rfl | exact absurd rfl h
@[simp] theorem setInq_enc : (s.setInq u q).enc = s.enc := by cases u <;> rfl
@[simp] theorem setInq_dec : (s.setInq u q).dec = s.dec := by cases u <;> rfl
@[simp] theorem setInq_seg : (s.setInq u q).seg = s.seg := by cases u <;> rfl
@[simp] theorem setInq_sched : (s.setInq u q).sched = s.sched := by cases u <;> rfl
@[simp] theorem setInq_tick : (s.setInq u q).tick = s.tick := by cases u <;> rfl
@[simp] theorem setInq_fault : (s.setInq u q).fault v = s.fault v := by cases u <;> cases v <;> rfl
@[simp] theorem setInq_outq : (s.setInq u q).outq v = s.outq v := by cases u <;> cases v <;> rfl
@[simp] theorem setInq_taken : (s.setInq u q).taken v = s.taken v := by cases u <;> cases v <;> rfl
@[simp] theorem setInq_prog : (s.setInq u q).host.prog = s.host.prog := by cases u <;> rfl
@[simp] theorem setInq_reads : (s.setInq u q).host.reads = s.host.reads := by cases u <;> rfl

/-! ### `setTaken` -/

@[simp] theorem setTaken_taken_self : (s.setTaken u q).taken u = q := by cases u <;> rfl
@[simp] theorem setTaken_taken_ne (h : v ≠ u) : (s.setTaken u q).taken v = s.taken v := by
  cases u <;> cases v <;> first | rfl | exact absurd rfl h
@[simp] theorem setTaken_enc : (s.setTaken u q).enc = s.enc := by cases u <;> rfl
@[simp] theorem setTaken_dec : (s.setTaken u q).dec = s.dec := by cases u <;> rfl
@[simp] theorem setTaken_seg : (s.setTaken u q).seg = s.seg := by cases u <;> rfl
@[simp] theorem setTaken_sched : (s.setTaken u q).sched = s.sched := by cases u <;> rfl
@[simp] theorem setTaken_tick : (s.setTaken u q).tick = s.tick := by cases u <;> rfl
@[simp] theorem setTaken_inq : (s.setTaken u q).inq v = s.inq v := by cases u <;> cases v <;> rfl
@[simp] theorem setTaken_outq : (s.setTaken u q).outq v = s.outq v := by cases u <;> cases v <;> rfl
@[simp] theorem setTaken_fault : (s.setTaken u q).fault v = s.fault v := by cases u <;> cases v <;> rfl
@[simp] theorem setTaken_prog : (s.setTaken u q).host.prog = s.host.prog := by cases u <;> rfl
@[simp] theorem setTaken_reads : (s.setTaken u q).host.reads = s.host.reads := by cases u <;> rfl

/-! ### `setProg` -/

@[simp] theorem setProg_prog : (s.setProg ops).host.prog = ops := rfl
@[simp] theorem setProg_enc : (s.setProg ops).enc = s.enc := rfl
@[simp] theorem setProg_dec : (s.setProg ops).dec = s.dec := rfl
@[simp] theorem setProg_seg : (s.setProg ops).seg = s.seg := rfl
@[simp] theorem setProg_sched : (s.setProg ops).sched = s.sched := rfl
@[simp] theorem setProg_tick : (s.setProg ops).tick = s.tick := rfl
@[simp] theorem setProg_inq : (s.setProg ops).inq u = s.inq u := by cases u <;> rfl
@[simp] theorem setProg_taken : (s.setProg ops).taken u = s.taken u := by cases u <;> rfl
@[simp] theorem setProg_outq : (s.setProg ops).outq u = s.outq u := by cases u <;> rfl
@[simp] theorem setProg_fault : (s.setProg ops).fault u = s.fault u := by cases u <;> rfl
@[simp] theorem setProg_reads : (s.setProg ops).host.reads = s.host.reads := rfl

/-! ### `idle` -/

@[simp] theorem idle_host : (s.idle u).host = s.host := by cases u <;> rfl
@[simp] theorem idle_sched : (s.idle u).sched = s.sched := by cases u <;> rfl
@[simp] theorem idle_tick : (s.idle u).tick = s.tick := by cases u <;> rfl
@[simp] theorem idle_fault : (s.idle u).fault v = s.fault v := by cases u <;> cases v <;> rfl
@[simp] theorem idle_outq : (s.idle u).outq v = s.outq v := by cases u <;> cases v <;> rfl
@[simp] theorem idle_enc : (s.idle .enc).enc = s.enc.idle := rfl
@[simp] theorem idle_enc_dec : (s.idle .enc).dec = s.dec := rfl
@[simp] theorem idle_enc_seg : (s.idle .enc).seg = s.seg := rfl
@[simp] theorem idle_dec : s.idle .dec = s := rfl
@[simp] theorem idle_seg : (s.idle .seg).seg = s.seg.idle := rfl
@[simp] theorem idle_seg_enc : (s.idle .seg).enc = s.enc := rfl
@[simp] theorem idle_seg_dec : (s.idle .seg).dec = s.dec := rfl

/-! ### `raise` -/

variable (c : Cause) (i : Info)

@[simp] theorem raise_fault_self : (s.raise u c i).fault u = c.code := by cases u <;> rfl
@[simp] theorem raise_fault_ne (h : v ≠ u) : (s.raise u c i).fault v = s.fault v := by
  cases u <;> cases v <;> first | rfl | exact absurd rfl h
@[simp] theorem raise_outq_self : (s.raise u c i).outq u = s.outq u ++ [(Token.err c.code i.code).word] := by cases u <;> rfl
@[simp] theorem raise_outq_ne (h : v ≠ u) : (s.raise u c i).outq v = s.outq v := by
  cases u <;> cases v <;> first | rfl | exact absurd rfl h
@[simp] theorem raise_host : (s.raise u c i).host = s.host := by cases u <;> rfl
@[simp] theorem raise_sched : (s.raise u c i).sched = s.sched := by cases u <;> rfl
@[simp] theorem raise_tick : (s.raise u c i).tick = s.tick := by cases u <;> rfl
theorem raise_enc : s.raise .enc c i =
    { s with enc := { s.enc with fault := c.code, outq := s.enc.outq ++ [(Token.err c.code i.code).word] } } := rfl
theorem raise_dec : s.raise .dec c i =
    { s with dec := { s.dec with fault := c.code, outq := s.dec.outq ++ [(Token.err c.code i.code).word] } } := rfl
theorem raise_seg : s.raise .seg c i =
    { s with seg := { s.seg with fault := c.code, info := i.code, outq := s.seg.outq ++ [(Token.err c.code i.code).word] } } := rfl

/-! ### `emitAll`, `emit`, `forwardErr` -/

variable (ts : List Token) (t : Token)

@[simp] theorem emitAll_outq_self : (s.emitAll u ts).outq u = s.outq u ++ wordsOf ts := by cases u <;> rfl
@[simp] theorem emitAll_fault : (s.emitAll u ts).fault v = s.fault v := by cases u <;> cases v <;> rfl
@[simp] theorem emitAll_host : (s.emitAll u ts).host = s.host := by cases u <;> rfl
theorem emit_eq_emitAll : s.emit u t = s.emitAll u [t] := by cases u <;> rfl
theorem emitAll_enc : s.emitAll .enc ts = { s with enc := { s.enc with outq := s.enc.outq ++ wordsOf ts } } := rfl
theorem emitAll_dec : s.emitAll .dec ts = { s with dec := { s.dec with outq := s.dec.outq ++ wordsOf ts } } := rfl
theorem emitAll_seg : s.emitAll .seg ts = { s with seg := { s.seg with outq := s.seg.outq ++ wordsOf ts } } := rfl
theorem forwardErr_enc (ca io : Code) : s.forwardErr .enc ca io =
    { s with enc := { s.enc.idle with outq := s.enc.outq ++ [(Token.err ca io).word] } } := rfl
theorem forwardErr_dec (ca io : Code) : s.forwardErr .dec ca io =
    { s with dec := { s.dec with outq := s.dec.outq ++ [(Token.err ca io).word] } } := rfl
theorem forwardErr_seg (ca io : Code) : s.forwardErr .seg ca io =
    { s with seg := { s.seg.idle with outq := s.seg.outq ++ [(Token.err ca io).word] } } := rfl

/-! ### The turn used up -/

variable (turns : List Agent) (n : Nat)

@[simp] theorem turn_inq : State.inq { s with sched := turns, tick := n } u = s.inq u := by cases u <;> rfl
@[simp] theorem turn_outq : State.outq { s with sched := turns, tick := n } u = s.outq u := by cases u <;> rfl
@[simp] theorem turn_taken : State.taken { s with sched := turns, tick := n } u = s.taken u := by cases u <;> rfl
@[simp] theorem turn_fault : State.fault { s with sched := turns, tick := n } u = s.fault u := by cases u <;> rfl

/-! ### `discardCut`, `discardFor`, `discardAll`: the host's records only -/

@[simp] theorem discardCut_taken_self : (s.discardCut u).taken u = closedPart (s.taken u) := by cases u <;> rfl
@[simp] theorem discardCut_taken_ne (h : v ≠ u) : (s.discardCut u).taken v = s.taken v := by
  cases u <;> cases v <;> first | rfl | exact absurd rfl h
@[simp] theorem discardCut_enc : (s.discardCut u).enc = s.enc := by cases u <;> rfl
@[simp] theorem discardCut_dec : (s.discardCut u).dec = s.dec := by cases u <;> rfl
@[simp] theorem discardCut_seg : (s.discardCut u).seg = s.seg := by cases u <;> rfl
@[simp] theorem discardCut_sched : (s.discardCut u).sched = s.sched := by cases u <;> rfl
@[simp] theorem discardCut_tick : (s.discardCut u).tick = s.tick := by cases u <;> rfl
@[simp] theorem discardCut_prog : (s.discardCut u).host.prog = s.host.prog := by cases u <;> rfl
@[simp] theorem discardCut_reads : (s.discardCut u).host.reads = s.host.reads := by cases u <;> rfl
@[simp] theorem discardCut_inq : (s.discardCut u).inq v = s.inq v := by cases u <;> cases v <;> rfl
@[simp] theorem discardAll_taken : s.discardAll.taken u = closedPart (s.taken u) := by cases u <;> rfl
@[simp] theorem discardAll_seg : s.discardAll.seg = s.seg := rfl
@[simp] theorem discardAll_sched : s.discardAll.sched = s.sched := rfl
@[simp] theorem discardAll_tick : s.discardAll.tick = s.tick := rfl
@[simp] theorem discardAll_prog : s.discardAll.host.prog = s.host.prog := rfl
@[simp] theorem discardAll_inq : s.discardAll.inq u = s.inq u := by cases u <;> rfl
theorem discardFor_none {w : RequestWord} (h : resetTarget w = none) : s.discardFor w = s := by simp [State.discardFor, h]
theorem discardFor_some {w : RequestWord} (h : resetTarget w = some u) : s.discardFor w = s.discardCut u := by
  simp [State.discardFor, h]

/-- The discarding changes the host's records of TAKE and nothing else. -/
theorem discardFor_eq (w : RequestWord) :
    ∃ a b c, s.discardFor w = { s with host := { s.host with encTaken := a, decTaken := b, segTaken := c } } := by
  unfold State.discardFor
  cases resetTarget w with
  | none => exact ⟨_, _, _, rfl⟩
  | some u => cases u <;> exact ⟨_, _, _, rfl⟩

end Sys2Proof.Machine
end

