-- ==== Sys2Proof/Laws/Ops.lean ====
section
/-! SUPPORT. What each shared operation can do, said once: decoding by kind, `whenRunning`, the instructions of each unit, a unit's consume
step, the host's operations and a step. -/

namespace Sys2Proof

/-! ### Decoding by kind -/

/-- A token's word decodes to the token (R79). -/
@[simp] theorem decodeToken_word (t : Token) : decodeToken t.word = .ok t := by
  unfold decodeToken
  rw [kindOf_word]
  cases t <;> simp [Token.kind]

theorem decodeToken_kind0 {w : TokenWord} (h : w.extractLsb' 40 4 = 0#4) : decodeToken w = .ok (.data (low8 w)) := by
  have h2 : kindOf w = 0#4 := h
  simp [decodeToken, h2]

theorem decodeToken_kind1 {w : TokenWord} (h : w.extractLsb' 40 4 = 1#4) :
    decodeToken w = .ok (.run (low8 w) (countField w)) := by
  have h2 : kindOf w = 1#4 := h
  simp [decodeToken, h2]

theorem decodeToken_kind2 {w : TokenWord} (h : w.extractLsb' 40 4 = 2#4) :
    decodeToken w = .ok (.pix ⟨low8 w, c1Field w, c2Field w⟩) := by
  have h2 : kindOf w = 2#4 := h
  simp [decodeToken, h2]

theorem decodeToken_kind3 {w : TokenWord} (h : w.extractLsb' 40 4 = 3#4) :
    decodeToken w = .ok (.hdr (heightField w) (widthField w) (low8 w)) := by
  have h2 : kindOf w = 3#4 := h
  simp [decodeToken, h2]

theorem decodeToken_kind4 {w : TokenWord} (h : w.extractLsb' 40 4 = 4#4) : decodeToken w = .ok .fin := by
  have h2 : kindOf w = 4#4 := h
  simp [decodeToken, h2]

theorem decodeToken_kind5 {w : TokenWord} (h : w.extractLsb' 40 4 = 5#4) :
    decodeToken w = .ok (.err (causeField w) (infoField w)) := by
  have h2 : kindOf w = 5#4 := h
  simp [decodeToken, h2]

theorem decodeToken_reserved {w : TokenWord} (h : 6#4 ≤ w.extractLsb' 40 4) :
    decodeToken w = .error (.reservedKind (kindOf w)) := by
  have h2 : 6 ≤ (kindOf w).toNat := h
  unfold decodeToken
  split <;> first | omega | rfl

/-- Every kind code is one of the six with a format or reserved. -/
theorem kind_cases (k : Code) : k = 0 ∨ k = 1 ∨ k = 2 ∨ k = 3 ∨ k = 4 ∨ k = 5 ∨ 6#4 ≤ k := by
  revert k; decide

/-- What `decode .enc` can answer. -/
theorem decode_enc_cases (w : TokenWord) :
    (∃ v, decode .enc w = .ok (.encData v)) ∨ decode .enc w = .ok .encEnd ∨ (∃ c d, decode .enc w = .ok (.encErr c d)) ∨
      ∃ e, decode .enc w = .error e := by
  unfold decode
  cases decodeToken w with
  | error e => exact .inr (.inr (.inr ⟨e, rfl⟩))
  | ok t => cases t <;> simp [accept]

/-- What `decode .dec` can answer. -/
theorem decode_dec_cases (w : TokenWord) :
    (∃ v c, decode .dec w = .ok (.decRun v c)) ∨ decode .dec w = .ok .decEnd ∨ (∃ c d, decode .dec w = .ok (.decErr c d)) ∨
      ∃ e, decode .dec w = .error e := by
  unfold decode
  cases decodeToken w with
  | error e => exact .inr (.inr (.inr ⟨e, rfl⟩))
  | ok t => cases t <;> simp [accept]

/-- What `decode .seg` can answer. -/
theorem decode_seg_cases (w : TokenWord) :
    (∃ h x c, decode .seg w = .ok (.segHdr h x c)) ∨ (∃ a b c, decode .seg w = .ok (.segPix a b c)) ∨
      decode .seg w = .ok .segEnd ∨ (∃ c d, decode .seg w = .ok (.segErr c d)) ∨ ∃ e, decode .seg w = .error e := by
  unfold decode
  cases decodeToken w with
  | error e => exact .inr (.inr (.inr (.inr ⟨e, rfl⟩)))
  | ok t => cases t <;> simp [accept]

namespace Machine

/-! ### The guard -/

theorem whenRunning_running {s : State} {u : UnitId} (h : s.fault u = 0) (r : Result) : s.whenRunning u r = r := if_pos h

theorem whenRunning_halted {s : State} {u : UnitId} (h : s.fault u ≠ 0) (r : Result) :
    s.whenRunning u r = .fault (.unitHalted u) := if_neg h

theorem whenRunning_next {s t : State} {u : UnitId} {r : Result} (h : s.whenRunning u r = .next t) : s.fault u = 0 ∧ r = .next t := by
  unfold State.whenRunning at h
  split at h
  · exact ⟨‹_›, h⟩
  · cases h

/-! ### The instructions of each unit: the unit's next state, and nothing else -/

/-- What a token can do to ENC (R133 to R136). -/
inductive EncMove (e : EncState) : EncState → Prop where
  | start (v : Sample) : e.haveRun = false → EncMove e { e with haveRun := true, cur := v, cnt := 1 }
  | count : e.haveRun = true → e.cnt.toNat < Config.maxCnt → EncMove e { e with cnt := e.cnt + 1 }
  | overflow : e.haveRun = true → e.cnt.toNat = Config.maxCnt →
      EncMove e { e with fault := 2, outq := e.outq ++ [(Token.err 2 0).word] }
  | change (v : Sample) : e.haveRun = true → v ≠ e.cur →
      EncMove e { e with haveRun := true, cur := v, cnt := 1, outq := e.outq ++ [e.openRun.word] }
  | flush : e.haveRun = true →
      EncMove e { e with haveRun := false, cur := 0, cnt := 0, outq := e.outq ++ [e.openRun.word, Token.fin.word] }
  | finish : e.haveRun = false → EncMove e { e with haveRun := false, cur := 0, cnt := 0, outq := e.outq ++ [Token.fin.word] }
  | abort (c d : Code) : EncMove e { e with haveRun := false, cur := 0, cnt := 0, outq := e.outq ++ [(Token.err c d).word] }
  | illegal : EncMove e { e with fault := 1, outq := e.outq ++ [(Token.err 1 0).word] }

/-- What a token can do to DEC (R153 to R156). -/
inductive DecMove (d : DecState) : DecState → Prop where
  | expand (v : Sample) (c : Count) : c ≠ 0 →
      DecMove d { d with outq := d.outq ++ wordsOf (List.replicate c.toNat (.data v)) }
  | zero : DecMove d { d with fault := 3, outq := d.outq ++ [(Token.err 3 0).word] }
  | finish : DecMove d { d with outq := d.outq ++ [Token.fin.word] }
  | abort (c i : Code) : DecMove d { d with outq := d.outq ++ [(Token.err c i).word] }
  | illegal : DecMove d { d with fault := 1, outq := d.outq ++ [(Token.err 1 0).word] }

/-- What a token can do to SEG (R114 to R118). -/
inductive SegMove (g : SegState) : SegState → Prop where
  | start (h w : Dim) : g.phase = .idle → h ≠ 0 → w ≠ 0 → h.toNat ≤ Config.maxH → w.toNat ≤ Config.maxW →
      SegMove g (g.openFrame h w)
  | load (p : Pixel) : g.phase = .load → g.n.toNat ≠ g.frameSize → frameStoreHas g.storeAddr 3 = true → SegMove g (g.loadPixel p)
  | finish : g.phase = .load → g.n.toNat = g.frameSize → frameStoreHas 0 (3 * g.frameSize) = true →
      SegMove g { g.idle with outq := g.outq ++ wordsOf g.outputTokens }
  | abort (c i : Code) : SegMove g { g.idle with outq := g.outq ++ [(Token.err c i).word] }
  | image (i : Code) : i = 1 ∨ i = 2 ∨ i = 3 ∨ i = 4 →
      SegMove g { g with fault := 4, info := i, outq := g.outq ++ [(Token.err 4 i).word] }
  | illegal : SegMove g { g with fault := 1, info := 0, outq := g.outq ++ [(Token.err 1 0).word] }

theorem execEncData_next {v : Sample} {s t : State} (h : execEncData v s = .next t) :
    s.enc.fault = 0 ∧ ∃ e, EncMove s.enc e ∧ t = { s with enc := e } := by
  obtain ⟨hf, h⟩ := whenRunning_next h
  refine ⟨hf, ?_⟩
  split_ifs at h with h1 h2 h3 <;> cases h
  · exact ⟨_, .start v h1, rfl⟩
  · exact ⟨_, .overflow (by simpa using h1) h3, rfl⟩
  · refine ⟨_, .count (by simpa using h1) ?_, rfl⟩
    have := s.enc.cnt.isLt
    simp only [Config.maxCnt] at h3 ⊢
    omega
  · exact ⟨_, .change v (by simpa using h1) h2, rfl⟩

theorem execEncEnd_next {s t : State} (h : execEncEnd s = .next t) :
    s.enc.fault = 0 ∧ ∃ e, EncMove s.enc e ∧ t = { s with enc := e } := by
  obtain ⟨hf, h⟩ := whenRunning_next h
  refine ⟨hf, ?_⟩
  cases hr : s.enc.haveRun <;> simp only [hr] at h <;> cases h
  · exact ⟨_, .finish hr, rfl⟩
  · exact ⟨_, .flush hr, rfl⟩

theorem execEncErr_next {c d : Code} {s t : State} (h : execEncErr c d s = .next t) :
    s.enc.fault = 0 ∧ ∃ e, EncMove s.enc e ∧ t = { s with enc := e } := by
  obtain ⟨hf, h⟩ := whenRunning_next h
  cases h
  exact ⟨hf, _, .abort c d, rfl⟩

theorem execDecRun_next {v : Sample} {c : Count} {s t : State} (h : execDecRun v c s = .next t) :
    s.dec.fault = 0 ∧ ∃ d, DecMove s.dec d ∧ t = { s with dec := d } := by
  obtain ⟨hf, h⟩ := whenRunning_next h
  refine ⟨hf, ?_⟩
  split_ifs at h with h1 <;> cases h
  · exact ⟨_, .zero, rfl⟩
  · exact ⟨_, .expand v c h1, rfl⟩

theorem execDecEnd_next {s t : State} (h : execDecEnd s = .next t) :
    s.dec.fault = 0 ∧ ∃ d, DecMove s.dec d ∧ t = { s with dec := d } := by
  obtain ⟨hf, h⟩ := whenRunning_next h
  cases h
  exact ⟨hf, _, .finish, rfl⟩

theorem execDecErr_next {c i : Code} {s t : State} (h : execDecErr c i s = .next t) :
    s.dec.fault = 0 ∧ ∃ d, DecMove s.dec d ∧ t = { s with dec := d } := by
  obtain ⟨hf, h⟩ := whenRunning_next h
  cases h
  exact ⟨hf, _, .abort c i, rfl⟩

theorem execSegHdr_next {x y : Dim} {c : Sample} {s t : State} (h : execSegHdr x y c s = .next t) :
    s.seg.fault = 0 ∧ ∃ g, SegMove s.seg g ∧ t = { s with seg := g } := by
  obtain ⟨hf, h⟩ := whenRunning_next h
  refine ⟨hf, ?_⟩
  split_ifs at h with h1 h2 h3 h4 <;> cases h
  · exact ⟨_, .illegal, rfl⟩
  · exact ⟨_, .image 1 (by simp), rfl⟩
  · exact ⟨_, .image 2 (by simp), rfl⟩
  · exact ⟨_, .image 3 (by simp), rfl⟩
  · obtain ⟨h5, h6⟩ := not_or.1 h3
    obtain ⟨h7, h8⟩ := not_or.1 h4
    refine ⟨_, .start x y ?_ h5 h6 (Nat.le_of_not_lt h7) (Nat.le_of_not_lt h8), rfl⟩
    cases hp : s.seg.phase
    · rfl
    · exact absurd hp h1

theorem execSegPix_next {a b c : Sample} {s t : State} (h : execSegPix a b c s = .next t) :
    s.seg.fault = 0 ∧ ∃ g, SegMove s.seg g ∧ t = { s with seg := g } := by
  obtain ⟨hf, h⟩ := whenRunning_next h
  refine ⟨hf, ?_⟩
  split_ifs at h with h1 h2 h3 <;> cases h
  · exact ⟨_, .illegal, rfl⟩
  · exact ⟨_, .image 4 (by simp), rfl⟩
  · refine ⟨_, .load _ ?_ h2 h3, rfl⟩
    cases hp : s.seg.phase
    · exact absurd hp h1
    · rfl

theorem execSegEnd_next {s t : State} (h : execSegEnd s = .next t) :
    s.seg.fault = 0 ∧ ∃ g, SegMove s.seg g ∧ t = { s with seg := g } := by
  obtain ⟨hf, h⟩ := whenRunning_next h
  refine ⟨hf, ?_⟩
  split_ifs at h with h1 h2 h3 <;> cases h
  · exact ⟨_, .illegal, rfl⟩
  · exact ⟨_, .image 4 (by simp), rfl⟩
  · refine ⟨_, .finish ?_ (not_not.1 h2) h3, rfl⟩
    cases hp : s.seg.phase
    · exact absurd hp h1
    · rfl

theorem execSegErr_next {c i : Code} {s t : State} (h : execSegErr c i s = .next t) :
    s.seg.fault = 0 ∧ ∃ g, SegMove s.seg g ∧ t = { s with seg := g } := by
  obtain ⟨hf, h⟩ := whenRunning_next h
  cases h
  exact ⟨hf, _, .abort c i, rfl⟩

/-! ### A unit's consume step -/

theorem consume_empty {s : State} {u : UnitId} (h : s.inq u = []) : s.consume u = .next s := by
  simp [State.consume, h]

theorem consume_halted {s : State} {u : UnitId} (h : s.fault u ≠ 0) : s.consume u = .next s := by
  unfold State.consume
  split
  · rfl
  · rw [if_neg h]

theorem consume_cons {s : State} {u : UnitId} {w : TokenWord} {q : List TokenWord} (h : s.inq u = w :: q) (hf : s.fault u = 0) :
    s.consume u = (s.setInq u q).executeToken u w := by
  simp [State.consume, h, hf]

theorem executeToken_ok {s : State} {u : UnitId} {w : TokenWord} {i : Instr} (h : decode u w = .ok i) :
    s.executeToken u w = exec i s := by simp [State.executeToken, h]

theorem executeToken_error {s : State} {u : UnitId} {w : TokenWord} {e : DecodeError} (h : decode u w = .error e) :
    s.executeToken u w = .next (s.raise u .illegalToken .none) := by simp [State.executeToken, h]

/-- Everything ENC's turn can do. -/
theorem consume_enc {s t : State} (h : s.consume .enc = .next t) :
    t = s ∧ (s.host.encIn = [] ∨ s.enc.fault ≠ 0) ∨
      ∃ w q e, s.host.encIn = w :: q ∧ s.enc.fault = 0 ∧ EncMove s.enc e ∧
        t = { s with host := { s.host with encIn := q }, enc := e } := by
  rcases hq : s.inq .enc with _ | ⟨w, q⟩
  · rw [consume_empty hq] at h; cases h; exact .inl ⟨rfl, .inl hq⟩
  · by_cases hf : s.enc.fault = 0
    · rw [consume_cons hq hf] at h
      refine .inr ⟨w, q, ?_⟩
      rcases decode_enc_cases w with ⟨v, hd⟩ | hd | ⟨c, i, hd⟩ | ⟨e, hd⟩
      · rw [executeToken_ok hd] at h
        obtain ⟨-, e, he, rfl⟩ := execEncData_next h
        exact ⟨e, hq, hf, he, rfl⟩
      · rw [executeToken_ok hd] at h
        obtain ⟨-, e, he, rfl⟩ := execEncEnd_next h
        exact ⟨e, hq, hf, he, rfl⟩
      · rw [executeToken_ok hd] at h
        obtain ⟨-, e, he, rfl⟩ := execEncErr_next h
        exact ⟨e, hq, hf, he, rfl⟩
      · rw [executeToken_error hd] at h
        cases h
        exact ⟨_, hq, hf, .illegal, rfl⟩
    · rw [consume_halted (u := .enc) hf] at h; cases h; exact .inl ⟨rfl, .inr hf⟩

/-- Everything DEC's turn can do. -/
theorem consume_dec {s t : State} (h : s.consume .dec = .next t) :
    t = s ∧ (s.host.decIn = [] ∨ s.dec.fault ≠ 0) ∨
      ∃ w q d, s.host.decIn = w :: q ∧ s.dec.fault = 0 ∧ DecMove s.dec d ∧
        t = { s with host := { s.host with decIn := q }, dec := d } := by
  rcases hq : s.inq .dec with _ | ⟨w, q⟩
  · rw [consume_empty hq] at h; cases h; exact .inl ⟨rfl, .inl hq⟩
  · by_cases hf : s.dec.fault = 0
    · rw [consume_cons hq hf] at h
      refine .inr ⟨w, q, ?_⟩
      rcases decode_dec_cases w with ⟨v, c, hd⟩ | hd | ⟨c, i, hd⟩ | ⟨e, hd⟩
      · rw [executeToken_ok hd] at h
        obtain ⟨-, d, he, rfl⟩ := execDecRun_next h
        exact ⟨d, hq, hf, he, rfl⟩
      · rw [executeToken_ok hd] at h
        obtain ⟨-, d, he, rfl⟩ := execDecEnd_next h
        exact ⟨d, hq, hf, he, rfl⟩
      · rw [executeToken_ok hd] at h
        obtain ⟨-, d, he, rfl⟩ := execDecErr_next h
        exact ⟨d, hq, hf, he, rfl⟩
      · rw [executeToken_error hd] at h
        cases h
        exact ⟨_, hq, hf, .illegal, rfl⟩
    · rw [consume_halted (u := .dec) hf] at h; cases h; exact .inl ⟨rfl, .inr hf⟩

/-- Everything SEG's turn can do. -/
theorem consume_seg {s t : State} (h : s.consume .seg = .next t) :
    t = s ∧ (s.host.segIn = [] ∨ s.seg.fault ≠ 0) ∨
      ∃ w q g, s.host.segIn = w :: q ∧ s.seg.fault = 0 ∧ SegMove s.seg g ∧
        t = { s with host := { s.host with segIn := q }, seg := g } := by
  rcases hq : s.inq .seg with _ | ⟨w, q⟩
  · rw [consume_empty hq] at h; cases h; exact .inl ⟨rfl, .inl hq⟩
  · by_cases hf : s.seg.fault = 0
    · rw [consume_cons hq hf] at h
      refine .inr ⟨w, q, ?_⟩
      rcases decode_seg_cases w with ⟨x, y, c, hd⟩ | ⟨a, b, c, hd⟩ | hd | ⟨c, i, hd⟩ | ⟨e, hd⟩
      · rw [executeToken_ok hd] at h
        obtain ⟨-, g, he, rfl⟩ := execSegHdr_next h
        exact ⟨g, hq, hf, he, rfl⟩
      · rw [executeToken_ok hd] at h
        obtain ⟨-, g, he, rfl⟩ := execSegPix_next h
        exact ⟨g, hq, hf, he, rfl⟩
      · rw [executeToken_ok hd] at h
        obtain ⟨-, g, he, rfl⟩ := execSegEnd_next h
        exact ⟨g, hq, hf, he, rfl⟩
      · rw [executeToken_ok hd] at h
        obtain ⟨-, g, he, rfl⟩ := execSegErr_next h
        exact ⟨g, hq, hf, he, rfl⟩
      · rw [executeToken_error hd] at h
        cases h
        exact ⟨_, hq, hf, .illegal, rfl⟩
    · rw [consume_halted (u := .seg) hf] at h; cases h; exact .inl ⟨rfl, .inr hf⟩

/-! ### The host's operations -/

/-- Everything a TAKE can do. -/
theorem takeThen_next {s t : State} {u : UnitId} {prog : TokenWord → List HostOp} (h : s.takeThen u prog = .next t) :
    s.outq u = [] ∧ t = s ∨ ∃ w q, s.outq u = w :: q ∧ t = (s.takeHead u w q).setProg (prog w) := by
  unfold State.takeThen at h
  split at h
  · cases h; exact .inl ⟨‹_›, rfl⟩
  · cases h; exact .inr ⟨_, _, ‹_›, rfl⟩

/-- A register request always has a next state: an RD returns a word, a WR writes. -/
theorem exec_request (w : RequestWord) (s : State) :
    (exec (decodeRequest w) s = .next { s with host := { s.host with reads := s.host.reads ++ [s.regValue (idxField w)] } } ∧
        weField w = false) ∨
      exec (decodeRequest w) s = .next (s.regWrite (idxField w) (wdataField w)) ∧ weField w = true := by
  unfold decodeRequest
  cases weField w
  · exact .inl ⟨rfl, rfl⟩
  · exact .inr ⟨rfl, rfl⟩

/-- Everything a register write can do: nothing, a soft reset, or a configuration register. -/
theorem regWrite_cases (s : State) (idx : RegIdx) (v : RegWord) :
    s.regWrite idx v = s ∨
      (v.getLsbD 0 = true ∧
        (idx = 0 ∧ s.regWrite idx v = s.softReset .enc ∨ idx = 2 ∧ s.regWrite idx v = s.softReset .dec ∨
          idx = 4 ∧ s.regWrite idx v = s.softReset .seg)) ∨
      ∃ a b c d e, s.regWrite idx v = { s with seg := { s.seg with hLo := a, hHi := b, sMin := c, vMin := d, openEn := e } } := by
  have key : ∀ i : RegIdx, i = 0 ∨ i = 1 ∨ i = 2 ∨ i = 3 ∨ i = 4 ∨ i = 5 ∨ i = 6 ∨ i = 7 ∨ i = 8 ∨ i = 9 ∨ 10 ≤ i.toNat := by decide
  have ctrl : ∀ u, s.ctrlWrite u v = s ∨ v.getLsbD 0 = true ∧ s.ctrlWrite u v = s.softReset u := by
    intro u
    unfold State.ctrlWrite
    cases v.getLsbD 0 <;> simp
  rcases key idx with rfl | rfl | rfl | rfl | rfl | rfl | rfl | rfl | rfl | rfl | h
  · exact (ctrl .enc).imp id fun h => .inl ⟨h.1, .inl ⟨rfl, h.2⟩⟩
  · exact .inl rfl
  · exact (ctrl .dec).imp id fun h => .inl ⟨h.1, .inr (.inl ⟨rfl, h.2⟩)⟩
  · exact .inl rfl
  · exact (ctrl .seg).imp id fun h => .inl ⟨h.1, .inr (.inr ⟨rfl, h.2⟩)⟩
  · exact .inr (.inr ⟨_, _, _, _, _, rfl⟩)
  · exact .inr (.inr ⟨_, _, _, _, _, rfl⟩)
  · exact .inr (.inr ⟨_, _, _, _, _, rfl⟩)
  · exact .inr (.inr ⟨_, _, _, _, _, rfl⟩)
  · exact .inr (.inr ⟨_, _, _, _, _, rfl⟩)
  · refine .inl ?_
    have hr : RegName.ofIndex idx = .segStatus ∨ RegName.ofIndex idx = .unmapped := by revert h; revert idx; decide
    rcases hr with hr | hr <;> simp [State.regWrite, hr]

/-- The CTRL register of a unit, as R171 numbers it, is the one whose write of 1 makes the host discard. -/
theorem resetTarget_ctrl {w : RequestWord} {u : UnitId} :
    resetTarget w = some u ↔
      weField w = true ∧ (wdataField w).getLsbD 0 = true ∧ idxField w = (match u with | .enc => 0#4 | .dec => 2#4 | .seg => 4#4) := by
  have key : ∀ (b c : Bool) (i : RegIdx) (u : UnitId),
      (if (b && c) = true then
          (match RegName.ofIndex i with
            | .encCtrl => some UnitId.enc
            | .decCtrl => some .dec
            | .segCtrl => some .seg
            | .encStatus => none
            | .decStatus => none
            | .segHLo => none
            | .segHHi => none
            | .segSMin => none
            | .segVMin => none
            | .segOpenEn => none
            | .segStatus => none
            | .unmapped => none)
        else none) = some u ↔ b = true ∧ c = true ∧ i = (match u with | .enc => 0#4 | .dec => 2#4 | .seg => 4#4) := by
    intro b c i u
    cases b <;> cases c <;> cases u <;> revert i <;> decide
  exact key _ _ _ _

/-- Everything the host's turn can do. -/
theorem hostTurn_next {s t : State} (h : s.hostTurn = .next t) :
    t = s ∨ ∃ op ops, s.host.prog = op :: ops ∧
      ((∃ u q, t = (s.setProg ops).setInq u q) ∨
        (∃ u w q p, s.outq u = w :: q ∧ t = (s.takeHead u w q).setProg p) ∨
        (∃ w, op = .request w ∧ exec (decodeRequest w) ((s.setProg ops).discardFor w) = .next t) ∨
        (op = .reset ∧ t = (s.setProg ops).discardAll.hardReset)) := by
  unfold State.hostTurn at h
  split at h
  · cases h; exact .inl rfl
  · rename_i op ops hp
    cases op with
    | offer u w => cases h; exact .inr ⟨_, _, hp, .inl ⟨_, _, rfl⟩⟩
    | take u =>
      rcases takeThen_next h with ⟨-, rfl⟩ | ⟨w, q, hq, rfl⟩
      · exact .inl rfl
      · exact .inr ⟨_, _, hp, .inr (.inl ⟨u, w, q, _, hq, rfl⟩)⟩
    | request w => exact .inr ⟨_, _, hp, .inr (.inr (.inl ⟨w, rfl, h⟩))⟩
    | reset => cases h; exact .inr ⟨_, _, hp, .inr (.inr (.inr ⟨rfl, rfl⟩))⟩
    | withdraw u k => cases h; exact .inr ⟨_, _, hp, .inl ⟨_, _, rfl⟩⟩
    | drain u =>
      rcases takeThen_next h with ⟨-, rfl⟩ | ⟨w, q, hq, rfl⟩
      · exact .inl rfl
      · exact .inr ⟨_, _, hp, .inr (.inl ⟨u, w, q, _, hq, rfl⟩)⟩
    | pipe src dst =>
      rcases takeThen_next h with ⟨-, rfl⟩ | ⟨w, q, hq, rfl⟩
      · exact .inl rfl
      · exact .inr ⟨_, _, hp, .inr (.inl ⟨src, w, q, _, hq, rfl⟩)⟩
    | pipeFlat =>
      rcases takeThen_next h with ⟨-, rfl⟩ | ⟨w, q, hq, rfl⟩
      · exact .inl rfl
      · exact .inr ⟨_, _, hp, .inr (.inl ⟨.seg, w, q, _, hq, rfl⟩)⟩

/-! ### A step -/

theorem step_sched {s : State} {a : Agent} {turns : List Agent} (h : s.sched = a :: turns) :
    step s = { s with sched := turns }.turn a := by
  simp [step, State.nextTurn, h]

theorem step_free {s : State} (h : s.sched = []) :
    step s = { s with tick := s.tick + 1 }.turn (Config.freeTurn s.tick) := by
  simp [step, State.nextTurn, h]

/-- The turn a step takes changes the interleaving and its counter only. -/
theorem nextTurn_snd (s : State) : ∃ turns n, s.nextTurn.2 = { s with sched := turns, tick := n } := by
  unfold State.nextTurn
  split
  · exact ⟨_, _, rfl⟩
  · rename_i h; exact ⟨s.sched, _, rfl⟩

end Machine
end Sys2Proof
end

