-- ==== Sys2Proof/Laws/Runs.lean ====
section
/-! SUPPORT. Several steps: how runs compose. -/

namespace Sys2Proof.Machine

@[simp] theorem steps_zero (s : State) : steps 0 s = .next s := rfl

/-- A run whose first step goes on. -/
theorem steps_succ_of_next {s t : State} (h : step s = .next t) (k : Nat) : steps (k + 1) s = steps k t := by
  simp [steps, h]

/-- Two runs one after the other. -/
theorem steps_add {j : Nat} {s t : State} (h : steps j s = .next t) (k : Nat) : steps (j + k) s = steps k t := by
  induction j generalizing s with
  | zero => cases h; rw [Nat.zero_add]
  | succ j ih =>
    rw [Nat.add_right_comm, steps]
    rw [steps] at h
    cases hs : step s with
    | next u => rw [hs] at h; exact ih h
    | fault f => rw [hs] at h; cases h
    | refused r => rw [hs] at h; cases h

/-- The host's turn, by the operation at the head of its program. -/
theorem step_host_op {s : State} {turns : List Agent} {op : HostOp} {ops : List HostOp} (hs : s.sched = .host :: turns)
    (hp : s.host.prog = op :: ops) : step s = { s with sched := turns }.hostOp op ops := by
  rw [step_sched hs]
  simp [State.turn, State.hostTurn, hp]

end Sys2Proof.Machine
end

