-- ==== Sys2Proof/Laws/Fairness.lean ====
section
/-! SUPPORT. Fairness (R237): what a fair run gives, and that fair runs exist. -/

namespace Sys2Proof.Machine

/-- In a fair run a unit whose consume step stays enabled eventually takes its turn. -/
theorem unitsFair_takes_turn {s : State} (h : s.unitsFair) {u : UnitId} {k : Nat}
    (hk : ∀ j, k ≤ j → ∃ t, steps j s = .next t ∧ t.canConsume u = true) :
    ∃ (j : Nat) (t : State), k ≤ j ∧ steps j s = .next t ∧ t.nextTurn.1 = .unit u := by
  obtain ⟨j, hj, ht⟩ := h u k
  obtain ⟨t, hs, hc⟩ := hk j hj
  rcases ht t hs with h2 | h2
  · rw [hc] at h2; cases h2
  · exact ⟨j, t, hj, hs, h2⟩

/-- A turn of a machine in which nothing is offered and the host has nothing to do changes nothing. -/
theorem turn_quiet {s : State} (hq : ∀ u, s.inq u = []) (hp : s.host.prog = []) (a : Agent) : s.turn a = .next s := by
  cases a with
  | unit u => exact consume_empty (hq u)
  | host => simp [State.turn, State.hostTurn, hp]

/-- Such a machine stays as it is, but for the turns. -/
theorem steps_quiet {s : State} (hq : ∀ u, s.inq u = []) (hp : s.host.prog = []) (k : Nat) :
    ∃ turns n, steps k s = .next { s with sched := turns, tick := n } := by
  induction k generalizing s with
  | zero => exact ⟨s.sched, s.tick, rfl⟩
  | succ k ih =>
    obtain ⟨turns, n, hn⟩ := nextTurn_snd s
    have h1 : ∀ u, State.inq { s with sched := turns, tick := n } u = [] := fun u => (turn_inq s u turns n).trans (hq u)
    have hs : step s = .next { s with sched := turns, tick := n } := by
      rw [step, hn]
      exact turn_quiet h1 hp _
    obtain ⟨turns2, n2, h2⟩ := ih (s := { s with sched := turns, tick := n }) h1 hp
    exact ⟨turns2, n2, by rw [steps_succ_of_next hs, h2]⟩

/-- Every run from such a state with empty output queues is fair, whatever the free value that gives the turns. -/
theorem fair_of_quiet {s : State} (hq : ∀ u, s.inq u = []) (ho : ∀ u, s.outq u = []) (hp : s.host.prog = []) : s.fair := by
  refine ⟨fun u k => ⟨k, Nat.le_refl k, fun t ht => .inl ?_⟩, fun u k t ht hne => absurd ?_ hne⟩
  · obtain ⟨turns, n, h⟩ := steps_quiet hq hp k
    rw [h] at ht
    cases ht
    have hi : State.inq { s with sched := turns, tick := n } u = [] := (turn_inq s u turns n).trans (hq u)
    simp [State.canConsume, State.inValid, hi]
  · obtain ⟨turns, n, h⟩ := steps_quiet hq hp k
    rw [h] at ht
    cases ht
    exact (turn_outq s u turns n).trans (ho u)

end Sys2Proof.Machine
end

