-- ==== Sys2Proof/Laws/Flags.lean ====
section
/-! SUPPORT. The STATUS words as numbers. -/

namespace Sys2Proof.Machine

/-- A concatenation as a number. -/
theorem toNat_concat {n m : Nat} (a : BitVec n) (b : BitVec m) : (a ++ b).toNat = 2 ^ m * a.toNat + b.toNat := by
  rw [BitVec.toNat_append, ← Nat.shiftLeft_add_eq_or_of_lt b.isLt, Nat.shiftLeft_eq, Nat.mul_comm]

theorem toNat_ofBool (b : Bool) : (BitVec.ofBool b).toNat = b.toNat := by cases b <;> rfl

/-- ENC_STATUS: ACTIVE in bit 0, FAULT in bits 7:4 (R31). -/
theorem encStatus_toNat (e : EncState) : e.status.toNat = 16 * e.fault.toNat + e.haveRun.toNat := by
  have h : e.status.toNat = 2 ^ 8 * (0#24).toNat + (2 ^ 4 * e.fault.toNat + (2 ^ 1 * (0#3).toNat + (BitVec.ofBool e.active).toNat)) := by
    rw [← toNat_concat, ← toNat_concat, ← toNat_concat]; rfl
  rw [h, toNat_ofBool]
  simp [EncState.active]

/-- DEC_STATUS: FAULT in bits 7:4 (R33). -/
theorem decStatus_toNat (d : DecState) : d.status.toNat = 16 * d.fault.toNat := by
  have h : d.status.toNat = 2 ^ 8 * (0#24).toNat + (2 ^ 4 * d.fault.toNat + (0#4).toNat) := by
    rw [← toNat_concat, ← toNat_concat]; rfl
  rw [h]
  simp

/-- SEG_STATUS: ACTIVE in bit 0, FAULT in bits 7:4, INFO in bits 11:8 (R40). -/
theorem segStatus_toNat (g : SegState) :
    g.status.toNat = 256 * g.info.toNat + 16 * g.fault.toNat + (if g.phase = .load then 1 else 0) := by
  have h : g.status.toNat =
      2 ^ 12 * (0#20).toNat +
        (2 ^ 8 * g.info.toNat + (2 ^ 4 * g.fault.toNat + (2 ^ 1 * (0#3).toNat + (BitVec.ofBool g.active).toNat))) := by
    rw [← toNat_concat, ← toNat_concat, ← toNat_concat, ← toNat_concat]; rfl
  rw [h, toNat_ofBool]
  cases hp : g.phase <;> (simp [SegState.active, hp]; try omega)

end Sys2Proof.Machine
end

