-- ==== Sys2Proof/Laws/Memory.lean ====
section
/-! SUPPORT. The frame store: read after write, the canonical form kept by every operation, and the bytes a `MemWrite` reaches. -/

namespace Sys2Proof.Machine

/-- A byte reads as what was written to its address last, every other byte as before. -/
theorem read_write (m : Memory) (a x : Nat) (b : Sample) :
    Memory.read (Memory.write m a b) x = if a = x then some b else Memory.read m x := by
  induction m with
  | nil => simp [Memory.write, Memory.read]
  | cons e m ih =>
    obtain ⟨y, c⟩ := e
    simp only [Memory.write]
    by_cases h : a = x
    · subst h
      rw [if_pos rfl]
      split_ifs with h1 h2
      · simp [Memory.read]
      · simp [Memory.read]
      · have h3 : y ≠ a := by omega
        simp [Memory.read, h3, ih]
    · rw [if_neg h]
      split_ifs with h1 h2
      · simp [Memory.read, h]
      · subst h2; simp [Memory.read, h]
      · simp [Memory.read, ih, h]

theorem wf_cons (e : Host.Cell) (m : Memory) :
    Memory.wf (e :: m) = true ↔ (∀ y, m.head? = some y → e.1 < y.1) ∧ Memory.wf m = true := by
  cases m <;> simp [Memory.wf]

theorem head_write (m : Memory) (a : Nat) (b : Sample) (y : Host.Cell) (h : (Memory.write m a b).head? = some y) :
    y.1 = a ∨ m.head? = some y := by
  cases m with
  | nil => simp [Memory.write] at h; simp [← h]
  | cons e m =>
    obtain ⟨z, c⟩ := e
    simp only [Memory.write] at h
    split_ifs at h <;> simp at h <;> subst h <;> simp

/-- A write keeps the canonical form. -/
theorem wf_write (m : Memory) (a : Nat) (b : Sample) (h : Memory.wf m = true) : Memory.wf (Memory.write m a b) = true := by
  induction m with
  | nil => rfl
  | cons e m ih =>
    obtain ⟨z, c⟩ := e
    obtain ⟨hlt, hm⟩ := (wf_cons _ _).1 h
    simp only [Memory.write]
    split_ifs with h1 h2
    · exact (wf_cons _ _).2 ⟨by simpa using h1, h⟩
    · subst h2; exact (wf_cons _ _).2 ⟨hlt, hm⟩
    · refine (wf_cons _ _).2 ⟨fun y hy => ?_, ih hm⟩
      rcases head_write m a b y hy with h3 | h3
      · simp only; omega
      · exact hlt y h3

/-- A write below a bound keeps every address below it. -/
theorem bound_write (m : Memory) (a n : Nat) (b : Sample) (h : ∀ x ∈ m, x.1 < n) (ha : a < n) :
    ∀ x ∈ Memory.write m a b, x.1 < n := by
  induction m with
  | nil => simpa [Memory.write] using ha
  | cons e m ih =>
    obtain ⟨z, c⟩ := e
    obtain ⟨hz, hm⟩ := List.forall_mem_cons.1 h
    simp only [Memory.write]
    split_ifs
    · exact List.forall_mem_cons.2 ⟨ha, h⟩
    · exact List.forall_mem_cons.2 ⟨ha, hm⟩
    · exact List.forall_mem_cons.2 ⟨hz, ih hm⟩

/-- Byte `x` after `MemWrite(a, n, v)`: byte `x - a` of `v` inside the `n` bytes, as before outside (R54). -/
theorem read_writeLE (m : Memory) (a n v x : Nat) :
    Memory.read (Memory.writeLE m a n v) x =
      if a ≤ x ∧ x < a + n then some (BitVec.ofNat 8 (v / 256 ^ (x - a))) else Memory.read m x := by
  induction n generalizing m a v with
  | zero =>
    have h : ¬(a ≤ x ∧ x < a + 0) := by omega
    simp only [Memory.writeLE, h, if_false]
  | succ n ih =>
    rw [Memory.writeLE, ih, read_write]
    by_cases h : a = x
    · subst h; simp
    · by_cases h2 : a + 1 ≤ x ∧ x < a + 1 + n
      · have h3 : a ≤ x ∧ x < a + (n + 1) := by omega
        have h4 : x - a = x - (a + 1) + 1 := by omega
        simp only [h2, h3, and_self, if_true, h4, Nat.div_div_eq_div_mul, Nat.pow_succ']
      · have h3 : ¬(a ≤ x ∧ x < a + (n + 1)) := by omega
        simp only [h2, h3, h, if_false]

theorem wf_writeLE (m : Memory) (a n v : Nat) (h : Memory.wf m = true) : Memory.wf (Memory.writeLE m a n v) = true := by
  induction n generalizing m a v with
  | zero => exact h
  | succ n ih => exact ih _ _ _ (wf_write _ _ _ h)

theorem bound_writeLE (m : Memory) (a n v k : Nat) (h : ∀ x ∈ m, x.1 < k) (ha : a + n ≤ k) :
    ∀ x ∈ Memory.writeLE m a n v, x.1 < k := by
  induction n generalizing m a v with
  | zero => exact h
  | succ n ih => exact ih _ _ _ (bound_write _ _ _ _ h (by omega)) (by omega)

/-- A byte of the store after `MemWrite(a, n, v)` (R54). -/
theorem byte_memWrite (g : SegState) (a n v x : Nat) :
    (g.memWrite a n v).byte x = if a ≤ x ∧ x < a + n then BitVec.ofNat 8 (v / 256 ^ (x - a)) else g.byte x := by
  simp only [SegState.byte, SegState.memWrite, read_writeLE]
  split_ifs <;> rfl

/-- `MemWrite` keeps SEG's store in canonical form. -/
theorem wf_memWrite (g : SegState) (a n v : Nat) (h : Memory.wf g.fs = true) : Memory.wf (g.memWrite a n v).fs = true := wf_writeLE _ _ _ _ h

/-- `MemRead` depends on the bytes it reads only. -/
theorem memRead_congr (g g' : SegState) (a n : Nat) (h : ∀ x, a ≤ x → x < a + n → g.byte x = g'.byte x) :
    g.memRead a n = g'.memRead a n := by
  induction n generalizing a with
  | zero => rfl
  | succ n ih =>
    rw [SegState.memRead, SegState.memRead, h a (by omega) (by omega), ih (a + 1) fun x h1 h2 => h x (by omega) (by omega)]

/-- Pixel `i` is the three bytes at `3i` in flat order (R53). -/
theorem pixel_eq (g : SegState) (i : Nat) : g.pixel i = ⟨g.byte (3 * i), g.byte (3 * i + 1), g.byte (3 * i + 2)⟩ := by
  have h0 := (g.byte (3 * i)).isLt
  have h1 := (g.byte (3 * i + 1)).isLt
  have h2 := (g.byte (3 * i + 2)).isLt
  have e : 3 * i + 1 + 1 = 3 * i + 2 := by omega
  simp only [SegState.pixel, pixelAddr, SegState.memRead, Pixel.ofNat24, Pixel.mk.injEq, Nat.mul_zero, Nat.add_zero, e]
  refine ⟨?_, ?_, ?_⟩ <;> apply BitVec.eq_of_toNat_eq <;> simp only [BitVec.toNat_ofNat] <;> omega

end Sys2Proof.Machine
end

