-- ==== Sys2Proof/Laws/PerInstr.lean ====
section
/-! SUPPORT. One fact for each instruction as syntax: its encoding stands in its row of the opcode table. -/

namespace Sys2Proof.Laws.EncodingRow

/-- The row of an instruction: its input port and token kind (R80), or the `we` bit of a register request (R82). -/
def row : Instr → (UnitId × Code) ⊕ Bool
  | .segHdr _ _ _ => .inl (.seg, 0x3)
  | .segPix _ _ _ => .inl (.seg, 0x2)
  | .segEnd => .inl (.seg, 0x4)
  | .segErr _ _ => .inl (.seg, 0x5)
  | .encData _ => .inl (.enc, 0x0)
  | .encEnd => .inl (.enc, 0x4)
  | .encErr _ _ => .inl (.enc, 0x5)
  | .decRun _ _ => .inl (.dec, 0x1)
  | .decEnd => .inl (.dec, 0x4)
  | .decErr _ _ => .inl (.dec, 0x5)
  | .rd _ => .inr false
  | .wr _ _ => .inr true

/-- The encoded word goes to the row's port, has the row's kind or `we` bit, and its unused bits are 0 (R79, R80, R82). -/
def Statement (i : Instr) : Prop :=
  match encode i, row i with
  | .token u w, .inl (v, k) => u = v ∧ kindOf w = k ∧ canonicalWord w = true
  | .request w, .inr b => weField w = b
  | .token _ _, .inr _ => False
  | .request _, .inl _ => False

/-- A token's word has its unused bits 0. -/
theorem canonicalWord_word (t : Token) : canonicalWord t.word = true := by simp [canonicalWord]

/-- The top bit of a request word. -/
theorem weField_request (b : Bool) (idx : RegIdx) (v : RegWord) : weField (BitVec.ofBool b ++ (idx ++ v) : BitVec 37) = b := by
  unfold weField
  rw [BitVec.getLsbD_append]
  cases b <;> rfl

theorem segHdr (h w : Dim) (c : Sample) : Statement (.segHdr h w c) := ⟨rfl, kindOf_word _, canonicalWord_word _⟩

theorem segPix (a b c : Sample) : Statement (.segPix a b c) := ⟨rfl, kindOf_word _, canonicalWord_word _⟩

theorem segEnd : Statement .segEnd := ⟨rfl, kindOf_word _, canonicalWord_word _⟩

theorem segErr (c i : Code) : Statement (.segErr c i) := ⟨rfl, kindOf_word _, canonicalWord_word _⟩

theorem encData (v : Sample) : Statement (.encData v) := ⟨rfl, kindOf_word _, canonicalWord_word _⟩

theorem encEnd : Statement .encEnd := ⟨rfl, kindOf_word _, canonicalWord_word _⟩

theorem encErr (c i : Code) : Statement (.encErr c i) := ⟨rfl, kindOf_word _, canonicalWord_word _⟩

theorem decRun (v : Sample) (c : Count) : Statement (.decRun v c) := ⟨rfl, kindOf_word _, canonicalWord_word _⟩

theorem decEnd : Statement .decEnd := ⟨rfl, kindOf_word _, canonicalWord_word _⟩

theorem decErr (c i : Code) : Statement (.decErr c i) := ⟨rfl, kindOf_word _, canonicalWord_word _⟩

theorem rd (idx : RegIdx) : Statement (.rd idx) := weField_request false idx 0

theorem wr (idx : RegIdx) (v : RegWord) : Statement (.wr idx v) := weField_request true idx v

end Sys2Proof.Laws.EncodingRow
end

