-- ==== Sys2Proof/Machine/Text.lean ====
section
/-! DEFINITION. The textual form of a program (R84, R85): from the characters of a line to the line it stands for. What the spec does not
say about the text (blanks, letter case, numbers out of range, how a pixel of FRAME is written) is in log 21. -/

namespace Sys2Proof.Machine

/-- A word of a line, as its characters. -/
abbrev Chars := List Char

/-- The characters that are words of their own. -/
def isMark (c : Char) : Bool := c == ':' || c == ',' || c == '[' || c == ']' || c == '(' || c == ')'

/-- End the word read so far (its characters in reverse). -/
def endWord (acc : Chars) (rest : List Chars) : List Chars := if acc.isEmpty then rest else acc.reverse :: rest

/-- The words of a line: blanks separate, marks stand alone, `#` starts a comment (R84). -/
def splitLine : Chars → List Char → List Chars
  | acc, [] => endWord acc []
  | acc, c :: cs =>
    if c == '#' then endWord acc []
    else if c == ' ' || c == '\t' then endWord acc (splitLine [] cs)
    else if isMark c then endWord acc ([c] :: splitLine [] cs)
    else splitLine (c :: acc) cs

/-- The value of a digit below 16. DESIGN CHOICE: the letters of a hexadecimal digit are `A` to `F` or `a` to `f`, of which R8 and R84 say
nothing (log 21). -/
def digit (c : Char) : Option Nat :=
  let n := c.toNat
  if 48 ≤ n ∧ n ≤ 57 then some (n - 48)
  else if 65 ≤ n ∧ n ≤ 70 then some (n - 55)
  else if 97 ≤ n ∧ n ≤ 102 then some (n - 87)
  else none

/-- The value of digits in a base, after a value read so far; `_` is a visual separator (R8). DESIGN CHOICE: R8 speaks of an underscore
inside a number, and one at its end or right after `0x` is skipped as well (log 21). -/
def digits (base : Nat) : Nat → Chars → Option Nat
  | acc, [] => some acc
  | acc, c :: cs =>
    if c == '_' then digits base acc cs
    else
      match digit c with
      | some d => if d < base then digits base (base * acc + d) cs else none
      | none => none

/-- A number: decimal, or hexadecimal after `0x` (R84). DESIGN CHOICE: `0X`, and a leading underscore, begin no number, and leading zeros
have no meaning (log 21). -/
def number (w : Chars) : Option Nat :=
  match w with
  | [] => none
  | ['0', 'x'] => none
  | '0' :: 'x' :: cs => digits 16 0 cs
  | c :: cs => if c == '_' then none else digits 10 0 (c :: cs)

/-- A number that fits a field of `n` bits; one that does not is no operand (log 21). -/
def field (n : Nat) (w : Chars) : Option (BitVec n) :=
  match number w with
  | some v => if v < 2 ^ n then some (BitVec.ofNat n v) else none
  | none => none

/-- The input port a word names. -/
def inPort (w : Chars) : Option UnitId :=
  if w == ['e', 'n', 'c', '_', 'i', 'n'] then some .enc
  else if w == ['d', 'e', 'c', '_', 'i', 'n'] then some .dec
  else if w == ['s', 'e', 'g', '_', 'i', 'n'] then some .seg
  else none

/-- The output port a word names. -/
def outPort (w : Chars) : Option UnitId :=
  if w == ['e', 'n', 'c', '_', 'o', 'u', 't'] then some .enc
  else if w == ['d', 'e', 'c', '_', 'o', 'u', 't'] then some .dec
  else if w == ['s', 'e', 'g', '_', 'o', 'u', 't'] then some .seg
  else none

/-- The unit a word names, in `SRST`. -/
def unitName (w : Chars) : Option UnitId :=
  if w == ['E', 'N', 'C'] then some .enc
  else if w == ['D', 'E', 'C'] then some .dec
  else if w == ['S', 'E', 'G'] then some .seg
  else none

/-- The names of R29. -/
def regNames : List (Chars × RegIdx) :=
  [(['E', 'N', 'C', '_', 'C', 'T', 'R', 'L'], 0), (['E', 'N', 'C', '_', 'S', 'T', 'A', 'T', 'U', 'S'], 1),
    (['D', 'E', 'C', '_', 'C', 'T', 'R', 'L'], 2), (['D', 'E', 'C', '_', 'S', 'T', 'A', 'T', 'U', 'S'], 3),
    (['S', 'E', 'G', '_', 'C', 'T', 'R', 'L'], 4), (['S', 'E', 'G', '_', 'H', '_', 'L', 'O'], 5),
    (['S', 'E', 'G', '_', 'H', '_', 'H', 'I'], 6), (['S', 'E', 'G', '_', 'S', '_', 'M', 'I', 'N'], 7),
    (['S', 'E', 'G', '_', 'V', '_', 'M', 'I', 'N'], 8), (['S', 'E', 'G', '_', 'O', 'P', 'E', 'N', '_', 'E', 'N'], 9),
    (['S', 'E', 'G', '_', 'S', 'T', 'A', 'T', 'U', 'S'], 10)]

/-- A register by name or index (R84). -/
def register (w : Chars) : Option RegIdx :=
  match regNames.lookup w with
  | some i => some i
  | none => field 4 w

/-- The samples of `SEQ`, after `[`. -/
def seqItems : List Chars → Option (List Sample)
  | [v, [']']] => (field 8 v).map fun x => [x]
  | v :: [','] :: rest =>
    match field 8 v, seqItems rest with
    | some x, some xs => some (x :: xs)
    | _, _ => none
  | _ => none

/-- The pairs of `RUNS`, after `[`. -/
def runItems : List Chars → Option (List Run)
  | [['('], v, [','], c, [')'], [']']] =>
    match field 8 v, field 32 c with
    | some x, some n => some [(x, n.toNat)]
    | _, _ => none
  | ['('] :: v :: [','] :: c :: [')'] :: [','] :: rest =>
    match field 8 v, field 32 c, runItems rest with
    | some x, some n, some r => some ((x, n.toNat) :: r)
    | _, _, _ => none
  | _ => none

/-- Three operands as a pixel, blue, green, red. -/
def pixelOf (a b c : Chars) : Option Pixel :=
  match field 8 a, field 8 b, field 8 c with
  | some x, some y, some z => some ⟨x, y, z⟩
  | _, _, _ => none

/-- The pixels of `FRAME`, after `[`, each written `(c0, c1, c2)` (log 21). -/
def pixItems : List Chars → Option (List Pixel)
  | [['('], a, [','], b, [','], c, [')'], [']']] => (pixelOf a b c).map fun p => [p]
  | ['('] :: a :: [','] :: b :: [','] :: c :: [')'] :: [','] :: rest =>
    match pixelOf a b c, pixItems rest with
    | some p, some ps => some (p :: ps)
    | _, _ => none
  | _ => none

/-- What stands after `<port>:` (R84, R85). DESIGN CHOICE: a FRAME line whose list does not hold `h x w` pixels, of which R85 says nothing, is
accepted and expanded as written; the number of a WORD line may be decimal (log 21). -/
def offerLine (u : UnitId) (ws : List Chars) : Option Line :=
  match ws with
  | [] => none
  | op :: args =>
    if op == ['D', 'A', 'T', 'A'] then
      match args with
      | [v] => (field 8 v).map fun x => .token u (.data x)
      | _ => none
    else if op == ['R', 'U', 'N'] then
      match args with
      | [v, [','], c] =>
        match field 8 v, field 32 c with
        | some x, some n => some (.token u (.run x n))
        | _, _ => none
      | _ => none
    else if op == ['P', 'I', 'X'] then
      match args with
      | [a, [','], b, [','], c] => (pixelOf a b c).map fun p => .token u (.pix p)
      | _ => none
    else if op == ['H', 'D', 'R'] then
      match args with
      | [h, [','], w, [','], c] =>
        match field 16 h, field 16 w, field 8 c with
        | some x, some y, some z => some (.token u (.hdr x y z))
        | _, _, _ => none
      | _ => none
    else if op == ['E', 'N', 'D'] then
      match args with
      | [] => some (.token u .fin)
      | _ => none
    else if op == ['E', 'R', 'R'] then
      match args with
      | [c, [','], i] =>
        match field 4 c, field 4 i with
        | some x, some y => some (.token u (.err x y))
        | _, _ => none
      | _ => none
    else if op == ['W', 'O', 'R', 'D'] then
      match args with
      | [v] => (field 44 v).map fun x => .word u x
      | _ => none
    else if op == ['S', 'E', 'Q'] then
      match args with
      | [['['], [']']] => some (.seq u [])
      | ['['] :: rest => (seqItems rest).map fun x => .seq u x
      | _ => none
    else if op == ['R', 'U', 'N', 'S'] then
      match args with
      | [['['], [']']] => some (.runs u [])
      | ['['] :: rest => (runItems rest).map fun r => .runs u r
      | _ => none
    else if op == ['F', 'R', 'A', 'M', 'E'] then
      match args with
      | [h, [','], w, [','], ['['], [']']] =>
        match field 16 h, field 16 w with
        | some x, some y => some (.frame u x.toNat y.toNat [])
        | _, _ => none
      | h :: [','] :: w :: [','] :: ['['] :: rest =>
        match field 16 h, field 16 w, pixItems rest with
        | some x, some y, some p => some (.frame u x.toNat y.toNat p)
        | _, _, _ => none
      | _ => none
    else none

/-- `->`, between the ports of PIPE. -/
def arrow : Chars := ['-', '>']

/-- The operands of PIPE (R85). DESIGN CHOICE: `->` is a word of its own, with blanks around it (log 21). -/
def pipeLine (args : List Chars) : Option Line :=
  match args with
  | [src, a, dst] =>
    if a == arrow then
      match outPort src, inPort dst with
      | some u, some v => some (.pipe u v)
      | _, _ => none
    else none
  | [src, a, f, b, dst] =>
    if a == arrow && b == arrow && f == ['F', 'L', 'A', 'T'] && outPort src == some .seg && inPort dst == some .enc then some .pipeFlat
    else none
  | _ => none

/-- The line of its words (R84, R85); none where the words are no line. -/
def parseWords (ws : List Chars) : Option Line :=
  match ws with
  | [] => none
  | op :: args =>
    if op == ['T', 'A', 'K', 'E'] then
      match args with
      | [p] => (outPort p).map .take
      | _ => none
    else if op == ['W', 'R'] then
      match args with
      | [r, [','], v] =>
        match register r, field 32 v with
        | some i, some x => some (.wr i x)
        | _, _ => none
      | _ => none
    else if op == ['R', 'D'] then
      match args with
      | [r] => (register r).map .rd
      | _ => none
    else if op == ['R', 'E', 'S', 'E', 'T'] then
      match args with
      | [] => some .reset
      | _ => none
    else if op == ['S', 'R', 'S', 'T'] then
      match args with
      | [u] => (unitName u).map .srst
      | _ => none
    else if op == ['D', 'R', 'A', 'I', 'N'] then
      match args with
      | [p] => (outPort p).map .drain
      | _ => none
    else if op == ['P', 'I', 'P', 'E'] then pipeLine args
    else
      match inPort op, args with
      | some u, [':'] :: rest => offerLine u rest
      | _, _ => none

/-- The lines of a program's text; a line of blanks or comment stands for nothing (R84). DESIGN CHOICE: a text with a line that is none has no
meaning (log 21). -/
def parseProgram : List (List Char) → Option (List Line)
  | [] => some []
  | cs :: rest =>
    match splitLine [] cs with
    | [] => parseProgram rest
    | ws =>
      match parseWords ws, parseProgram rest with
      | some l, some ls => some (l :: ls)
      | _, _ => none

/-- The host operations of a program's text. -/
def assembleText (p : List (List Char)) : Option (List HostOp) := (parseProgram p).map assemble

end Sys2Proof.Machine
end

