-- ==== Sys2Proof/Tests/Slice0.lean ====
section
/-! SUPPORT. Tests: each well-formedness check refuses an ill-formed term, decoding of words written out from 30_encoding.md, one step per
instruction against the vectors of 95_test_vectors.md, and for each obligation with hypotheses values that meet them. -/

namespace Sys2Proof.Tests

open Sys2Proof.Machine

/-- Whether an outcome is a next state that passes a check. -/
def after (r : Result) (p : State → Bool) : Bool :=
  match r with
  | .next t => p t
  | .fault _ => false
  | .refused _ => false

/-- Whether a decoding result is a given instruction. -/
def isInstr (r : Except DecodeError Instr) (i : Instr) : Bool :=
  match r with
  | .ok j => decide (j = i)
  | .error _ => false

/-- Whether a decoding result is a rejection of a given name. -/
def isReject (r : Except DecodeError Instr) (e : DecodeError) : Bool :=
  match r with
  | .ok _ => false
  | .error f => decide (f = e)

/-! ### Well-formedness: the ill-formed is refused -/

theorem test_runWf_refuses_zero_count : Run.wf (9, 0) = false ∧ Run.wf (9, 1) = true := by decide

theorem test_runFits_refuses_out_of_range :
    Run.fits (9, 0) = false ∧ Run.fits (9, 4294967296) = false ∧ Run.fits (9, 4294967295) = true := by decide

/-- S5: [(7,2), (7,3)] is not canonical. -/
theorem test_canonicalRuns_refuses_equal_neighbours :
    canonicalRuns [(7, 2), (7, 3)] = false ∧ canonicalRuns [(7, 2), (8, 3), (7, 1)] = true := by decide

theorem test_frameWf_refuses_bad_shapes :
    frameWf 0 1 [] = false ∧ frameWf 1 0 [] = false ∧ frameWf 201 1 [] = false ∧ frameWf 1 201 [] = false ∧
      frameWf 1 2 [Pixel.black] = false ∧ frameWf 1 1 [Pixel.black] = true := by decide

theorem test_encSequence_refuses_other_kinds :
    encSequence [.data 5] = false ∧ encSequence [.run 5 3, .fin] = false ∧ encSequence [.fin, .fin] = false ∧
      encSequence [.data 5, .fin] = true := by decide

theorem test_decSequence_refuses_other_kinds :
    decSequence [.run 5 3] = false ∧ decSequence [.data 5, .fin] = false ∧ decSequence [.run 5 3, .fin] = true := by decide

theorem test_pixelsThenEnd_refuses_wrong_number :
    pixelsThenEnd 1 [.fin] = false ∧ pixelsThenEnd 0 [.pix Pixel.black, .fin] = false ∧
      pixelsThenEnd 1 [.pix Pixel.black, .fin] = true := by decide

theorem test_segSequence_refuses_bad_frames :
    segSequence [.hdr 1 1 4, .pix Pixel.black, .fin] = false ∧ segSequence [.hdr 0 1 3, .fin] = false ∧
      segSequence [.hdr 1 2 3, .pix Pixel.black, .fin] = false ∧ segSequence [.fin] = false ∧
      segSequence [.hdr 1 1 3, .pix Pixel.black, .fin] = true := by decide

theorem test_canonicalWord_refuses_unused_bits :
    canonicalWord 0x0ABCDEF1207 = false ∧ canonicalWord 0x60000000000 = false ∧ canonicalWord 0x00000000007 = true := by decide

/-! ### Decoding (V-COD-1 to V-COD-14) -/

theorem test_decode_segHdr : isInstr (decode .seg 0x30002000403) (.segHdr 2 4 3) = true := by decide

theorem test_decode_segPix : isInstr (decode .seg 0x200002BC82C) (.segPix 0x2C 0xC8 0x2B) = true := by decide

theorem test_decode_segEnd : isInstr (decode .seg 0x4FFFFFFFFFF) .segEnd = true := by decide

theorem test_decode_segErr : isInstr (decode .seg 0x5ABCDE00F34) (.segErr 4 3) = true := by decide

theorem test_decode_encData : isInstr (decode .enc 0x0ABCDEF1207) (.encData 7) = true := by decide

theorem test_decode_encEnd : isInstr (decode .enc 0x40000000000) .encEnd = true := by decide

theorem test_decode_encErr : isInstr (decode .enc 0x50000000034) (.encErr 4 3) = true := by decide

theorem test_decode_decRun : isInstr (decode .dec 0x10001D4C000) (.decRun 0 120000) = true := by decide

theorem test_decode_decEnd : isInstr (decode .dec 0x40000000000) .decEnd = true := by decide

theorem test_decode_decErr : isInstr (decode .dec 0x50000000002) (.decErr 2 0) = true := by decide

theorem test_decode_rd : decodeRequest 0x0A00000000 = .rd 10 := by decide

theorem test_decode_wr : decodeRequest 0x1500000023 = .wr 5 35 := by decide

/-- V-COD-13, R81: a reserved kind, and a kind of another port, are rejected by name. -/
theorem test_decode_rejects :
    isReject (decode .seg 0x60000000000) (.reservedKind 6) = true ∧ isReject (decode .dec 0xF0000000000) (.reservedKind 15) = true ∧
      isReject (decode .enc 0x10000000305) (.notAtPort .enc 1) = true ∧ isReject (decode .dec 0x00000000005) (.notAtPort .dec 0) = true ∧
      isReject (decode .seg 0x00000000005) (.notAtPort .seg 0) = true := by decide

/-- V-COD-1 to V-COD-9: the encoder writes the words of the table. -/
theorem test_encode_words :
    (Token.data 5).word = 0x00000000005 ∧ (Token.run 5 3).word = 0x10000000305 ∧ (Token.pix ⟨43, 200, 43⟩).word = 0x200002BC82B ∧
      (Token.hdr 2 4 3).word = 0x30002000403 ∧ Token.fin.word = 0x40000000000 ∧ (Token.err 4 3).word = 0x50000000034 := by decide

/-- Rows of the opcode table, numbered as the table numbers them. -/
theorem test_decodeTableWord :
    decodeTableWord 44 0x30002000403 = some (.segHdr 2 4 3) ∧ decodeTableWord 44 0x00000000005 = some (.encData 5) ∧
      decodeTableWord 44 0x10000000305 = some (.decRun 5 3) ∧ decodeTableWord 40 0x1500000023 = some (.wr 5 35) ∧
      decodeTableWord 44 0x60000000000 = none := by decide

/-! ### States the tests start from -/

/-- A state with ENC's registers as the columns `have, cur, cnt` of V-ENC give them. -/
def withEnc (h : Bool) (v : Sample) (c : Count) : State := { State.reset with enc := { EncState.reset with haveRun := h, cur := v, cnt := c } }

/-- SEG in LOAD with a frame of `h x w`, the pixels stored from byte 0, at the reset thresholds. -/
def segLoaded (h w : Dim) (n : Dim) (m : Memory) : State :=
  { State.reset with
    seg := { SegState.reset with phase := .load, h := h, w := w, n := n, aHlo := 30, aHhi := 90, aSmin := 40, aVmin := 40, aOpen := true, fs := m } }

/-- The bytes of a list of pixels from an address on. -/
def bytesFrom : Nat → List Pixel → Memory
  | _, [] => []
  | a, p :: ps => (a, p.c0) :: (a + 1, p.c1) :: (a + 2, p.c2) :: bytesFrom (a + 3) ps

/-- A halted unit's state. -/
def halted : State :=
  { State.reset with
    enc := { EncState.reset with fault := 1 }, dec := { DecState.reset with fault := 3 }, seg := { SegState.reset with fault := 4, info := 4 } }

/-- The host's turn, with a RUN taken from ENC and a DATA taken from DEC of sequences not yet closed. -/
def cutState : State :=
  { State.reset with sched := [.host], host := { HostState.reset with encTaken := [0x10000000207], decTaken := [0x00000000005] } }

/-- The pixels G and Y of V-SEG-7. -/
def pixG : Pixel := ⟨43, 200, 43⟩

def pixY : Pixel := ⟨100, 100, 100⟩

/-! ### One step of each instruction -/

/-- V-SEG-5: `HDR(201, 1, 3)` is TOO_LARGE, SEG_STATUS 0x340. -/
theorem test_segHdr_too_large :
    after (exec (.segHdr 201 1 3) State.reset) (fun t => t.seg.outq == [0x50000000034] && t.regValue 10 == 0x340) = true := by decide

/-- V-SEG-5, V-SEG-15: `HDR(200, 200, 3)` opens a frame and latches the thresholds. -/
theorem test_segHdr_accepted :
    after (exec (.segHdr 200 200 3) State.reset) (fun t => t.seg.outq == [] && t.regValue 10 == 1 && t.seg.aHhi == 90 && t.seg.aOpen) =
      true := by decide

/-- V-SEG-7, R53: the second pixel goes to bytes 3, 4, 5, channel 0 first. -/
theorem test_segPix_stores :
    after (exec (.segPix 1 2 3) (segLoaded 1 2 1 (bytesFrom 0 [pixG])))
      (fun t => t.seg.fs == [(0, 43), (1, 200), (2, 43), (3, 1), (4, 2), (5, 3)] && t.seg.n == 2) = true := by decide

/-- V-SEG-6: one PIX too many is LENGTH, SEG_STATUS 0x441. -/
theorem test_segPix_length :
    after (exec (.segPix 1 2 3) (segLoaded 1 1 1 (bytesFrom 0 [pixG])))
      (fun t => t.seg.outq == [0x50000000044] && t.regValue 10 == 0x441 && t.seg.n == 1) = true := by decide

/-- V-SEG-11: frame 1x5, `G G G Y G` gives `G G G 0 0`. -/
theorem test_segEnd_opening :
    after (exec .segEnd (segLoaded 1 5 5 (bytesFrom 0 [pixG, pixG, pixG, pixY, pixG])))
      (fun t =>
        t.seg.outq ==
          [0x30001000503, 0x200002BC82B, 0x200002BC82B, 0x200002BC82B, 0x20000000000, 0x20000000000, 0x40000000000] &&
        t.regValue 10 == 0) = true := by decide +kernel

/-- V-SEG-6: END before the last pixel is LENGTH. -/
theorem test_segEnd_length :
    after (exec .segEnd (segLoaded 1 2 1 (bytesFrom 0 [pixG]))) (fun t => t.seg.outq == [0x50000000044] && t.regValue 10 == 0x441) =
      true := by decide

/-- V-SEG-14: ERR in LOAD is forwarded, SEG idle, no fault. -/
theorem test_segErr_in_load :
    after (exec (.segErr 3 0) (segLoaded 2 2 3 [])) (fun t => t.seg.outq == [0x50000000003] && t.regValue 10 == 0 && t.seg.n == 0) =
      true := by decide

/-- V-ENC-3. -/
theorem test_encData_change :
    after (exec (.encData 2) (withEnc true 5 3))
      (fun t => decide (t.enc = { haveRun := true, cur := 2, cnt := 1, fault := 0, outq := [0x10000000305] })) = true := by decide

/-- V-ENC-11. -/
theorem test_encData_overflow :
    after (exec (.encData 7) (withEnc true 7 4294967295))
      (fun t => t.enc.cnt == 4294967295 && t.enc.outq == [0x50000000002] && t.regValue 1 == 0x21 && t.irq .enc) = true := by decide

/-- V-ENC-10. -/
theorem test_encEnd_flush :
    after (exec .encEnd (withEnc true 7 4294967295)) (fun t => t.enc.outq == [0x1FFFFFFFF07, 0x40000000000] && t.regValue 1 == 0) =
      true := by decide

/-- V-ENC-14: the open run (3, 1) is dropped. -/
theorem test_encErr_drops_run :
    after (exec (.encErr 4 4) (withEnc true 3 1)) (fun t => t.enc.outq == [0x50000000044] && t.enc.cnt == 0 && t.regValue 1 == 0) =
      true := by decide

/-- V-DEC-1. -/
theorem test_decRun_expands :
    after (exec (.decRun 5 3) State.reset) (fun t => t.dec.outq == [0x00000000005, 0x00000000005, 0x00000000005]) = true := by decide

/-- V-DEC-5. -/
theorem test_decRun_zero :
    after (exec (.decRun 9 0) State.reset) (fun t => t.dec.outq == [0x50000000003] && t.regValue 3 == 0x30 && t.irq .dec) = true := by
  decide

/-- V-DEC-3. -/
theorem test_decEnd : after (exec .decEnd State.reset) (fun t => t.dec.outq == [0x40000000000]) = true := by decide

/-- V-DEC-8: forwarding is not a fault. -/
theorem test_decErr : after (exec (.decErr 2 0) State.reset) (fun t => t.dec.outq == [0x50000000002] && t.regValue 3 == 0) = true := by decide

/-- V-HOST-1. -/
theorem test_rd_reset_values :
    [State.reset.regValue 0, State.reset.regValue 4, State.reset.regValue 5, State.reset.regValue 6, State.reset.regValue 7,
      State.reset.regValue 8, State.reset.regValue 9, State.reset.regValue 10, State.reset.regValue 15] =
        [0, 0, 0x1E, 0x5A, 0x28, 0x28, 1, 0, 0] := by decide

/-- V-HOST-5: ENC_STATUS with a run open. -/
theorem test_rd_status : after (exec (.rd 1) (withEnc true 5 2)) (fun t => t.host.reads == [1]) = true := by decide

/-- V-HOST-2, V-HOST-3: bits a register does not implement are ignored. -/
theorem test_wr_ignores_bits :
    after (exec (.wr 5 0x123) State.reset) (fun t => t.regValue 5 == 0x23) = true ∧
      after (exec (.wr 9 0xFFFFFFFE) State.reset) (fun t => t.regValue 9 == 0) = true := by decide

/-- V-HOST-6, V-ENC-15: bit 0 of CTRL decides whether there is a soft reset. -/
theorem test_wr_ctrl :
    after (exec (.wr 0 2) (withEnc true 5 2)) (fun t => t.enc.haveRun) = true ∧
      after (exec (.wr 0 1) (withEnc true 5 2)) (fun t => decide (t.enc = EncState.reset)) = true := by decide

/-- V-ENC-12: a token of another port's kind at ENC's turn. -/
theorem test_step_illegal :
    after (step { withEnc true 5 2 with sched := [.unit .enc], host := { HostState.reset with encIn := [0x10000000305, 0x00000000006] } })
      (fun t => t.enc.outq == [0x50000000001] && t.regValue 1 == 0x11 && t.host.encIn == [0x00000000006]) = true := by decide

/-- A placed word is the very next step's instruction. -/
theorem test_withFetchWord :
    after (step (State.reset.withFetchWord 44 0x10000000207)) (fun t => t.dec.outq == [0x00000000007, 0x00000000007]) = true ∧
      after (step (State.reset.withFetchWord 40 0x1500000023)) (fun t => t.seg.hLo == 35) = true := by decide

theorem test_reset_memory : Memory.wf State.reset.seg.fs = true := by decide

/-! ### What the units compute -/

/-- V-SEG-1: a negative hue wraps to 179, ties for the largest channel go to red, then green; saturation is rounded. -/
theorem test_hsvRef :
    hsvRef ⟨5, 0, 255⟩ = ⟨179, 255, 255⟩ ∧ hsvRef ⟨4, 0, 255⟩ = ⟨0, 255, 255⟩ ∧ hsvRef ⟨254, 255, 255⟩ = ⟨30, 1, 255⟩ ∧
      hsvRef ⟨128, 128, 127⟩ = ⟨90, 2, 128⟩ ∧ hsvRef ⟨170, 200, 170⟩ = ⟨60, 38, 200⟩ := by decide +kernel

/-- V-SEG-7. -/
theorem test_erode_opening :
    erode 2 4 [true, true, false, true, true, true, false, false] = [true, false, false, false, true, false, false, false] ∧
      opening 2 4 [true, true, false, true, true, true, false, false] = [true, true, false, false, true, true, false, false] := by
  decide +kernel

/-- S1. -/
theorem test_rleEncode : rleEncode [5, 5, 5, 2, 2, 9] = [(5, 3), (2, 2), (9, 1)] := by decide

/-- S2: 75 percent. -/
theorem test_ratio : ratio .zero 4 1 = some 75 := by decide +kernel

/-- P3: FLAT on one pixel. -/
theorem test_flat : flat [0x30002000403, 0x200002BC82B, 0x40000000000] = [0x0000000002B, 0x000000000C8, 0x0000000002B, 0x40000000000] := by
  decide

/-- R228: a sequence partly taken is cut off; END and ERR both end what stays. -/
theorem test_closedPart :
    closedPart [0x10000000105, 0x40000000000, 0x10000000207] = [0x10000000105, 0x40000000000] ∧ closedPart [0x10000000105] = [] ∧
      closedPart [0x10000000105, 0x50000000001] = [0x10000000105, 0x50000000001] := by decide

/-- R228: after `SRST ENC` and after RESET the RUN taken before is discarded, what was taken from DEC by RESET only. -/
theorem test_reset_discards :
    after (step { cutState with host := { cutState.host with prog := [.request 0x1000000001] } })
        (fun t => t.taken .enc == [] && t.taken .dec == [0x00000000005]) = true ∧
      after (step { cutState with host := { cutState.host with prog := [.reset] } })
        (fun t => t.taken .enc == [] && t.taken .dec == []) = true := by decide

/-- V-ENC-14: the receiver discards RUN(7, 2), and keeps the sequence after the ERR. -/
theorem test_keptSequences : keptSequences [] [0x10000000207, 0x50000000044, 0x10000000101, 0x40000000000] = [[0x10000000101]] := by decide

/-- P1: N = 6, M = 3. -/
theorem test_counts :
    dataCount (wordsOf (toksData [5, 5, 5, 2, 2, 9])) = 6 ∧ runCount [0x10000000305, 0x10000000202, 0x10000000109, 0x40000000000] = 3 := by
  decide

/-- R85: `SRST SEG` is `WR SEG_CTRL, 1`, the word 0x14_00000001 (V-COD-14). -/
theorem test_srst : (Line.srst .seg).expand = [.request 0x1400000001] := by decide

/-- P1 and P4: program text, with a comment and a name of a register. -/
theorem test_text :
    assembleText ["enc_in: SEQ [5, 9]   # two runs".toList, "".toList, "RD DEC_STATUS".toList, "PIPE enc_out -> dec_in".toList] =
      some
        [.offer .enc 0x00000000005, .offer .enc 0x00000000009, .offer .enc 0x40000000000, .request 0x0300000000, .pipe .enc .dec] := by
  decide +kernel

/-- A hexadecimal word is offered as it is; a sample of 256 is no line. -/
theorem test_text_word :
    assembleText ["dec_in: WORD 0x6_00000000_00".toList] = some [.offer .dec 0x60000000000] ∧
      assembleText ["enc_in: DATA 256".toList] = none := by decide +kernel

/-! ### Values that meet the hypotheses of the obligations -/

theorem witness_SegHdrOpensFrame :
    (0x30001000103#44).extractLsb' 40 4 = 3#4 ∧ State.reset.seg.fault = 0 ∧ State.reset.seg.phase = .idle ∧
      (segLoaded 1 1 0 []).seg.fault = 0 ∧ (segLoaded 1 1 0 []).seg.phase = .load ∧ (4#8 ≠ 3 ∧ 2#8 ≠ 3) ∧
      (0#16 = 0 ∨ 1#16 = 0) ∧ (201#16 ≠ 0 ∧ (200 < (201#16).toNat ∨ 200 < (1#16).toNat)) ∧
      (1 ≤ (1#16).toNat ∧ (1#16).toNat ≤ 200) ∧ 1 ≤ (200#16).toNat ∧ (200#16).toNat ≤ 200 := by decide

/-- Idle; full at 1 x 1; room for one at 1 x 1; room for the last of 200 x 200. -/
theorem witness_SegPixLoadsPixel :
    (0x200002BC82B#44).extractLsb' 40 4 = 2#4 ∧ State.reset.seg.phase = .idle ∧
      (segLoaded 1 1 1 []).seg.n.toNat = (segLoaded 1 1 1 []).seg.h.toNat * (segLoaded 1 1 1 []).seg.w.toNat ∧
      (segLoaded 1 1 0 []).seg.n.toNat < (segLoaded 1 1 0 []).seg.h.toNat * (segLoaded 1 1 0 []).seg.w.toNat ∧
      (segLoaded 200 200 39999 []).seg.n.toNat <
        (segLoaded 200 200 39999 []).seg.h.toNat * (segLoaded 200 200 39999 []).seg.w.toNat ∧
      (segLoaded 200 200 39999 []).seg.h.toNat * (segLoaded 200 200 39999 []).seg.w.toNat ≤ 40000 ∧
      (segLoaded 200 200 39999 []).seg.fault = 0 ∧ (segLoaded 200 200 39999 []).seg.phase = .load := by decide

theorem witness_SegEndEmitsFrame :
    (0x40000000000#44).extractLsb' 40 4 = 4#4 ∧ State.reset.seg.phase = .idle ∧
      (segLoaded 1 2 1 []).seg.n.toNat ≠ (segLoaded 1 2 1 []).seg.h.toNat * (segLoaded 1 2 1 []).seg.w.toNat ∧
      (segLoaded 200 200 40000 []).seg.n.toNat =
        (segLoaded 200 200 40000 []).seg.h.toNat * (segLoaded 200 200 40000 []).seg.w.toNat ∧
      (segLoaded 200 200 40000 []).seg.h.toNat * (segLoaded 200 200 40000 []).seg.w.toNat ≤ 40000 ∧
      (segLoaded 200 200 40000 []).seg.fault = 0 ∧ (segLoaded 200 200 40000 []).seg.phase = .load := by decide

theorem witness_ErrForwardsAbort :
    (0x50000000034#44).extractLsb' 40 4 = 5#4 ∧ (segLoaded 1 2 1 []).seg.fault = 0 ∧ (withEnc true 5 2).enc.fault = 0 ∧
      State.reset.dec.fault = 0 := by decide

theorem witness_SegRejectsIllegalTokens :
    ∃ (s r : State) (w : TokenWord),
      s.sched = .unit .seg :: [.host] ∧ s.host.segIn = 0x30001000103#44 :: [w] ∧ s.seg.fault = 0 ∧
        (0x30001000103#44).extractLsb' 40 4 = 3#4 ∧ s.seg.phase = .load ∧ r.seg.phase = .idle ∧ r.seg.fault = 0 ∧
        r.host.segIn = w :: [] ∧ r.sched = .unit .seg :: [] ∧ w.extractLsb' 40 4 = 4#4 ∧
        (0x10000000305#44).extractLsb' 40 4 = 1#4 ∧ 6#4 ≤ (0x60000000000#44).extractLsb' 40 4 :=
  ⟨{ segLoaded 1 1 0 [] with sched := [.unit .seg, .host], host := { HostState.reset with segIn := [0x30001000103, 0x40000000000] } },
    { State.reset with sched := [.unit .seg], host := { HostState.reset with segIn := [0x40000000000] } }, 0x40000000000, by decide⟩

theorem witness_EncDataConsumesSample :
    (0x00000000005#44).extractLsb' 40 4 = 0#4 ∧ State.reset.enc.fault = 0 ∧ State.reset.enc.haveRun = false ∧
      (withEnc true 7 4294967295).enc.cnt.toNat = 4294967295 ∧ (withEnc true 7 4294967295).enc.haveRun = true ∧
      7 = (withEnc true 7 4294967295).enc.cur ∧ (withEnc true 7 4294967294).enc.cnt.toNat < 4294967295 ∧
      8 ≠ (withEnc true 7 4294967294).enc.cur := by decide

theorem witness_EncEndFlushesRun :
    (0x40000000000#44).extractLsb' 40 4 = 4#4 ∧ (withEnc true 7 1).enc.fault = 0 ∧ (withEnc true 7 1).enc.haveRun = true ∧
      State.reset.enc.haveRun = false := by decide

theorem witness_EncRejectsIllegalTokens :
    ∃ s : State, s.sched = .unit .enc :: [] ∧ s.host.encIn = 0x10000000305#44 :: [] ∧ s.enc.fault = 0 ∧
      (0x10000000305#44).extractLsb' 40 4 = 1#4 ∧ (0x20000000000#44).extractLsb' 40 4 = 2#4 ∧
      (0x30000000000#44).extractLsb' 40 4 = 3#4 ∧ 6#4 ≤ (0xF0000000000#44).extractLsb' 40 4 :=
  ⟨{ withEnc true 5 2 with sched := [.unit .enc], host := { HostState.reset with encIn := [0x10000000305] } }, by decide⟩

theorem witness_DecRunExpandsRun :
    (0x10000000305#44).extractLsb' 40 4 = 1#4 ∧ (0x40000000000#44).extractLsb' 40 4 = 4#4 ∧ State.reset.dec.fault = 0 ∧
      (0#32).toNat = 0 ∧ 1 ≤ (1#32).toNat ∧ 1 ≤ (4294967295#32).toNat := by decide

theorem witness_DecRejectsIllegalTokens :
    ∃ s : State, s.sched = .unit .dec :: [] ∧ s.host.decIn = 0x00000000005#44 :: [] ∧ s.dec.fault = 0 ∧
      (0x00000000005#44).extractLsb' 40 4 = 0#4 ∧ (0x20000000000#44).extractLsb' 40 4 = 2#4 ∧
      (0x30000000000#44).extractLsb' 40 4 = 3#4 ∧ 6#4 ≤ (0x60000000000#44).extractLsb' 40 4 :=
  ⟨{ State.reset with sched := [.unit .dec], host := { HostState.reset with decIn := [0x00000000005] } }, by decide⟩

/-- A request word of each kind, and an index for each clause of the register statements, the first and last of a range among them. -/
theorem witness_register_port :
    (0x0A00000000#37).getLsbD 36 = false ∧ (0x1500000023#37).getLsbD 36 = true ∧
      [(0#4).toNat, (1#4).toNat, (2#4).toNat, (3#4).toNat, (4#4).toNat, (5#4).toNat, (6#4).toNat, (7#4).toNat, (8#4).toNat, (9#4).toNat,
        (10#4).toNat, (11#4).toNat, (15#4).toNat] = [0, 1, 2, 3, 4, 5, 6, 7, 8, 9, 10, 11, 15] ∧
      (1#32).getLsbD 0 = true ∧ (2#32).getLsbD 0 = false := by decide

theorem witness_UnusedBitsAreIgnored : decodeToken 0x0ABCDEF1207 = .ok (.data 7) := by rfl

theorem witness_StepRunsDecodedToken :
    ∃ s : State, s.sched = .unit .enc :: [] ∧ s.inq .enc = 0x00000000005#44 :: [] ∧ s.fault .enc = 0 ∧
      decode .enc 0x00000000005 = .ok (.encData 5) ∧ State.reset.sched = [] :=
  ⟨{ State.reset with sched := [.unit .enc], host := { HostState.reset with encIn := [0x00000000005] } }, rfl, rfl, rfl, rfl, rfl⟩

/-- A read, a write that resets nothing, and the three soft resets. -/
theorem witness_StepRunsRegisterRequest :
    (∃ s : RequestWord → State, ∀ w, (s w).sched = .host :: [] ∧ (s w).host.prog = .request w :: []) ∧
      decodeRequest 0x0A00000000 = .rd 10 ∧ decodeRequest 0x1000000002 = .wr 0 2 ∧ (2#32).getLsbD 0 = false ∧
      decodeRequest 0x1000000001 = .wr 0 1 ∧ decodeRequest 0x1200000001 = .wr 2 1 ∧ decodeRequest 0x1400000001 = .wr 4 1 ∧
      (1#32).getLsbD 0 = true :=
  ⟨⟨fun w => { cutState with host := { cutState.host with prog := [.request w] } }, fun _ => ⟨rfl, rfl⟩⟩, by decide⟩

/-- The host's turn with each operation the host statements speak of. -/
theorem witness_host_operations :
    ∃ s : HostOp → State, (∀ op, (s op).sched = .host :: [] ∧ (s op).host.prog = op :: [] ∧ (s op).outq .dec = 0x00000000005#44 :: []) ∧
      ∀ op, (s op).outq .enc = [] ∧ (s op).inq .enc = [0x00000000006#44] ++ 0x00000000007#44 :: [0x40000000000#44] :=
  ⟨fun op =>
    { State.reset with
      dec := { DecState.reset with outq := [0x00000000005] }, sched := [.host]
      host := { HostState.reset with prog := [op], encIn := [0x00000000006, 0x00000000007, 0x40000000000] } },
    fun _ => ⟨rfl, rfl, rfl⟩, fun _ => ⟨rfl, rfl⟩⟩

theorem witness_DrainTakesOneSequence :
    ∃ s : State, (∀ x ∈ [0x00000000005#44], isTerminator x = false) ∧ isTerminator 0x50000000003 = true ∧
      s.outq .dec = [0x00000000005#44] ++ 0x50000000003#44 :: [0x00000000001#44] ∧ s.host.prog = .drain .dec :: [] ∧
      s.sched = List.replicate 2 .host ++ [] :=
  ⟨{ State.reset with
      dec := { DecState.reset with outq := [0x00000000005, 0x50000000003, 0x00000000001] }, sched := [.host, .host]
      host := { HostState.reset with prog := [.drain .dec] } }, by simp [isTerminator, kindOf], by decide, by decide, by decide, by decide⟩

/-- A step that raises a fault, for each unit. -/
theorem witness_FaultActionIsWholeEffect :
    ∃ s : State, s.enc.fault = 0 ∧ s.dec.fault = 0 ∧ s.seg.fault = 0 ∧ after (s.consume .enc) (fun t => t.enc.fault != 0) = true ∧
      after (s.consume .dec) (fun t => t.dec.fault != 0) = true ∧ after (s.consume .seg) (fun t => t.seg.fault != 0) = true :=
  ⟨{ State.reset with
      host := { HostState.reset with encIn := [0x60000000000], decIn := [0x10000000009], segIn := [0x30000000001] } }, by decide⟩

theorem witness_HaltedUnitConsumesNothing :
    ∃ s : State, s.sched = .unit .seg :: [] ∧ s.fault .seg ≠ 0 ∧ isInstr (decode .seg 0x40000000000) .segEnd = true :=
  ⟨{ halted with sched := [.unit .seg], host := { HostState.reset with segIn := [0x40000000000] } }, by decide⟩

/-- A halted unit, a step that keeps it so, and a step that resets it. -/
theorem witness_OnlyResetLeavesHaltedState :
    ∃ s r : State, s.fault .dec ≠ 0 ∧ after (step s) (fun t => t.fault .dec != 0) = true ∧ r.fault .dec ≠ 0 ∧
      after (step r) (fun t => t.fault .dec == 0) = true :=
  ⟨{ halted with sched := [.unit .dec], host := { HostState.reset with decIn := [0x40000000000] } },
    { halted with sched := [.host], host := { HostState.reset with prog := [.request 0x1200000001] } }, by decide⟩

/-- An interrupt line that rises, and one that falls. -/
theorem witness_InterruptLinesFollowFaults :
    ∃ s r : State, s.irq .dec = false ∧ after (step s) (fun t => t.irq .dec) = true ∧ r.irq .dec = true ∧
      after (step r) (fun t => !t.irq .dec) = true :=
  ⟨{ State.reset with sched := [.unit .dec], host := { HostState.reset with decIn := [0x10000000009] } },
    { halted with sched := [.host], host := { HostState.reset with prog := [.reset] } }, by decide⟩

theorem witness_ConsumeThenResetLeavesNoTrace :
    ∃ s : State, after (s.consume .seg) (fun t => t.seg.n == 1 && t.host.segIn == []) = true :=
  ⟨{ segLoaded 1 2 0 [] with host := { HostState.reset with segIn := [0x200002BC82B] } }, by decide⟩

/-- Accepted terminators: the empty sequence at ENC and DEC, an ERR and a complete frame at SEG. -/
theorem witness_TerminatorLeavesUnitAsReset :
    State.reset.enc.fault = 0 ∧ after (exec .encEnd State.reset) (fun _ => true) = true ∧
      after (exec (.decErr 1 0) State.reset) (fun _ => true) = true ∧
      after (exec .segEnd (segLoaded 1 1 1 (bytesFrom 0 [pixG]))) (fun t => t.seg.fault == 0) = true := by decide +kernel

/-- A state with a frame half loaded and a run open. -/
def loadingState : State :=
  { segLoaded 1 2 1 (bytesFrom 0 [pixG]) with
    enc := { EncState.reset with haveRun := true, cur := 5, cnt := 2 }, sched := [.unit .seg]
    host := { HostState.reset with segIn := [0x200002BC82B] } }

theorem witness_invariant : loadingState.Inv ∧ after (step loadingState) (fun t => t.seg.n == 2) = true :=
  ⟨⟨⟨by decide, by decide, by decide, fun _ h => nomatch h⟩, ⟨by decide, fun _ h => nomatch h⟩, by decide, by decide, by decide, by decide,
    by decide, by decide, by decide, fun _ h => nomatch h⟩, by decide⟩

theorem witness_UnitsShareNoState :
    ∃ s : State, s.nextTurn.1 = .unit .enc ∧ after (step s) (fun _ => true) = true :=
  ⟨{ State.reset with sched := [.unit .enc], host := { HostState.reset with encIn := [0x00000000005] } }, by decide⟩

theorem witness_UnitTurnsCommute :
    ∃ s : State, UnitId.enc ≠ .dec ∧
      after (s.consume .enc) (fun a => after (a.consume .dec) (fun b => b.enc.haveRun && b.dec.outq == [0x40000000000])) = true :=
  ⟨{ State.reset with host := { HostState.reset with encIn := [0x00000000005], decIn := [0x40000000000] } }, by decide⟩

/-- A TAKE, which is no reset, at the host's turn. -/
theorem witness_OutputPortIsFifo :
    ∃ s : State, s.nextTurn.1 = .host ∧ s.host.prog.head? = some (.take .dec) ∧
      after (step s) (fun t => t.taken .dec == [0x00000000005]) = true :=
  ⟨{ State.reset with
      dec := { DecState.reset with outq := [0x00000000005] }, sched := [.host], host := { HostState.reset with prog := [.take .dec] } },
    by decide⟩

theorem witness_InstructionFrames : after (exec (.encData 5) State.reset) (fun t => t.enc.haveRun) = true := by decide

/-- A frame half loaded with a PIX to follow, and a complete frame; the first and last configuration register. -/
theorem witness_OpenFrameKeepsItsThresholds :
    (5 ≤ (5#4).toNat ∧ (5#4).toNat ≤ 9) ∧ (5 ≤ (9#4).toNat ∧ (9#4).toNat ≤ 9) ∧ (segLoaded 1 2 1 (bytesFrom 0 [pixG])).seg.phase = .load ∧
      after (exec (.segPix 1 2 3) (segLoaded 1 2 1 (bytesFrom 0 [pixG]))) (fun t => t.seg.n == 2) = true ∧
      after (exec (.segErr 3 0) (segLoaded 1 2 1 (bytesFrom 0 [pixG]))) (fun _ => true) = true ∧
      after (exec .segEnd (segLoaded 1 1 1 (bytesFrom 0 [pixG]))) (fun t => t.seg.outq != []) = true ∧
      (segLoaded 1 1 1 []).seg.fault = 0 ∧ (segLoaded 1 1 1 []).seg.phase = .load ∧
      (segLoaded 1 1 1 []).seg.n.toNat = (segLoaded 1 1 1 []).seg.h.toNat * (segLoaded 1 1 1 []).seg.w.toNat ∧
      (segLoaded 1 1 1 []).seg.h.toNat * (segLoaded 1 1 1 []).seg.w.toNat ≤ 40000 := by decide +kernel

/-- Two frame stores that differ in a stale byte only. -/
theorem witness_StaleBytesNeverLeak :
    (∀ x < 3, (segLoaded 1 1 1 (bytesFrom 0 [pixG, pixY])).seg.byte x = (segLoaded 1 1 1 (bytesFrom 0 [pixG])).seg.byte x) ∧
      after (exec .segEnd (segLoaded 1 1 1 (bytesFrom 0 [pixG, pixY]))) (fun t => t.seg.outq != []) = true ∧
      after (exec .segEnd (segLoaded 1 1 1 (bytesFrom 0 [pixG]))) (fun t => t.seg.outq != []) = true := by decide +kernel

/-- Frames no header opens. -/
theorem witness_OutsideFrameStoreStops :
    40000 ≤ (segLoaded 201 200 40000 []).seg.n.toNat ∧
      (segLoaded 201 200 40000 []).seg.n.toNat ≠ (segLoaded 201 200 40000 []).seg.h.toNat * (segLoaded 201 200 40000 []).seg.w.toNat ∧
      (segLoaded 201 200 40200 []).seg.n.toNat = (segLoaded 201 200 40200 []).seg.h.toNat * (segLoaded 201 200 40200 []).seg.w.toNat ∧
      40000 < (segLoaded 201 200 40200 []).seg.h.toNat * (segLoaded 201 200 40200 []).seg.w.toNat := by decide

theorem witness_mask_statements :
    [pixG, pixY][1]? = some pixY ∧ (1 < 2 ∧ 3 < 4) ∧ maskAt (opening 1 1 [true]) 0 = true ∧ [pixG, pixY].length = 1 * 2 ∧
      (segFrame hsvRef 1 2 [pixG, pixG] State.reset.seg.config)[1]? = some pixG := by decide +kernel

/-- R108, R109: the lone pixel is kept with the opening disabled, and black with it enabled (V-SEG-11). -/
theorem witness_OutputPixelsAreInputOrBlack :
    [pixG, pixG, pixG, pixY, pixG].length = 1 * 5 ∧ State.reset.seg.config.openEn = true ∧
      (segFrame hsvRef 1 5 [pixG, pixG, pixG, pixY, pixG] State.reset.seg.config)[4]? = some Pixel.black ∧
      (segFrame hsvRef 1 5 [pixG, pixG, pixG, pixY, pixG] { State.reset.seg.config with openEn := false })[4]? = some pixG := by
  decide +kernel

/-- Each clause: black, grey, a red, a green and a blue maximum, ties, and a negative q. -/
theorem witness_HsvRefStaysInItsScales :
    hsvRef ⟨0, 0, 0⟩ = ⟨0, 0, 0⟩ ∧ hsvRef ⟨100, 100, 100⟩ = ⟨0, 0, 100⟩ ∧ hsvRef ⟨0, 0, 255⟩ = ⟨0, 255, 255⟩ ∧
      hsvRef ⟨0, 255, 0⟩ = ⟨60, 255, 255⟩ ∧ hsvRef ⟨255, 0, 0⟩ = ⟨120, 255, 255⟩ ∧ hsvRef ⟨255, 0, 255⟩ = ⟨150, 255, 255⟩ ∧
      hsvRef ⟨0, 255, 255⟩ = ⟨30, 255, 255⟩ ∧ (⟨100, 100, 100⟩ : Pixel).c0 = (⟨100, 100, 100⟩ : Pixel).c1 ∧
      1 ≤ State.reset.seg.config.vmin.toNat ∧ State.reset.seg.config.accepts (hsvRef pixG) = true := by decide +kernel

/-- The smallest frame, and the limits 1 and 200. -/
theorem witness_SegmenterCorrespondence :
    ∃ s : State, (1 ≤ 1 ∧ 1 ≤ 200) ∧ [pixG].length = 1 * 1 ∧ s.seg.isIdle ∧ s.seg.fault = 0 ∧
      s.host.segIn = wordsOf (toksFrame 1 1 [pixG]) ++ [] ∧ s.sched = List.replicate (1 * 1 + 2) (.unit .seg) ++ [] :=
  ⟨{ State.reset with
      sched := List.replicate 3 (.unit .seg), host := { HostState.reset with segIn := wordsOf (toksFrame 1 1 [pixG]) } }, by decide⟩

theorem witness_codec_statements :
    countSum [((7 : Sample), 5)] = [(7 : Sample), 7, 7, 7, 7].length ∧ canonicalRuns [(7, 5)] = true ∧ canonicalRuns [(7, 2), (7, 3)] = false ∧
      (∀ a ∈ [((7 : Sample), 5)], 1 ≤ a.2) ∧ rleDecode [(7, 2), (7, 3)] = .ok [7, 7, 7, 7, 7] ∧ rleDecode [(7, 5)] = .ok [7, 7, 7, 7, 7] ∧
      [(7 : Sample)] ≠ [] := ⟨rfl, rfl, rfl, by decide, rfl, rfl, by decide⟩

theorem witness_EncodingNeverExpands :
    after (exec (.encData 2) (withEnc true 5 3)) (fun t => t.enc.outq.length == 1) = true ∧
      after (exec .encEnd (withEnc true 5 3)) (fun t => t.enc.outq.length == 2) = true ∧
      after (exec (.encErr 1 0) (withEnc true 5 3)) (fun t => t.enc.outq.length == 1) = true := by decide

theorem witness_EncoderCorrespondence :
    ∃ s : State, (∀ r ∈ rleEncode [5, 5, 2], r.2 ≤ 4294967295) ∧ s.enc.isIdle ∧ s.enc.fault = 0 ∧
      s.host.encIn = wordsOf (toksData [5, 5, 2]) ++ [] ∧ s.sched = List.replicate ([(5 : Sample), 5, 2].length + 1) (.unit .enc) ++ [] ∧
      (1 ≤ 1 ∧ 3 ≤ [(5 : Sample), 5, 2].length) :=
  ⟨{ State.reset with
      sched := List.replicate 4 (.unit .enc), host := { HostState.reset with encIn := wordsOf (toksData [5, 5, 2]) } }, by decide⟩

/-- `n` samples 7 after one sample 5, on ENC's input. -/
theorem long_run_offered (n : Nat) :
    ∃ s : State, (∀ r ∈ rleEncode [5], r.2 ≤ 4294967295) ∧ [(5 : Sample)].getLast? ≠ some 7 ∧ ([] : List Sample).getLast? ≠ some 7 ∧
      s.enc.isIdle ∧ s.enc.fault = 0 ∧ s.host.encIn = wordsOf (([(5 : Sample)] ++ List.replicate n 7).map Token.data) ++ [] ∧
      s.sched = List.replicate ([(5 : Sample)].length + n) (.unit .enc) ++ [] :=
  ⟨{ State.reset with
      sched := List.replicate ([(5 : Sample)].length + n) (.unit .enc) ++ []
      host := { HostState.reset with encIn := wordsOf (([(5 : Sample)] ++ List.replicate n 7).map Token.data) ++ [] } },
    by decide, by decide, by decide, ⟨rfl, rfl, rfl⟩, rfl, rfl, rfl⟩

/-- A run of `MAXCNT` + 1 samples after another run; the words are not written out. -/
theorem witness_TooLongRunOverflows :
    ∃ s : State, (∀ r ∈ rleEncode [5], r.2 ≤ 4294967295) ∧ [(5 : Sample)].getLast? ≠ some 7 ∧ ([] : List Sample).getLast? ≠ some 7 ∧
      s.enc.isIdle ∧ s.enc.fault = 0 ∧
      s.host.encIn = wordsOf (([(5 : Sample)] ++ List.replicate (Config.maxCnt + 1) 7).map Token.data) ++ [] ∧
      s.sched = List.replicate ([(5 : Sample)].length + (Config.maxCnt + 1)) (.unit .enc) ++ [] :=
  long_run_offered _

theorem witness_DecoderCorrespondence :
    ∃ s r : State, (∀ a ∈ [((7 : Sample), 1), (8, 4294967295)], 1 ≤ a.2 ∧ a.2 ≤ 4294967295) ∧ rleDecode [(7, 2)] = .ok [7, 7] ∧
      s.dec.fault = 0 ∧ s.host.decIn = wordsOf (toksRuns [(7, 2)]) ++ [] ∧
      s.sched = List.replicate ([((7 : Sample), 2)].length + 1) (.unit .dec) ++ [] ∧ r.dec.fault = 0 ∧
      r.host.decIn = wordsOf (toksRuns ([(7, 2)] ++ (9, 0) :: [(1, 1)])) ++ [] ∧
      r.sched = List.replicate ([((7 : Sample), 2)].length + 1) (.unit .dec) ++ [] :=
  ⟨{ State.reset with sched := List.replicate 2 (.unit .dec), host := { HostState.reset with decIn := wordsOf (toksRuns [(7, 2)]) } },
    { State.reset with
      sched := List.replicate 2 (.unit .dec), host := { HostState.reset with decIn := wordsOf (toksRuns [(7, 2), (9, 0), (1, 1)]) } },
    by decide, rfl, by decide, by decide, by decide, by decide, by decide, by decide⟩

theorem witness_RoundTripThroughUnits :
    ∃ s : State, (∀ r ∈ rleEncode [5, 5], r.2 ≤ 4294967295) ∧ 1 = (rleEncode [5, 5]).length ∧ s.enc.isIdle ∧ s.enc.fault = 0 ∧
      s.dec.fault = 0 ∧ s.enc.outq = [] ∧ s.host.decIn = [] ∧ s.host.encIn = wordsOf (toksData [5, 5]) ++ [] ∧
      s.host.prog = .pipe .enc .dec :: [] ∧
      s.sched =
        List.replicate ([(5 : Sample), 5].length + 1) (.unit .enc) ++
          (List.replicate (2 * (1 + 1)) .host ++ (List.replicate (1 + 1) (.unit .dec) ++ [])) :=
  ⟨{ State.reset with
      sched := List.replicate 3 (.unit .enc) ++ (List.replicate 4 .host ++ List.replicate 2 (.unit .dec))
      host := { HostState.reset with encIn := wordsOf (toksData [5, 5]), prog := [.pipe .enc .dec] } }, by decide⟩

/-- One pixel that is kept: three runs. -/
theorem witness_PipelineEndToEnd :
    ∃ s : State, [pixG].length = 1 * 1 ∧ [43, 200, 43] = flattenPixels (segFrame Config.hsvConv 1 1 [pixG] s.seg.config) ∧
      3 = (rleEncode [43, 200, 43]).length ∧ s.seg.isIdle ∧ s.enc.isIdle ∧ s.noFault = true ∧ s.seg.outq = [] ∧ s.enc.outq = [] ∧
      s.host.encIn = [] ∧ s.host.decIn = [] ∧ s.host.segIn = wordsOf (toksFrame 1 1 [pixG]) ∧
      s.host.prog = .pipeFlat :: .pipe .enc .dec :: [] ∧
      s.sched =
        List.replicate (1 * 1 + 2) (.unit .seg) ++
          (List.replicate (4 * (1 * 1) + 3) .host ++
            (List.replicate (3 * (1 * 1) + 1) (.unit .enc) ++
              (List.replicate (2 * (3 + 1)) .host ++ (List.replicate (3 + 1) (.unit .dec) ++ [])))) :=
  ⟨{ State.reset with
      sched :=
        List.replicate 3 (.unit .seg) ++
          (List.replicate 7 .host ++ (List.replicate 4 (.unit .enc) ++ (List.replicate 8 .host ++ List.replicate 4 (.unit .dec))))
      host := { HostState.reset with segIn := wordsOf (toksFrame 1 1 [pixG]), prog := [.pipeFlat, .pipe .enc .dec] } }, by decide +kernel⟩

/-- The run from reset is fair, whatever the free value that gives the turns. -/
theorem witness_fair : State.reset.fair :=
  fair_of_quiet (fun u => by cases u <;> rfl) (fun u => by cases u <;> rfl) rfl

/-- A one-channel 2 x 2 image (S2), and sequences of right and wrong length. -/
theorem witness_reshaping :
    Image.shaped [[[0], [1]], [[2], [3]]] 2 2 1 = true ∧ flatten [[[0], [1]], [[2], [3]]] = [0, 1, 2, 3] ∧
      [(0 : Sample), 1, 2, 3].length = 2 * 2 * 1 ∧ [(0 : Sample), 1, 2].length ≠ 2 * 2 * 1 ∧ [pixG].length = 1 * 1 ∧
      [(0 : Sample), 1].length ≠ 3 * 1 * 1 := by decide

end Sys2Proof.Tests
end

/-! SUPPORT. The host's reshaping (R51, R52): lists of lists of one length, images given sample by sample, and `flatten` and `unflatten`
on both. -/

namespace Sys2Proof

/-! ### Lists whose members all have one length -/

section
variable {α : Type} {L : List (List α)} {n : Nat}

theorem length_flatten_of_length_eq (hL : ∀ l ∈ L, l.length = n) : L.flatten.length = L.length * n := by
  simp [List.length_flatten, List.map_congr_left hL]

/-- The place of a member's element is the row-major one. -/
theorem getElem?_flatten_of_length_eq (hL : ∀ l ∈ L, l.length = n) (q : Nat) {i : Nat} (hi : i < n) :
    L.flatten[q * n + i]? = (L.getD q [])[i]? := by
  induction L generalizing q with
  | nil => simp
  | cons l L ih =>
    obtain ⟨hl, hL⟩ := List.forall_mem_cons.mp hL
    cases q with
    | zero => simp [List.getElem?_append_left (hl.symm ▸ hi)]
    | succ q =>
      have hplace : (q + 1) * n + i = l.length + (q * n + i) := by rw [hl]; ring
      rw [hplace, List.flatten_cons, List.getElem?_append_right (Nat.le_add_right ..), Nat.add_sub_cancel_left, ih hL,
        List.getD_cons_succ]

theorem map_range_getD (l : List α) (d : α) : (List.range l.length).map (l.getD · d) = l :=
  List.ext_getElem (by simp) fun i _ hi => by simp [List.getElem?_eq_getElem hi]

/-- Numbering `m` rows of `n` places in row-major order visits `0` to `m x n - 1` in order. -/
theorem flatten_map_range (m n : Nat) (f : Nat → α) :
    ((List.range m).map fun q => (List.range n).map fun i => f (q * n + i)).flatten = (List.range (m * n)).map f := by
  induction m with
  | zero => simp
  | succ m ih => simp [List.range_succ, ih, Nat.succ_mul, List.range_add]

end

section
variable {img : Image} {h w ch : Nat}

/-! ### The shape of an image -/

theorem Image.shaped_iff :
    img.shaped h w ch = true ↔ img.length = h ∧ ∀ row ∈ img, row.length = w ∧ ∀ px ∈ row, px.length = ch := by
  simp [Image.shaped]

theorem Image.length_row_of_shaped (hs : img.shaped h w ch = true) : ∀ row ∈ img, row.length = w :=
  fun row hrow => ((Image.shaped_iff.mp hs).2 row hrow).1

theorem Image.length_pixel_of_shaped (hs : img.shaped h w ch = true) : ∀ px ∈ img.flatten, px.length = ch := by
  intro px hpx
  obtain ⟨row, hrow, hpx⟩ := List.mem_flatten.mp hpx
  exact ((Image.shaped_iff.mp hs).2 row hrow).2 px hpx

/-- Every row index gives a row that is `w` pixels long, and every column index in it a pixel of `ch` samples. -/
theorem Image.length_getD_of_shaped {r : Nat} (hs : img.shaped h w ch = true) (hr : r < h) :
    (img.getD r []).length = w ∧ ∀ c < w, ((img.getD r []).getD c []).length = ch := by
  have hlen : r < img.length := (Image.shaped_iff.mp hs).1.symm ▸ hr
  have hw := Image.length_row_of_shaped hs _ (List.getElem_mem hlen)
  rw [List.getD_eq_getElem _ _ hlen]
  refine ⟨hw, fun c hc => ?_⟩
  rw [List.getD_eq_getElem _ _ (hw.symm ▸ hc)]
  exact Image.length_pixel_of_shaped hs _ (List.mem_flatten_of_mem (List.getElem_mem hlen) (List.getElem_mem _))

/-! ### Images given sample by sample -/

/-- The image of shape `(h, w, ch)` whose sample at row `r`, column `c`, channel `k` is `f r c k`. -/
def Image.tabulate (h w ch : Nat) (f : Nat → Nat → Nat → Sample) : Image :=
  (List.range h).map fun r => (List.range w).map fun c => (List.range ch).map fun k => f r c k

theorem Image.tabulate_congr {f g : Nat → Nat → Nat → Sample}
    (hfg : ∀ r c k, r < h → c < w → k < ch → f r c k = g r c k) : Image.tabulate h w ch f = Image.tabulate h w ch g := by
  refine List.map_congr_left fun r hr => List.map_congr_left fun c hc => List.map_congr_left fun k hk => ?_
  exact hfg r c k (List.mem_range.mp hr) (List.mem_range.mp hc) (List.mem_range.mp hk)

/-- An image is made of its samples `img[r][c][k]`. -/
theorem Image.tabulate_at (hs : img.shaped h w ch = true) : Image.tabulate h w ch img.at = img := by
  calc Image.tabulate h w ch img.at
      = (List.range h).map fun r => (List.range w).map fun c => (img.getD r []).getD c [] := by
        refine List.map_congr_left fun r hr => List.map_congr_left fun c hc => ?_
        obtain ⟨-, hch⟩ := Image.length_getD_of_shaped hs (List.mem_range.mp hr)
        rw [← hch c (List.mem_range.mp hc)]
        exact map_range_getD _ 0
    _ = (List.range h).map fun r => img.getD r [] := by
        refine List.map_congr_left fun r hr => ?_
        obtain ⟨hw, -⟩ := Image.length_getD_of_shaped hs (List.mem_range.mp hr)
        rw [← hw]
        exact map_range_getD _ []
    _ = img := by
        obtain ⟨rfl, -⟩ := Image.shaped_iff.mp hs
        exact map_range_getD _ []

/-! ### `flatten` -/

theorem length_flatten_of_shaped (hs : img.shaped h w ch = true) : (flatten img).length = h * w * ch := by
  rw [flatten, length_flatten_of_length_eq (Image.length_pixel_of_shaped hs),
    length_flatten_of_length_eq (Image.length_row_of_shaped hs), (Image.shaped_iff.mp hs).1]

/-- R51, the index formula. -/
theorem getElem?_flatten_of_shaped {r c k : Nat} (hs : img.shaped h w ch = true) (hr : r < h) (hc : c < w)
    (hk : k < ch) : (flatten img)[(r * w + c) * ch + k]? = some (img.at r c k) := by
  obtain ⟨-, hch⟩ := Image.length_getD_of_shaped hs hr
  have hpixel : img.flatten.getD (r * w + c) [] = (img.getD r []).getD c [] := by
    rw [List.getD_eq_getElem?_getD, getElem?_flatten_of_length_eq (Image.length_row_of_shaped hs) r hc,
      ← List.getD_eq_getElem?_getD]
  have hk' : k < ((img.getD r []).getD c []).length := (hch c hc).symm ▸ hk
  rw [flatten, getElem?_flatten_of_length_eq (Image.length_pixel_of_shaped hs) _ hk, hpixel, List.getElem?_eq_getElem hk',
    Image.at, List.getD_eq_getElem _ _ hk']

/-- The flattening of an image given by row-major index lists the indices in order. -/
theorem flatten_tabulate (h w ch : Nat) (f : Nat → Sample) :
    flatten (Image.tabulate h w ch fun r c k => f ((r * w + c) * ch + k)) = (List.range (h * w * ch)).map f := by
  rw [flatten, Image.tabulate, flatten_map_range h w fun p => (List.range ch).map fun k => f (p * ch + k), flatten_map_range]

/-! ### `unflatten` -/

theorem unflatten_of_length_eq {x : List Sample} (hx : x.length = h * w * ch) :
    unflatten x h w ch = some (Image.tabulate h w ch fun r c k => x.getD ((r * w + c) * ch + k) 0) :=
  if_pos hx

theorem unflatten_of_length_ne {x : List Sample} (hx : x.length ≠ h * w * ch) : unflatten x h w ch = none :=
  if_neg hx

theorem unflatten_flatten (hs : img.shaped h w ch = true) : unflatten (flatten img) h w ch = some img := by
  rw [unflatten_of_length_eq (length_flatten_of_shaped hs)]
  refine congrArg some ((Image.tabulate_congr fun r c k hr hc hk => ?_).trans (Image.tabulate_at hs))
  rw [List.getD_eq_getElem?_getD, getElem?_flatten_of_shaped hs hr hc hk, Option.getD_some]

theorem flatten_unflatten {x : List Sample} (hx : x.length = h * w * ch) :
    ∃ img, unflatten x h w ch = some img ∧ flatten img = x := by
  refine ⟨_, unflatten_of_length_eq hx, ?_⟩
  rw [flatten_tabulate h w ch fun i => x.getD i 0, ← hx]
  exact map_range_getD x 0

end

/-- Settles O59: the two are read off sample by sample, an image and its flattening each being the table of its samples. -/
theorem flattenOrderAndInverse : Obligations.FlattenOrderAndInverse :=
  ⟨fun _ _ _ _ hs => ⟨length_flatten_of_shaped hs, fun _ _ _ => getElem?_flatten_of_shaped hs, unflatten_flatten hs⟩,
    fun _ _ _ _ => flatten_unflatten, fun _ _ _ _ => unflatten_of_length_ne⟩

end Sys2Proof

/-! SUPPORT. SEG's instructions branch by branch (R114 to R118), what SEG.PIX stores and SEG.END emits, and the statements about
them. -/

namespace Sys2Proof

/-! ### Decoding -/

theorem decode_of_decodeToken_ok {u : UnitId} {w : TokenWord} {t : Token} (h : decodeToken w = .ok t) : decode u w = accept u t := by
  simp [decode, h]

theorem decode_of_decodeToken_error {u : UnitId} {w : TokenWord} {e : DecodeError} (h : decodeToken w = .error e) :
    decode u w = .error e := by
  simp [decode, h]

/-- The instructions of `seg_in`, by kind (R80). -/
theorem decode_seg_kind2 {w : TokenWord} (h : w.extractLsb' 40 4 = 2#4) :
    decode .seg w = .ok (.segPix (low8 w) (c1Field w) (c2Field w)) :=
  decode_of_decodeToken_ok (decodeToken_kind2 h)

theorem decode_seg_kind3 {w : TokenWord} (h : w.extractLsb' 40 4 = 3#4) :
    decode .seg w = .ok (.segHdr (heightField w) (widthField w) (low8 w)) :=
  decode_of_decodeToken_ok (decodeToken_kind3 h)

theorem decode_seg_kind4 {w : TokenWord} (h : w.extractLsb' 40 4 = 4#4) : decode .seg w = .ok .segEnd :=
  decode_of_decodeToken_ok (decodeToken_kind4 h)

theorem decode_seg_kind5 {w : TokenWord} (h : w.extractLsb' 40 4 = 5#4) :
    decode .seg w = .ok (.segErr (causeField w) (infoField w)) :=
  decode_of_decodeToken_ok (decodeToken_kind5 h)

/-! ### A pixel as a 24-bit number -/

/-- Byte `k` of the number SEG.PIX stores is channel `k` (R74). -/
theorem Pixel.byte_toNat24 (p : Pixel) :
    BitVec.ofNat 8 p.toNat24 = p.c0 ∧ BitVec.ofNat 8 (p.toNat24 / 256) = p.c1 ∧ BitVec.ofNat 8 (p.toNat24 / 65536) = p.c2 := by
  have h0 := p.c0.isLt
  have h1 := p.c1.isLt
  have h2 := p.c2.isLt
  refine ⟨?_, ?_, ?_⟩ <;> apply BitVec.eq_of_toNat_eq <;> simp only [Pixel.toNat24, BitVec.toNat_ofNat] <;> omega

namespace Machine

variable {s : State}

/-! ### Each branch of each instruction -/

theorem SegState.phase_ne_load {g : SegState} (h : g.phase = .idle) : g.phase ≠ .load := by simp [h]

theorem SegState.phase_ne_idle {g : SegState} (h : g.phase = .load) : g.phase ≠ .idle := by simp [h]

theorem frameStoreHas_iff {a n : Nat} : frameStoreHas a n = true ↔ a + n ≤ 120000 := decide_eq_true_iff

theorem whenRunning_seg (hf : s.seg.fault = 0) (r : Result) : s.whenRunning .seg r = r := if_pos hf

section
variable {height width : Dim} {channels : Sample} (hf : s.seg.fault = 0)
include hf

theorem execSegHdr_load (hp : s.seg.phase = .load) :
    execSegHdr height width channels s = .next (s.raise .seg .illegalToken .none) :=
  (whenRunning_seg hf _).trans (if_pos hp)

theorem execSegHdr_idle (hp : s.seg.phase = .idle) :
    execSegHdr height width channels s =
      if channels ≠ Config.channels then .next (s.raise .seg .invalidImage .channels)
      else if height = 0 ∨ width = 0 then .next (s.raise .seg .invalidImage .zeroArea)
      else if Config.maxH < height.toNat ∨ Config.maxW < width.toNat then .next (s.raise .seg .invalidImage .tooLarge)
      else .next { s with seg := s.seg.openFrame height width } :=
  (whenRunning_seg hf _).trans (if_neg (SegState.phase_ne_load hp))

/-- An accepted header opens the frame (R114). -/
theorem execSegHdr_open (hp : s.seg.phase = .idle) (h1 : 1 ≤ height.toNat) (h2 : height.toNat ≤ 200) (w1 : 1 ≤ width.toNat)
    (w2 : width.toNat ≤ 200) : execSegHdr height width Config.channels s = .next { s with seg := s.seg.openFrame height width } := by
  have hzero : ¬(height = 0 ∨ width = 0) := by rintro (rfl | rfl) <;> simp at h1 w1
  have hlarge : ¬(Config.maxH < height.toNat ∨ Config.maxW < width.toNat) := by simp only [Config.maxH, Config.maxW]; omega
  rw [execSegHdr_idle hf hp, if_neg (not_not.2 rfl), if_neg hzero, if_neg hlarge]

theorem execSegPix_idle {c0 c1 c2 : Sample} (hp : s.seg.phase = .idle) :
    execSegPix c0 c1 c2 s = .next (s.raise .seg .illegalToken .none) :=
  (whenRunning_seg hf _).trans (if_pos hp)

theorem execSegPix_full {c0 c1 c2 : Sample} (hp : s.seg.phase = .load) (hn : s.seg.n.toNat = s.seg.frameSize) :
    execSegPix c0 c1 c2 s = .next (s.raise .seg .invalidImage .length) :=
  (whenRunning_seg hf _).trans ((if_neg (SegState.phase_ne_idle hp)).trans (if_pos hn))

theorem execSegPix_loadPixel {c0 c1 c2 : Sample} (hp : s.seg.phase = .load) (hn : s.seg.n.toNat ≠ s.seg.frameSize)
    (hr : frameStoreHas s.seg.storeAddr 3 = true) :
    execSegPix c0 c1 c2 s = .next { s with seg := s.seg.loadPixel ⟨c0, c1, c2⟩ } :=
  (whenRunning_seg hf _).trans ((if_neg (SegState.phase_ne_idle hp)).trans ((if_neg hn).trans (if_pos hr)))

theorem execSegEnd_idle (hp : s.seg.phase = .idle) : execSegEnd s = .next (s.raise .seg .illegalToken .none) :=
  (whenRunning_seg hf _).trans (if_pos hp)

theorem execSegEnd_short (hp : s.seg.phase = .load) (hn : s.seg.n.toNat ≠ s.seg.frameSize) :
    execSegEnd s = .next (s.raise .seg .invalidImage .length) :=
  (whenRunning_seg hf _).trans ((if_neg (SegState.phase_ne_idle hp)).trans (if_pos hn))

theorem execSegEnd_emit (hp : s.seg.phase = .load) (hn : s.seg.n.toNat = s.seg.frameSize)
    (hr : frameStoreHas 0 (3 * s.seg.frameSize) = true) :
    execSegEnd s = .next ((s.emitAll .seg s.seg.outputTokens).idle .seg) :=
  (whenRunning_seg hf _).trans ((if_neg (SegState.phase_ne_idle hp)).trans ((if_neg (not_not.2 hn)).trans (if_pos hr)))

theorem execSegErr_running (cause info : Code) : execSegErr cause info s = .next (s.forwardErr .seg cause info) :=
  whenRunning_seg hf _

end

/-! ### What SEG.PIX stores and what SEG.END emits -/

/-- The three bytes of a loaded pixel, channel by channel, and every other byte as before (R115). -/
theorem byte_memWrite_pixel (g : SegState) (a : Nat) (p : Pixel) :
    (g.memWrite a 3 p.toNat24).byte a = p.c0 ∧ (g.memWrite a 3 p.toNat24).byte (a + 1) = p.c1 ∧
      (g.memWrite a 3 p.toNat24).byte (a + 2) = p.c2 ∧
      ∀ x, x < a ∨ a + 3 ≤ x → (g.memWrite a 3 p.toNat24).byte x = g.byte x := by
  obtain ⟨h0, h1, h2⟩ := p.byte_toNat24
  simp only [byte_memWrite]
  refine ⟨by simpa using h0, by simpa using h1, by simpa using h2, fun x hx => if_neg (by omega)⟩

/-- The loaded pixels are the stored bytes, three by three (R116). -/
theorem pixels_eq (g : SegState) (n : Nat) :
    g.pixels n = (List.range n).map fun i => ⟨g.byte (3 * i), g.byte (3 * i + 1), g.byte (3 * i + 2)⟩ :=
  List.map_congr_left fun i _ => pixel_eq g i

/-- The words SEG.END emits: the header, the segmented pixels, END (R110, R116). -/
theorem wordsOf_outputTokens (g : SegState) :
    wordsOf g.outputTokens =
      (0x3#4 ++ (g.h ++ (g.w ++ 3#8)) : BitVec 44) ::
        g.segmented.map (fun x => (0x2#4 ++ (0#16 ++ (x.c2 ++ (x.c1 ++ x.c0))) : BitVec 44)) ++ [0x40000000000#44] := by
  simp only [wordsOf, SegState.outputTokens, List.map_cons, List.map_append, List.map_map, List.cons_append]
  rfl

/-! ### A rejected token -/

/-- At SEG a word the port or the phase does not accept (R118) raises ILLEGAL_TOKEN. -/
theorem executeToken_seg_illegal {w : TokenWord} (hf : s.seg.fault = 0)
    (hw : (w.extractLsb' 40 4 = 0#4 ∨ w.extractLsb' 40 4 = 1#4 ∨ 6#4 ≤ w.extractLsb' 40 4) ∨
      (w.extractLsb' 40 4 = 3#4 ∧ s.seg.phase = .load) ∨
      ((w.extractLsb' 40 4 = 2#4 ∨ w.extractLsb' 40 4 = 4#4) ∧ s.seg.phase = .idle)) :
    s.executeToken .seg w = .next (s.raise .seg .illegalToken .none) := by
  rcases hw with (hk | hk | hk) | ⟨hk, hp⟩ | ⟨hk | hk, hp⟩
  · exact executeToken_error (decode_of_decodeToken_ok (decodeToken_kind0 hk))
  · exact executeToken_error (decode_of_decodeToken_ok (decodeToken_kind1 hk))
  · exact executeToken_error (decode_of_decodeToken_error (decodeToken_reserved hk))
  · exact (executeToken_ok (decode_seg_kind3 hk)).trans (execSegHdr_load hf hp)
  · exact (executeToken_ok (decode_seg_kind2 hk)).trans (execSegPix_idle hf hp)
  · exact (executeToken_ok (decode_seg_kind4 hk)).trans (execSegEnd_idle hf hp)

/-! ### The statements -/

/-- Settles O1: the tests of R114 in their order. -/
theorem segHdrOpensFrame : Obligations.SegHdrOpensFrame := by
  refine ⟨fun _ => decode_seg_kind3, fun height width channels s hf => ⟨execSegHdr_load hf, ?_⟩⟩
  intro hp
  have hexec := execSegHdr_idle (height := height) (width := width) (channels := channels) hf hp
  refine ⟨fun hc => hexec.trans (if_pos hc), ?_, ?_, ?_⟩
  · rintro rfl hz
    exact hexec.trans ((if_neg (not_not.2 rfl)).trans (if_pos hz))
  · rintro rfl h0 w0 hl
    exact hexec.trans ((if_neg (not_not.2 rfl)).trans ((if_neg (not_or.2 ⟨h0, w0⟩)).trans (if_pos hl)))
  · rintro rfl h1 h2 w1 w2
    exact execSegHdr_open hf hp h1 h2 w1 w2

/-- Settles O2: the bytes are those of a `MemWrite` of the pixel's 24-bit number at `3 x seg.n`. -/
theorem segPixLoadsPixel : Obligations.SegPixLoadsPixel := by
  refine ⟨fun _ => decode_seg_kind2, fun c0 c1 c2 s hf =>
    ⟨execSegPix_idle hf, execSegPix_full hf, fun hp hn hmax => ?_⟩⟩
  have hroom : frameStoreHas s.seg.storeAddr 3 = true := by
    rw [frameStoreHas_iff, SegState.storeAddr, pixelAddr]
    omega
  obtain ⟨h0, h1, h2, hother⟩ := byte_memWrite_pixel s.seg s.seg.storeAddr ⟨c0, c1, c2⟩
  have hcount : (s.seg.n + 1).toNat = s.seg.n.toNat + 1 :=
    BitVec.toNat_add_of_lt (show s.seg.n.toNat + 1 < 2 ^ 16 by omega)
  exact ⟨_, execSegPix_loadPixel hf hp hn.ne hroom, hcount, h0, h1, h2, rfl, hother⟩

/-- Settles O3: the frame is complete exactly when `seg.n` is its size, and its bytes then exist. -/
theorem segEndEmitsFrame : Obligations.SegEndEmitsFrame := by
  refine ⟨fun _ => decode_seg_kind4, fun s hf =>
    ⟨execSegEnd_idle hf, execSegEnd_short hf, fun hp hn hmax => ?_⟩⟩
  have hroom : frameStoreHas 0 (3 * s.seg.frameSize) = true := by
    rw [frameStoreHas_iff, SegState.frameSize]
    omega
  refine (execSegEnd_emit hf hp hn hroom).trans ?_
  rw [emitAll_seg, wordsOf_outputTokens, SegState.segmented, pixels_eq]
  rfl

/-- Settles O4: an ERR is forwarded in both phases. -/
theorem segErrForwardsAbort : Obligations.SegErrForwardsAbort :=
  ⟨fun _ => decode_seg_kind5, fun cause info _ hf => execSegErr_running hf cause info⟩

/-- Settles O5: the consumed word is not accepted at the port or in the phase. -/
theorem segRejectsIllegalTokens : Obligations.SegRejectsIllegalTokens := by
  intro s turns w q hsched hq hf hw
  rw [step_sched hsched]
  exact (consume_cons (s := { s with sched := turns }) (u := .seg) hq hf).trans (executeToken_seg_illegal hf hw)

end Machine
end Sys2Proof

/-! SUPPORT. A write to a configuration register while a frame is open (R121): it replaces the five registers, which no SEG.PIX, SEG.END
or SEG.ERR reads or writes. -/

namespace Sys2Proof

/-- The configuration after a write of `v` to the register at `idx` (R35 to R39). -/
def SegCfg.write (cfg : SegCfg) (idx : RegIdx) (v : RegWord) : SegCfg :=
  match idx.toNat with
  | 5 => { cfg with hlo := v.extractLsb' 0 8 }
  | 6 => { cfg with hhi := v.extractLsb' 0 8 }
  | 7 => { cfg with smin := v.extractLsb' 0 8 }
  | 8 => { cfg with vmin := v.extractLsb' 0 8 }
  | 9 => { cfg with openEn := v.getLsbD 0 }
  | _ => cfg

namespace Machine

/-- The state with other values in the five configuration registers. -/
def State.withConfig (s : State) (cfg : SegCfg) : State :=
  { s with seg := { s.seg with hLo := cfg.hlo, hHi := cfg.hhi, sMin := cfg.smin, vMin := cfg.vmin, openEn := cfg.openEn } }

/-- A write at index 5 to 9 is a write to the configuration and nothing else (R171). -/
theorem execWr_config {idx : RegIdx} (h5 : 5 ≤ idx.toNat) (h9 : idx.toNat ≤ 9) (v : RegWord) (s : State) :
    exec (.wr idx v) s = .next (s.withConfig (s.seg.config.write idx v)) := by
  have hidx : idx = 5 ∨ idx = 6 ∨ idx = 7 ∨ idx = 8 ∨ idx = 9 := by revert idx; decide
  rcases hidx with rfl | rfl | rfl | rfl | rfl <;> rfl

/-- No token changes the configuration registers. -/
theorem SegMove.config_eq {g g' : SegState} (h : SegMove g g') : g'.config = g.config := by
  cases h <;> rfl

section
variable {s a : State} (cfg : SegCfg)

theorem execSegPix_withConfig {c0 c1 c2 : Sample} (h : execSegPix c0 c1 c2 s = .next a) :
    execSegPix c0 c1 c2 (s.withConfig cfg) = .next (a.withConfig cfg) := by
  obtain ⟨hf, h⟩ := whenRunning_next h
  refine (whenRunning_seg (s := s.withConfig cfg) hf _).trans ?_
  split_ifs at h with hidle hfull hroom <;> cases h
  · exact if_pos hidle
  · exact (if_neg hidle).trans (if_pos hfull)
  · exact (if_neg hidle).trans ((if_neg hfull).trans (if_pos hroom))

theorem execSegEnd_withConfig (h : execSegEnd s = .next a) : execSegEnd (s.withConfig cfg) = .next (a.withConfig cfg) := by
  obtain ⟨hf, h⟩ := whenRunning_next h
  refine (whenRunning_seg (s := s.withConfig cfg) hf _).trans ?_
  split_ifs at h with hidle hshort hroom <;> cases h
  · exact if_pos hidle
  · exact (if_neg hidle).trans (if_pos hshort)
  · exact (if_neg hidle).trans ((if_neg hshort).trans (if_pos hroom))

theorem execSegErr_withConfig {c d : Code} (h : execSegErr c d s = .next a) :
    execSegErr c d (s.withConfig cfg) = .next (a.withConfig cfg) := by
  obtain ⟨hf, h⟩ := whenRunning_next h
  cases h
  exact execSegErr_running (s := s.withConfig cfg) hf c d

end

/-- A write to a configuration register and a token commute, when the token does not read the configuration. -/
theorem execWr_commute {i : Instr} {idx : RegIdx} {s a : State} (h5 : 5 ≤ idx.toNat) (h9 : idx.toNat ≤ 9) (v : RegWord)
    (hcommute : ∀ cfg, exec i (s.withConfig cfg) = .next (a.withConfig cfg))
    (hmove : ∃ g, SegMove s.seg g ∧ a = { s with seg := g }) :
    ∃ b, exec i (s.withConfig (s.seg.config.write idx v)) = .next b ∧ exec (.wr idx v) a = .next b ∧ b.seg.outq = a.seg.outq := by
  obtain ⟨g, hg, rfl⟩ := hmove
  refine ⟨_, hcommute _, ?_, rfl⟩
  rw [execWr_config h5 h9, hg.config_eq]

/-- Settles O39: the write replaces the configuration, which PIX, END and ERR leave as it is and do not read. -/
theorem openFrameKeepsItsThresholds : Obligations.OpenFrameKeepsItsThresholds := by
  refine ⟨fun idx v s h5 h9 _ => ⟨_, execWr_config h5 h9 v s, rfl, fun i a hi ha => ?_⟩,
    fun idx v s h5 h9 hf hp hn hmax => ?_⟩
  · rcases hi with ⟨c0, c1, c2, rfl⟩ | rfl | ⟨c, d, rfl⟩
    · exact execWr_commute h5 h9 v (execSegPix_withConfig · ha) (execSegPix_next ha).2
    · exact execWr_commute h5 h9 v (execSegEnd_withConfig · ha) (execSegEnd_next ha).2
    · exact execWr_commute h5 h9 v (execSegErr_withConfig · ha) (execSegErr_next ha).2
  · have hend := (segEndEmitsFrame.2 s hf).2.2 hp hn hmax
    exact ⟨_, _, _, hend, execWr_config h5 h9 v s, execSegEnd_withConfig _ hend, rfl⟩

end Machine
end Sys2Proof

/-! SUPPORT. `HSV_REF` (R103): the chroma, the sector and the quotient it divides out, and their bounds. -/

namespace Sys2Proof

/-- `d = V - m` (R103). -/
def chroma (b g r : Nat) : Nat := valRef b g r - min r (min g b)

/-- `n` of R103, by the largest channel: red, then green, then blue. -/
def hueSector (b g r : Nat) : Int :=
  if valRef b g r = r then (g : Int) - b
  else if valRef b g r = g then ((b : Int) - r) + 2 * chroma b g r
  else ((r : Int) - g) + 4 * chroma b g r

/-- `q` of R103. -/
def hueQuotient (b g r : Nat) : Int := (60 * hueSector b g r + chroma b g r) / (2 * (chroma b g r : Int))

variable {b g r : Nat}

theorem hueRef_of_chroma_eq_zero (hd : chroma b g r = 0) : hueRef b g r = 0 := if_pos hd

theorem hueRef_of_chroma_ne_zero (hd : chroma b g r ≠ 0) :
    hueRef b g r = if hueQuotient b g r < 0 then hueQuotient b g r + 180 else hueQuotient b g r := if_neg hd

theorem hueSector_red (hr : valRef b g r = r) : hueSector b g r = (g : Int) - b := if_pos hr

theorem hueSector_green (hr : valRef b g r ≠ r) (hg : valRef b g r = g) :
    hueSector b g r = ((b : Int) - r) + 2 * chroma b g r := (if_neg hr).trans (if_pos hg)

theorem hueSector_blue (hr : valRef b g r ≠ r) (hg : valRef b g r ≠ g) :
    hueSector b g r = ((r : Int) - g) + 4 * chroma b g r := (if_neg hr).trans (if_neg hg)

theorem satRef_of_valRef_eq_zero (hv : valRef b g r = 0) : satRef b g r = 0 := if_pos hv

theorem satRef_of_valRef_ne_zero (hv : valRef b g r ≠ 0) :
    satRef b g r = (510 * chroma b g r + valRef b g r) / (2 * valRef b g r) := if_neg hv

/-! ### Bounds -/

theorem chroma_le_valRef (b g r : Nat) : chroma b g r ≤ valRef b g r := Nat.sub_le ..

/-- The difference of two channels is at most the chroma, so the three sectors span `-d` to `5d`. -/
theorem hueSector_bounds (b g r : Nat) : -(chroma b g r : Int) ≤ hueSector b g r ∧ hueSector b g r ≤ 5 * chroma b g r := by
  unfold hueSector chroma valRef
  split_ifs <;> omega

theorem hueQuotient_spec (hd : chroma b g r ≠ 0) :
    2 * (chroma b g r : Int) * hueQuotient b g r ≤ 60 * hueSector b g r + chroma b g r ∧
      60 * hueSector b g r + chroma b g r < 2 * (chroma b g r : Int) * (hueQuotient b g r + 1) := by
  have hpos : 0 < 2 * (chroma b g r : Int) := by omega
  exact ⟨Int.mul_ediv_self_le hpos.ne', (Int.lt_mul_ediv_self_add hpos).trans_eq (mul_add_one _ _).symm⟩

theorem hueQuotient_bounds (hd : chroma b g r ≠ 0) : -30 ≤ hueQuotient b g r ∧ hueQuotient b g r ≤ 150 := by
  obtain ⟨hlo, hhi⟩ := hueSector_bounds b g r
  have hpos : 0 < 2 * (chroma b g r : Int) := by omega
  constructor
  · exact (Int.le_ediv_iff_mul_le hpos).2 (by omega)
  · exact Int.le_of_lt_add_one ((Int.ediv_lt_iff_lt_mul hpos).2 (by omega))

theorem hueRef_bounds (b g r : Nat) : 0 ≤ hueRef b g r ∧ hueRef b g r ≤ 179 := by
  by_cases hd : chroma b g r = 0
  · simp [hueRef_of_chroma_eq_zero hd]
  · have hq := hueQuotient_bounds hd
    rw [hueRef_of_chroma_ne_zero hd]
    split_ifs <;> omega

theorem satRef_spec (hv : valRef b g r ≠ 0) :
    2 * valRef b g r * satRef b g r ≤ 510 * chroma b g r + valRef b g r ∧
      510 * chroma b g r + valRef b g r < 2 * valRef b g r * (satRef b g r + 1) := by
  rw [satRef_of_valRef_ne_zero hv]
  exact ⟨Nat.mul_div_le _ _, Nat.lt_mul_div_succ _ (by omega)⟩

theorem satRef_le (b g r : Nat) : satRef b g r ≤ 255 := by
  by_cases hv : valRef b g r = 0
  · simp [satRef_of_valRef_eq_zero hv]
  · have hd := chroma_le_valRef b g r
    rw [satRef_of_valRef_ne_zero hv]
    exact Nat.le_of_lt_succ ((Nat.div_lt_iff_lt_mul (by omega)).2 (by omega))

/-- No chroma, no saturation: the quotient is a half, rounded down. -/
theorem satRef_of_chroma_eq_zero (hd : chroma b g r = 0) : satRef b g r = 0 := by
  by_cases hv : valRef b g r = 0
  · exact satRef_of_valRef_eq_zero hv
  · rw [satRef_of_valRef_ne_zero hv, hd]
    exact Nat.div_eq_of_lt (by omega)

/-! ### The 8-bit results -/

section
variable (p : Pixel)

theorem toNat_hsvRef_hue : ((hsvRef p).hue.toNat : Int) = hueRef p.c0.toNat p.c1.toNat p.c2.toNat := by
  have hb := hueRef_bounds p.c0.toNat p.c1.toNat p.c2.toNat
  simp only [hsvRef, BitVec.toNat_ofInt]
  omega

theorem toNat_hsvRef_sat : (hsvRef p).sat.toNat = satRef p.c0.toNat p.c1.toNat p.c2.toNat := by
  have hb := satRef_le p.c0.toNat p.c1.toNat p.c2.toNat
  simp only [hsvRef, BitVec.toNat_ofNat]
  omega

theorem toNat_hsvRef_val : (hsvRef p).val.toNat = valRef p.c0.toNat p.c1.toNat p.c2.toNat := by
  have h0 := p.c0.isLt
  have h1 := p.c1.isLt
  have h2 := p.c2.isLt
  simp only [hsvRef, BitVec.toNat_ofNat, valRef]
  omega

theorem hsvRef_hue_le : (hsvRef p).hue.toNat ≤ 179 := by
  have hb := (hueRef_bounds p.c0.toNat p.c1.toNat p.c2.toNat).2
  rw [← toNat_hsvRef_hue] at hb
  omega

theorem hsvRef_sat_of_valRef_eq_zero (hv : valRef p.c0.toNat p.c1.toNat p.c2.toNat = 0) : (hsvRef p).sat = 0 :=
  BitVec.eq_of_toNat_eq ((toNat_hsvRef_sat p).trans (satRef_of_valRef_eq_zero hv))

/-- A pixel without chroma has neither hue nor saturation. -/
theorem hsvRef_of_chroma_eq_zero (hd : chroma p.c0.toNat p.c1.toNat p.c2.toNat = 0) : (hsvRef p).hue = 0 ∧ (hsvRef p).sat = 0 := by
  refine ⟨BitVec.eq_of_toNat_eq (Int.ofNat_inj.1 ?_), BitVec.eq_of_toNat_eq ?_⟩
  · exact (toNat_hsvRef_hue p).trans (hueRef_of_chroma_eq_zero hd)
  · exact (toNat_hsvRef_sat p).trans (satRef_of_chroma_eq_zero hd)

theorem hsvRef_of_grey {p : Pixel} (h01 : p.c0 = p.c1) (h12 : p.c1 = p.c2) : (hsvRef p).hue = 0 ∧ (hsvRef p).sat = 0 :=
  hsvRef_of_chroma_eq_zero p (by simp [chroma, valRef, h01, h12])

end

/-- With a floor of at least 1 the value of a foreground pixel is not 0 (R113 (e)). -/
theorem ne_black_of_accepts {cfg : SegCfg} {p : Pixel} (hfloor : 1 ≤ cfg.vmin.toNat) (h : cfg.accepts (hsvRef p) = true) :
    p ≠ Pixel.black := by
  rintro rfl
  simp only [SegCfg.accepts, Bool.and_eq_true, decide_eq_true_iff] at h
  have hval : cfg.vmin.toNat ≤ 0 := h.2
  omega

/-- Settles O43: the quotients of R103 are divisions with remainder, and their bounds fit 8 bits. -/
theorem hsvRefStaysInItsScales : Obligations.HsvRefStaysInItsScales := by
  refine ⟨fun p b g r v m d hb hg hr hv hm hd => ?_, fun p =>
    ⟨hsvRef_hue_le p, toNat_hsvRef_hue p, toNat_hsvRef_sat p, toNat_hsvRef_val p, hsvRef_of_grey, fun _ => ne_black_of_accepts⟩⟩
  have hval : v = (valRef p.c0.toNat p.c1.toNat p.c2.toNat : Nat) := by
    simp only [valRef]; omega
  have hchroma : d = (chroma p.c0.toNat p.c1.toNat p.c2.toNat : Nat) := by
    simp only [chroma, valRef]; omega
  clear hv hd hm
  subst hb hg hr hval hchroma
  simp only [Nat.cast_inj, Nat.cast_eq_zero, ne_eq]
  refine ⟨toNat_hsvRef_val p, hsvRef_sat_of_valRef_eq_zero p, fun hv => ?_, hsvRef_of_chroma_eq_zero p, fun hd => ?_⟩
  · rw [toNat_hsvRef_sat]
    exact_mod_cast satRef_spec hv
  · rw [toNat_hsvRef_hue, hueRef_of_chroma_ne_zero hd]
    obtain ⟨hlo, hhi⟩ := hueQuotient_spec hd
    exact ⟨_, _, fun h => hueSector_red h.symm, fun h hg => hueSector_green (Ne.symm h) hg.symm,
      fun h hg => hueSector_blue (Ne.symm h) (Ne.symm hg), hlo, hhi, fun h => if_pos h, fun h => if_neg (not_lt.2 h)⟩

end Sys2Proof

/-! SUPPORT. Masks position by position: the neighbourhood of R105 by rows and columns, erosion, dilation and opening, and the frame a
mask is applied to (R105 to R111). -/

namespace Sys2Proof

variable {h w : Nat}

/-! ### Row-major positions -/

theorem rowMajor_div {c : Nat} (r : Nat) (hc : c < w) : (r * w + c) / w = r := by
  rw [Nat.add_comm, Nat.add_mul_div_right _ _ (Nat.zero_lt_of_lt hc), Nat.div_eq_of_lt hc, Nat.zero_add]

theorem rowMajor_mod {c : Nat} (r : Nat) (hc : c < w) : (r * w + c) % w = c := by
  rw [Nat.add_comm, Nat.add_mul_mod_self_right, Nat.mod_eq_of_lt hc]

theorem rowMajor_lt {r c : Nat} (hr : r < h) (hc : c < w) : r * w + c < h * w :=
  calc r * w + c < r * w + w := Nat.add_lt_add_left hc _
    _ = (r + 1) * w := (Nat.succ_mul r w).symm
    _ ≤ h * w := Nat.mul_le_mul_right w hr

/-- Every position of a frame has a row and a column. -/
theorem exists_rowMajor {i : Nat} (hi : i < h * w) : ∃ r c, r < h ∧ c < w ∧ i = r * w + c := by
  have hw : 0 < w := Nat.pos_of_mul_pos_left (Nat.zero_lt_of_lt hi)
  exact ⟨i / w, i % w, Nat.div_lt_of_lt_mul (Nat.mul_comm h w ▸ hi), Nat.mod_lt i hw, (Nat.div_add_mod' i w).symm⟩

/-! ### The neighbourhood (R105) -/

theorem near_iff {a b : Nat} : near a b = true ↔ a ≤ b + 1 ∧ b ≤ a + 1 := by simp [near]

theorem mem_neighbours {r c j : Nat} (hc : c < w) :
    j ∈ neighbours h w (r * w + c) ↔
      ∃ r' c', r' < h ∧ c' < w ∧ (r' ≤ r + 1 ∧ r ≤ r' + 1) ∧ (c' ≤ c + 1 ∧ c ≤ c' + 1) ∧ r' * w + c' = j := by
  simp only [neighbours, rowMajor_div r hc, rowMajor_mod r hc, List.mem_flatMap, List.mem_map, List.mem_filter, List.mem_range, near_iff]
  constructor
  · rintro ⟨r', ⟨hr', hrow⟩, c', ⟨hc', hcol⟩, hj⟩
    exact ⟨r', c', hr', hc', hrow.symm, hcol.symm, hj⟩
  · rintro ⟨r', c', hr', hc', hrow, hcol, hj⟩
    exact ⟨r', ⟨hr', hrow.symm⟩, c', ⟨hc', hcol.symm⟩, hj⟩

/-- In a frame being neighbours is mutual. -/
theorem mem_neighbours_symm {i j : Nat} (hi : i < h * w) (hj : j ∈ neighbours h w i) : j < h * w ∧ i ∈ neighbours h w j := by
  obtain ⟨r, c, hr, hc, rfl⟩ := exists_rowMajor hi
  obtain ⟨r', c', hr', hc', hrow, hcol, rfl⟩ := (mem_neighbours hc).1 hj
  exact ⟨rowMajor_lt hr' hc', (mem_neighbours hc').2 ⟨r, c, hr, hc, hrow.symm, hcol.symm, rfl⟩⟩

/-! ### Erosion, dilation, opening (R105 to R107) -/

variable {m : List Bool} {i : Nat}

theorem maskAt_map_range (f : Nat → Bool) (n i : Nat) : maskAt ((List.range n).map f) i = true ↔ i < n ∧ f i = true := by
  by_cases hi : i < n <;> simp [maskAt, hi]

theorem maskAt_erode : maskAt (erode h w m) i = true ↔ i < h * w ∧ ∀ j ∈ neighbours h w i, maskAt m j = true := by
  rw [erode, maskAt_map_range, List.all_eq_true]

theorem maskAt_dilate : maskAt (dilate h w m) i = true ↔ i < h * w ∧ ∃ j ∈ neighbours h w i, maskAt m j = true := by
  rw [dilate, maskAt_map_range, List.any_eq_true]

/-- Opening never adds foreground (R113 (b)): a set position has a neighbour all of whose neighbours, the position among them, are set. -/
theorem maskAt_of_maskAt_opening (hset : maskAt (opening h w m) i = true) : maskAt m i = true := by
  obtain ⟨hi, j, hj, heroded⟩ := maskAt_dilate.1 hset
  exact (maskAt_erode.1 heroded).2 i (mem_neighbours_symm hi hj).2

theorem length_opening (h w : Nat) (m : List Bool) : (opening h w m).length = h * w := by simp [opening, dilate]

/-! ### The segmented frame (R104, R108, R109, R111) -/

theorem maskAt_thresholdMask {conv : Pixel → Hsv} {cfg : SegCfg} {p : List Pixel} {x : Pixel} (hx : p[i]? = some x) :
    maskAt (thresholdMask conv cfg p) i = cfg.accepts (conv x) := by
  simp [maskAt, thresholdMask, hx]

theorem length_finalMask (openEn : Bool) (hm : m.length = h * w) : (finalMask h w openEn m).length = h * w := by
  cases openEn with
  | false => exact hm
  | true => exact length_opening h w m

/-- With the opening or without it, the final mask is set only where the threshold mask is. -/
theorem maskAt_of_maskAt_finalMask {openEn : Bool} (hset : maskAt (finalMask h w openEn m) i = true) : maskAt m i = true := by
  cases openEn with
  | false => exact hset
  | true => exact maskAt_of_maskAt_opening hset

/-- Applying a mask of the frame's length keeps the pixel where it is set and gives black elsewhere (R109). -/
theorem getElem?_applyMask {p : List Pixel} {x : Pixel} (hm : m.length = p.length) (hx : p[i]? = some x) :
    (applyMask p m)[i]? = some (if maskAt m i = true then x else Pixel.black) := by
  obtain ⟨hi, -⟩ := List.getElem?_eq_some_iff.1 hx
  have hb : m[i]? = some (maskAt m i) := by
    rw [maskAt, List.getD_eq_getElem _ _ (hm ▸ hi), List.getElem?_eq_getElem]
  simp [applyMask, List.getElem?_zipWith, hx, hb]

section
variable {conv : Pixel → Hsv} {cfg : SegCfg} {p : List Pixel} (hp : p.length = h * w)
include hp

theorem length_finalMask_thresholdMask : (finalMask h w cfg.openEn (thresholdMask conv cfg p)).length = p.length :=
  (length_finalMask cfg.openEn (by simp [thresholdMask, hp])).trans hp.symm

theorem length_segFrame : (segFrame conv h w p cfg).length = h * w := by
  rw [segFrame, applyMask, List.length_zipWith, length_finalMask_thresholdMask hp, Nat.min_self, hp]

theorem getElem?_segFrame {x : Pixel} (hx : p[i]? = some x) :
    (segFrame conv h w p cfg)[i]? =
      some (if maskAt (finalMask h w cfg.openEn (thresholdMask conv cfg p)) i = true then x else Pixel.black) :=
  getElem?_applyMask (length_finalMask_thresholdMask hp) hx

end

/-! ### The statements -/

/-- Settles O44: the neighbourhood of a position, by rows and columns. -/
theorem erosionAndDilationByNeighbours : Obligations.ErosionAndDilationByNeighbours := by
  intro h w r c m hr hc
  have hi := rowMajor_lt hr hc
  rw [maskAt_erode, maskAt_dilate]
  constructor
  · refine ⟨fun ⟨_, hall⟩ r' c' hr' hc' h1 h2 h3 h4 =>
      hall _ ((mem_neighbours hc).2 ⟨r', c', hr', hc', ⟨h1, h2⟩, ⟨h3, h4⟩, rfl⟩), fun hall => ⟨hi, fun j hj => ?_⟩⟩
    obtain ⟨r', c', hr', hc', ⟨h1, h2⟩, ⟨h3, h4⟩, rfl⟩ := (mem_neighbours hc).1 hj
    exact hall r' c' hr' hc' h1 h2 h3 h4
  · constructor
    · rintro ⟨-, j, hj, hset⟩
      obtain ⟨r', c', hr', hc', ⟨h1, h2⟩, ⟨h3, h4⟩, rfl⟩ := (mem_neighbours hc).1 hj
      exact ⟨r', c', hr', hc', h1, h2, h3, h4, hset⟩
    · rintro ⟨r', c', hr', hc', h1, h2, h3, h4, hset⟩
      exact ⟨hi, _, (mem_neighbours hc).2 ⟨r', c', hr', hc', ⟨h1, h2⟩, ⟨h3, h4⟩, rfl⟩, hset⟩

/-- Settles O47: the final mask has the frame's length and is set only where the threshold mask is. -/
theorem outputPixelsAreInputOrBlack : Obligations.OutputPixelsAreInputOrBlack := by
  intro conv h w p cfg hp
  refine ⟨length_segFrame hp, fun i x hx => ⟨fun ho => ?_, fun ho => ?_⟩, fun i x y hx hy => ?_⟩
  · rw [getElem?_segFrame hp hx, ho]; rfl
  · rw [getElem?_segFrame hp hx, ho]; rfl
  · obtain rfl := Option.some.inj ((getElem?_segFrame hp hx).symm.trans hy)
    split_ifs with hset
    · exact ⟨.inl rfl, fun _ => maskAt_thresholdMask hx ▸ maskAt_of_maskAt_finalMask hset⟩
    · exact ⟨.inr rfl, fun hne => absurd rfl hne⟩

end Sys2Proof

/-! SUPPORT. ENC's instructions branch by branch (R133 to R136), and the statements about them. -/

namespace Sys2Proof

/-! ### Decoding -/

/-- The instructions of `enc_in`, by kind (R80). -/
theorem decode_enc_kind0 {w : TokenWord} (h : w.extractLsb' 40 4 = 0#4) : decode .enc w = .ok (.encData (low8 w)) :=
  decode_of_decodeToken_ok (decodeToken_kind0 h)

theorem decode_enc_kind4 {w : TokenWord} (h : w.extractLsb' 40 4 = 4#4) : decode .enc w = .ok .encEnd :=
  decode_of_decodeToken_ok (decodeToken_kind4 h)

theorem decode_enc_kind5 {w : TokenWord} (h : w.extractLsb' 40 4 = 5#4) :
    decode .enc w = .ok (.encErr (causeField w) (infoField w)) :=
  decode_of_decodeToken_ok (decodeToken_kind5 h)

/-- The kinds `enc_in` does not accept (R81, R136). -/
theorem decode_enc_error {w : TokenWord}
    (hw : w.extractLsb' 40 4 = 1#4 ∨ w.extractLsb' 40 4 = 2#4 ∨ w.extractLsb' 40 4 = 3#4 ∨ 6#4 ≤ w.extractLsb' 40 4) :
    ∃ e, decode .enc w = .error e := by
  rcases hw with hk | hk | hk | hk
  · exact ⟨_, decode_of_decodeToken_ok (decodeToken_kind1 hk)⟩
  · exact ⟨_, decode_of_decodeToken_ok (decodeToken_kind2 hk)⟩
  · exact ⟨_, decode_of_decodeToken_ok (decodeToken_kind3 hk)⟩
  · exact ⟨_, decode_of_decodeToken_error (decodeToken_reserved hk)⟩

namespace Machine

/-! ### Each branch of each instruction -/

/-- With a run open, only the value and the count are new. -/
theorem encOpen_of_haveRun {s : State} (hr : s.enc.haveRun = true) (v : Sample) :
    s.encOpen v = { s with enc := { s.enc with cur := v, cnt := 1 } } := by
  rw [State.encOpen, ← hr]

section
variable {s : State} (hf : s.enc.fault = 0)
include hf

theorem whenRunning_enc (r : Result) : s.whenRunning .enc r = r := whenRunning_running (u := .enc) hf r

theorem execEncData_start (v : Sample) (hr : s.enc.haveRun = false) : execEncData v s = .next (s.encOpen v) :=
  (whenRunning_enc hf _).trans (if_pos hr)

theorem execEncData_open {v : Sample} (hr : s.enc.haveRun = true) :
    execEncData v s =
      if v = s.enc.cur then
        if s.enc.cnt.toNat = Config.maxCnt then .next (s.raise .enc .countOverflow .none)
        else .next { s with enc := { s.enc with cnt := s.enc.cnt + 1 } }
      else .next ((s.emit .enc s.enc.openRun).encOpen v) :=
  (whenRunning_enc hf _).trans (if_neg (Bool.not_eq_false _ ▸ hr))

theorem execEncData_overflow {v : Sample} (hr : s.enc.haveRun = true) (hv : v = s.enc.cur) (hc : s.enc.cnt.toNat = Config.maxCnt) :
    execEncData v s = .next (s.raise .enc .countOverflow .none) :=
  (execEncData_open hf hr).trans ((if_pos hv).trans (if_pos hc))

theorem execEncData_count {v : Sample} (hr : s.enc.haveRun = true) (hv : v = s.enc.cur) (hc : s.enc.cnt.toNat ≠ Config.maxCnt) :
    execEncData v s = .next { s with enc := { s.enc with cnt := s.enc.cnt + 1 } } :=
  (execEncData_open hf hr).trans ((if_pos hv).trans (if_neg hc))

theorem execEncData_change {v : Sample} (hr : s.enc.haveRun = true) (hv : v ≠ s.enc.cur) :
    execEncData v s = .next ((s.emit .enc s.enc.openRun).encOpen v) :=
  (execEncData_open hf hr).trans (if_neg hv)

theorem execEncEnd_running :
    execEncEnd s = .next ((s.emitAll .enc (if s.enc.haveRun then [s.enc.openRun, .fin] else [.fin])).idle .enc) :=
  whenRunning_enc hf _

theorem execEncErr_running (cause info : Code) : execEncErr cause info s = .next (s.forwardErr .enc cause info) :=
  whenRunning_enc hf _

/-- A sample is accepted with a run open and without: no branch records ILLEGAL_TOKEN. -/
theorem execEncData_accepted (v : Sample) : ∃ t, execEncData v s = .next t ∧ t.enc.fault ≠ 1 := by
  have hzero : s.enc.fault ≠ 1 := by rw [hf]; decide
  cases hr : s.enc.haveRun with
  | false => exact ⟨_, execEncData_start hf v hr, hzero⟩
  | true =>
    by_cases hv : v = s.enc.cur
    · by_cases hc : s.enc.cnt.toNat = Config.maxCnt
      · exact ⟨_, execEncData_overflow hf hr hv hc, (raise_fault_self s .enc _ _).trans_ne (by decide)⟩
      · exact ⟨_, execEncData_count hf hr hv hc, hzero⟩
    · exact ⟨_, execEncData_change hf hr hv, hzero⟩

end

/-! ### The statements -/

/-- Settles O6: below `MAXCNT` the count does not wrap. -/
theorem encDataConsumesSample : Obligations.EncDataConsumesSample := by
  refine ⟨fun _ => decode_enc_kind0, fun v s hf =>
    ⟨execEncData_start hf v, execEncData_overflow hf, fun hr hv hc => ?_, fun hr hv => ?_⟩⟩
  · have hcount : (s.enc.cnt + 1).toNat = s.enc.cnt.toNat + 1 :=
      BitVec.toNat_add_of_lt (show s.enc.cnt.toNat + 1 < 2 ^ 32 by omega)
    exact ⟨_, hcount, execEncData_count hf hr hv hc.ne⟩
  · have hopen := encOpen_of_haveRun (s := s.emit .enc s.enc.openRun) hr v
    exact (execEncData_change hf hr hv).trans (congrArg Host.Outcome.next hopen)

/-- Settles O7: the tokens emitted are chosen by `enc.have`. -/
theorem encEndFlushesRun : Obligations.EncEndFlushesRun := by
  refine ⟨fun _ => decode_enc_kind4, fun s hf => ⟨fun hr => ?_, fun hr => ?_⟩⟩
  all_goals
    refine (execEncEnd_running hf).trans ?_
    rw [hr]
    rfl

/-- Settles O8: an ERR is forwarded with a run open and without. -/
theorem encErrForwardsAbort : Obligations.EncErrForwardsAbort :=
  ⟨fun _ => decode_enc_kind5, fun cause info _ hf => execEncErr_running hf cause info⟩

/-- Settles O9: the consumed word decodes to no instruction of ENC, and the fault action leaves the open run as it is. -/
theorem encRejectsIllegalTokens : Obligations.EncRejectsIllegalTokens := by
  constructor
  · intro s turns w q hsched hq hf hw
    obtain ⟨e, he⟩ := decode_enc_error hw
    rw [step_sched hsched]
    exact (consume_cons (s := { s with sched := turns }) (u := .enc) hq hf).trans (executeToken_error he)
  · intro s i hf hi
    have hzero : s.enc.fault ≠ 1 := by rw [hf]; decide
    rcases hi with ⟨v, rfl⟩ | rfl | ⟨c, d, rfl⟩
    · exact execEncData_accepted hf v
    · exact ⟨_, execEncEnd_running hf, hzero⟩
    · exact ⟨_, execEncErr_running hf c d, hzero⟩

end Machine
end Sys2Proof

/-! SUPPORT. The sequence level of the codec: what `rleDecode` accepts and gives, canonical form and `rleEncode` by the first run, and
each as the inverse of the other (R131, R150). -/

namespace Sys2Proof

variable {v cur : Sample} {c cnt : Nat} {a : Run} {r : List Run} {xs out : List Sample}

/-! ### `rleDecode` by the first run (R150) -/

theorem rleDecode_cons_of_ok (hc : c ≠ 0) (hr : rleDecode r = .ok out) :
    rleDecode ((v, c) :: r) = .ok (List.replicate c v ++ out) := by
  simp [rleDecode, hc, hr]

theorem rleDecode_cons_eq_ok_iff :
    rleDecode ((v, c) :: r) = .ok xs ↔ c ≠ 0 ∧ ∃ out, rleDecode r = .ok out ∧ xs = List.replicate c v ++ out := by
  constructor
  · intro h
    rw [rleDecode] at h
    split_ifs at h with hc
    cases hr : rleDecode r with
    | error e => rw [hr] at h; cases h
    | ok out => rw [hr] at h; cases h; exact ⟨hc, out, rfl, rfl⟩
  · rintro ⟨hc, out, hr, rfl⟩
    exact rleDecode_cons_of_ok hc hr

/-- What a decoded sequence says of its runs: their counts are positive and sum to the number of samples. -/
theorem counts_of_rleDecode (h : rleDecode r = .ok xs) : countSum r = xs.length ∧ ∀ a ∈ r, 1 ≤ a.2 := by
  induction r generalizing xs with
  | nil => cases h; exact ⟨rfl, by simp⟩
  | cons a r ih =>
    obtain ⟨hc, out, hr, rfl⟩ := rleDecode_cons_eq_ok_iff.1 h
    obtain ⟨hsum, hpos⟩ := ih hr
    refine ⟨?_, List.forall_mem_cons.2 ⟨Nat.one_le_iff_ne_zero.2 hc, hpos⟩⟩
    rw [List.length_append, List.length_replicate, ← hsum]
    rfl

/-- The first sample of a decoded sequence is the value of the first run. -/
theorem head?_of_rleDecode (h : rleDecode r = .ok xs) : xs.head? = r.head?.map Prod.fst := by
  cases r with
  | nil => cases h; rfl
  | cons a r =>
    obtain ⟨hc, out, -, rfl⟩ := rleDecode_cons_eq_ok_iff.1 h
    simp [List.head?_append, List.head?_replicate, hc]

/-! ### Canonical form by the first run (R12) -/

theorem canonicalRuns_cons_iff : canonicalRuns (a :: r) = true ↔ r.head?.map Prod.fst ≠ some a.1 ∧ canonicalRuns r = true := by
  cases r with
  | nil => simp [canonicalRuns]
  | cons b r => simp [canonicalRuns, eq_comm (a := b.1)]

/-! ### `rleEncode` by the first run (R130) -/

theorem encodeFrom_cons_self : encodeFrom cur cnt (cur :: xs) = encodeFrom cur (cnt + 1) xs := if_pos rfl

theorem encodeFrom_replicate_append (k : Nat) : encodeFrom cur cnt (List.replicate k cur ++ xs) = encodeFrom cur (cnt + k) xs := by
  induction k generalizing cnt with
  | zero => rfl
  | succ k ih => rw [List.replicate_succ, List.cons_append, encodeFrom_cons_self, ih, Nat.add_assoc, Nat.add_comm 1]

/-- Where the open run ends, the rest is encoded afresh. -/
theorem encodeFrom_of_head_ne (h : xs.head? ≠ some cur) : encodeFrom cur cnt xs = (cur, cnt) :: rleEncode xs := by
  cases xs with
  | nil => rfl
  | cons x xs => exact if_neg fun hx => h (congrArg some hx)

/-- A maximal block of one value is the first run. -/
theorem rleEncode_replicate_append (hc : c ≠ 0) (h : xs.head? ≠ some v) :
    rleEncode (List.replicate c v ++ xs) = (v, c) :: rleEncode xs := by
  obtain ⟨k, rfl⟩ := Nat.exists_eq_succ_of_ne_zero hc
  calc rleEncode (List.replicate (k + 1) v ++ xs)
      = encodeFrom v 1 (List.replicate k v ++ xs) := rfl
    _ = encodeFrom v (k + 1) xs := by rw [encodeFrom_replicate_append, Nat.add_comm]
    _ = (v, k + 1) :: rleEncode xs := encodeFrom_of_head_ne h

/-! ### Encoding, then decoding -/

/-- The open run is expanded in front of the samples still to come. -/
theorem rleDecode_encodeFrom (hcnt : cnt ≠ 0) : rleDecode (encodeFrom cur cnt xs) = .ok (List.replicate cnt cur ++ xs) := by
  induction xs generalizing cur cnt with
  | nil => exact rleDecode_cons_of_ok hcnt rfl
  | cons x xs ih =>
    by_cases hx : x = cur
    · subst hx
      rw [encodeFrom_cons_self, ih (Nat.succ_ne_zero cnt), List.replicate_succ', List.append_assoc]
      rfl
    · rw [encodeFrom_of_head_ne (by simpa using hx)]
      exact rleDecode_cons_of_ok hcnt (ih Nat.one_ne_zero)

theorem rleDecode_rleEncode (xs : List Sample) : rleDecode (rleEncode xs) = .ok xs := by
  cases xs with
  | nil => rfl
  | cons x xs => exact rleDecode_encodeFrom Nat.one_ne_zero

theorem head?_rleEncode (xs : List Sample) : (rleEncode xs).head?.map Prod.fst = xs.head? :=
  (head?_of_rleDecode (rleDecode_rleEncode xs)).symm

/-- A run is closed only by a sample of another value, which is then the value of the next run. -/
theorem canonicalRuns_encodeFrom (cur : Sample) (cnt : Nat) (xs : List Sample) : canonicalRuns (encodeFrom cur cnt xs) = true := by
  induction xs generalizing cur cnt with
  | nil => rfl
  | cons x xs ih =>
    by_cases hx : x = cur
    · subst hx
      rw [encodeFrom_cons_self]
      exact ih x (cnt + 1)
    · have hhead : (x :: xs).head? ≠ some cur := by simpa using hx
      rw [encodeFrom_of_head_ne hhead, canonicalRuns_cons_iff, head?_rleEncode]
      exact ⟨hhead, ih x 1⟩

theorem canonicalRuns_rleEncode (xs : List Sample) : canonicalRuns (rleEncode xs) = true := by
  cases xs with
  | nil => rfl
  | cons x xs => exact canonicalRuns_encodeFrom x 1 xs

/-! ### Decoding, then encoding -/

/-- A canonical sequence is the encoding of what it decodes to: each run is a maximal block. -/
theorem rleEncode_of_rleDecode (hcanonical : canonicalRuns r = true) (h : rleDecode r = .ok xs) : rleEncode xs = r := by
  induction r generalizing xs with
  | nil => cases h; rfl
  | cons a r ih =>
    obtain ⟨hc, out, hr, rfl⟩ := rleDecode_cons_eq_ok_iff.1 h
    obtain ⟨hhead, hcanonical⟩ := canonicalRuns_cons_iff.1 hcanonical
    rw [← head?_of_rleDecode hr] at hhead
    rw [rleEncode_replicate_append hc hhead, ih hcanonical hr]

/-- Settles O49: the counts are what decoding says of them, and a canonical sequence is determined by its expansion. -/
theorem encodeGuarantees : Obligations.EncodeGuarantees := by
  intro x
  have hdecode := rleDecode_rleEncode x
  obtain ⟨hsum, hpos⟩ := counts_of_rleDecode hdecode
  exact ⟨hsum, hdecode, canonicalRuns_rleEncode x, hpos, fun _ _ hr hcanonical _ => (rleEncode_of_rleDecode hcanonical hr).symm⟩

end Sys2Proof

/-! SUPPORT. DEC's instructions branch by branch (R153 to R156), and the statements about them. -/

namespace Sys2Proof

/-! ### Decoding -/

/-- The instructions of `dec_in`, by kind (R80). -/
theorem decode_dec_kind1 {w : TokenWord} (h : w.extractLsb' 40 4 = 1#4) : decode .dec w = .ok (.decRun (low8 w) (countField w)) :=
  decode_of_decodeToken_ok (decodeToken_kind1 h)

theorem decode_dec_kind4 {w : TokenWord} (h : w.extractLsb' 40 4 = 4#4) : decode .dec w = .ok .decEnd :=
  decode_of_decodeToken_ok (decodeToken_kind4 h)

theorem decode_dec_kind5 {w : TokenWord} (h : w.extractLsb' 40 4 = 5#4) :
    decode .dec w = .ok (.decErr (causeField w) (infoField w)) :=
  decode_of_decodeToken_ok (decodeToken_kind5 h)

/-- The kinds `dec_in` does not accept (R81, R156). -/
theorem decode_dec_error {w : TokenWord}
    (hw : w.extractLsb' 40 4 = 0#4 ∨ w.extractLsb' 40 4 = 2#4 ∨ w.extractLsb' 40 4 = 3#4 ∨ 6#4 ≤ w.extractLsb' 40 4) :
    ∃ e, decode .dec w = .error e := by
  rcases hw with hk | hk | hk | hk
  · exact ⟨_, decode_of_decodeToken_ok (decodeToken_kind0 hk)⟩
  · exact ⟨_, decode_of_decodeToken_ok (decodeToken_kind2 hk)⟩
  · exact ⟨_, decode_of_decodeToken_ok (decodeToken_kind3 hk)⟩
  · exact ⟨_, decode_of_decodeToken_error (decodeToken_reserved hk)⟩

/-- The words of a run's samples: one DATA word, `n` times (R72, R153). -/
theorem wordsOf_replicate_data (n : Nat) (v : Sample) :
    wordsOf (List.replicate n (.data v)) = List.replicate n (0x0#4 ++ (0#32 ++ v)) :=
  List.map_replicate

namespace Machine

/-! ### Each branch of each instruction -/

section
variable {s : State} (hf : s.dec.fault = 0)
include hf

theorem whenRunning_dec (r : Result) : s.whenRunning .dec r = r := whenRunning_running (u := .dec) hf r

theorem execDecRun_zero (v : Sample) {c : Count} (hc : c = 0) : execDecRun v c s = .next (s.raise .dec .invalidRun .none) :=
  (whenRunning_dec hf _).trans (if_pos hc)

theorem execDecRun_expand (v : Sample) {c : Count} (hc : c ≠ 0) :
    execDecRun v c s = .next (s.emitAll .dec (List.replicate c.toNat (.data v))) :=
  (whenRunning_dec hf _).trans (if_neg hc)

theorem execDecEnd_running : execDecEnd s = .next (s.emit .dec .fin) :=
  whenRunning_dec hf _

theorem execDecErr_running (cause info : Code) : execDecErr cause info s = .next (s.forwardErr .dec cause info) :=
  whenRunning_dec hf _

/-- A run is accepted with every count: a zero count records INVALID_RUN, never ILLEGAL_TOKEN. -/
theorem execDecRun_accepted (v : Sample) (c : Count) : ∃ t, execDecRun v c s = .next t ∧ t.dec.fault ≠ 1 := by
  by_cases hc : c = 0
  · exact ⟨_, execDecRun_zero hf v hc, (raise_fault_self s .dec _ _).trans_ne (by decide)⟩
  · have hzero : s.dec.fault ≠ 1 := by rw [hf]; decide
    exact ⟨_, execDecRun_expand hf v hc, hzero⟩

end

/-! ### The statements -/

/-- Settles O10: a count is 0 exactly when its number is, and the run's samples are emitted as one list of DATA tokens. -/
theorem decRunExpandsRun : Obligations.DecRunExpandsRun := by
  refine ⟨fun _ => decode_dec_kind1, fun v c s hf => ⟨fun hc => ?_, fun hc => ?_⟩⟩
  · exact execDecRun_zero hf v (BitVec.eq_of_toNat_eq hc)
  · have hne : c ≠ 0 := by rintro rfl; exact absurd hc (by decide)
    refine (execDecRun_expand hf v hne).trans ?_
    rw [emitAll_dec, wordsOf_replicate_data]

/-- Settles O11: END is emitted whatever was decoded before it. -/
theorem decEndEmitsEnd : Obligations.DecEndEmitsEnd :=
  ⟨fun _ => decode_dec_kind4, fun _ hf => execDecEnd_running hf⟩

/-- Settles O12: DEC has no sequence state that an ERR could change. -/
theorem decErrForwardsAbort : Obligations.DecErrForwardsAbort :=
  ⟨fun _ => decode_dec_kind5, fun cause info _ hf => execDecErr_running hf cause info⟩

/-- Settles O13: the consumed word decodes to no instruction of DEC, and the fault action is all that happens. -/
theorem decRejectsIllegalTokens : Obligations.DecRejectsIllegalTokens := by
  constructor
  · intro s turns w q hsched hq hf hw
    obtain ⟨e, he⟩ := decode_dec_error hw
    rw [step_sched hsched]
    exact (consume_cons (s := { s with sched := turns }) (u := .dec) hq hf).trans (executeToken_error he)
  · intro s i hf hi
    have hzero : s.dec.fault ≠ 1 := by rw [hf]; decide
    rcases hi with ⟨v, c, rfl⟩ | rfl | ⟨c, d, rfl⟩
    · exact execDecRun_accepted hf v c
    · exact ⟨_, execDecEnd_running hf, hzero⟩
    · exact ⟨_, execDecErr_running hf c d, hzero⟩

end Machine
end Sys2Proof

/-! SUPPORT. Re-encoding (R159): a sequence of positive counts decodes, and what it decodes to has one canonical encoding. -/

namespace Sys2Proof

/-- Only a zero count makes `rleDecode` fail (R150). -/
theorem exists_rleDecode_of_counts {r : List Run} (hpos : ∀ a ∈ r, 1 ≤ a.2) : ∃ xs, rleDecode r = .ok xs := by
  induction r with
  | nil => exact ⟨[], rfl⟩
  | cons a r ih =>
    obtain ⟨hc, hr⟩ := List.forall_mem_cons.1 hpos
    obtain ⟨xs, hxs⟩ := ih hr
    exact ⟨_, rleDecode_cons_of_ok (Nat.one_le_iff_ne_zero.1 hc) hxs⟩

/-- An encoding is canonical, so no sequence that is not canonical is one. -/
theorem rleEncode_ne_of_not_canonical {r : List Run} (h : canonicalRuns r = false) (xs : List Sample) : rleEncode xs ≠ r := by
  rintro rfl
  exact absurd ((canonicalRuns_rleEncode xs).symm.trans h) (by decide)

/-- Settles O52: decoding undoes encoding, and encoding undoes decoding on the canonical sequences, which are all it gives. -/
theorem reencodingGivesCanonicalForm : Obligations.ReencodingGivesCanonicalForm := by
  refine ⟨fun r hcanonical hpos => ?_, fun x => ⟨x, rleDecode_rleEncode x, rfl⟩, fun r x hnot _ => ?_⟩
  · obtain ⟨x, hx⟩ := exists_rleDecode_of_counts hpos
    exact ⟨x, hx, rleEncode_of_rleDecode hcanonical hx⟩
  · exact ⟨canonicalRuns_rleEncode x, rleDecode_rleEncode x, rleEncode_ne_of_not_canonical hnot x⟩

end Sys2Proof

/-! SUPPORT. The register port: RD by the register's number (R170), WR by what it may do (R171 to R173), and the statements about them. -/

namespace Sys2Proof

/-! ### Decoding (R82) -/

theorem decodeRequest_rd {w : RequestWord} (h : weField w = false) : decodeRequest w = .rd (idxField w) :=
  if_neg (ne_true_of_eq_false h)

theorem decodeRequest_wr {w : RequestWord} (h : weField w = true) : decodeRequest w = .wr (idxField w) (wdataField w) :=
  if_pos h

/-- What a configuration register stores of a word, `v[7:0]` (R173). -/
theorem regWord_low8 (v : RegWord) : v.extractLsb' 0 8 = v.setWidth 8 :=
  (BitVec.setWidth_eq_extractLsb' (by omega)).symm

namespace Machine

theorem exec_rd (idx : RegIdx) (s : State) :
    exec (.rd idx) s = .next { s with host := { s.host with reads := s.host.reads ++ [s.regValue idx] } } := rfl

theorem exec_wr (idx : RegIdx) (v : RegWord) (s : State) : exec (.wr idx v) s = .next (s.regWrite idx v) := rfl

theorem RegName.ofIndex_unmapped {idx : RegIdx} (h : 11 ≤ idx.toNat) : RegName.ofIndex idx = .unmapped := by
  revert idx; decide

/-- The read-only and unmapped indices (R31, R33, R40, R41). -/
theorem RegName.ofIndex_readOnly {idx : RegIdx} (h : idx.toNat = 1 ∨ idx.toNat = 3 ∨ 10 ≤ idx.toNat) :
    RegName.ofIndex idx = .encStatus ∨ RegName.ofIndex idx = .decStatus ∨ RegName.ofIndex idx = .segStatus ∨
      RegName.ofIndex idx = .unmapped := by
  revert idx; decide

/-- Indices 0, 2 and 4 are the CTRL registers (R30, R32, R34). -/
theorem exists_ctrlIndex {idx : RegIdx} (h : idx.toNat = 0 ∨ idx.toNat = 2 ∨ idx.toNat = 4) : ∃ u, idx = ctrlIndex u := by
  rcases h with h | h | h
  · exact ⟨.enc, BitVec.eq_of_toNat_eq h⟩
  · exact ⟨.dec, BitVec.eq_of_toNat_eq h⟩
  · exact ⟨.seg, BitVec.eq_of_toNat_eq h⟩

section
variable (s : State) {idx : RegIdx} {v : RegWord}

theorem regValue_ctrl (u : UnitId) : s.regValue (ctrlIndex u) = 0 := by cases u <;> rfl

theorem regValue_unmapped (h : 11 ≤ idx.toNat) : s.regValue idx = 0 := by
  simp [State.regValue, RegName.ofIndex_unmapped h]

/-- A write of 1 to bit 0 of a CTRL register is the soft reset (R172). -/
theorem regWrite_ctrl_reset (u : UnitId) (hv : v.getLsbD 0 = true) : s.regWrite (ctrlIndex u) v = s.softReset u := by
  cases u <;> exact if_pos hv

theorem regWrite_ctrl_none (u : UnitId) (hv : v.getLsbD 0 = false) : s.regWrite (ctrlIndex u) v = s := by
  cases u <;> exact if_neg (ne_true_of_eq_false hv)

theorem regWrite_readOnly (h : idx.toNat = 1 ∨ idx.toNat = 3 ∨ 10 ≤ idx.toNat) : s.regWrite idx v = s := by
  rcases RegName.ofIndex_readOnly h with hr | hr | hr | hr <;> simp [State.regWrite, hr]

end

/-! ### The statements -/

/-- Settles O14: `regValue` gives each register's number at its index. -/
theorem rdReturnsRegister : Obligations.RdReturnsRegister := by
  refine ⟨fun _ => decodeRequest_rd, fun idx s => ⟨s.regValue idx, exec_rd idx s, ?_, ?_, ?_, ?_, ?_, ?_, ?_, ?_, ?_, ?_⟩⟩
    <;> intro h
  · obtain ⟨u, rfl⟩ := exists_ctrlIndex h
    rw [regValue_ctrl]
    rfl
  · obtain rfl : idx = 1 := BitVec.eq_of_toNat_eq h
    exact encStatus_toNat s.enc
  · obtain rfl : idx = 3 := BitVec.eq_of_toNat_eq h
    exact decStatus_toNat s.dec
  · obtain rfl : idx = 5 := BitVec.eq_of_toNat_eq h
    exact BitVec.toNat_setWidth_of_le (by omega)
  · obtain rfl : idx = 6 := BitVec.eq_of_toNat_eq h
    exact BitVec.toNat_setWidth_of_le (by omega)
  · obtain rfl : idx = 7 := BitVec.eq_of_toNat_eq h
    exact BitVec.toNat_setWidth_of_le (by omega)
  · obtain rfl : idx = 8 := BitVec.eq_of_toNat_eq h
    exact BitVec.toNat_setWidth_of_le (by omega)
  · obtain rfl : idx = 9 := BitVec.eq_of_toNat_eq h
    exact (BitVec.toNat_setWidth_of_le (by omega)).trans (toNat_ofBool s.seg.openEn)
  · obtain rfl : idx = 10 := BitVec.eq_of_toNat_eq h
    exact segStatus_toNat s.seg
  · rw [regValue_unmapped s h]
    rfl

/-- Settles O15: a write is a soft reset at a CTRL register, a new value of one configuration register, or nothing. -/
theorem wrWritesRegister : Obligations.WrWritesRegister := by
  refine ⟨fun _ => decodeRequest_wr, fun idx v s => ?_⟩
  rw [exec_wr, ← regWord_low8]
  refine ⟨?_, ?_, ?_, ?_, ?_, ?_, ?_, ?_, ?_, ?_⟩ <;> intro h
  · intro hv
    obtain rfl : idx = ctrlIndex .enc := BitVec.eq_of_toNat_eq h
    exact congrArg _ (regWrite_ctrl_reset s .enc hv)
  · intro hv
    obtain rfl : idx = ctrlIndex .dec := BitVec.eq_of_toNat_eq h
    exact congrArg _ (regWrite_ctrl_reset s .dec hv)
  · intro hv
    obtain rfl : idx = ctrlIndex .seg := BitVec.eq_of_toNat_eq h
    exact congrArg _ (regWrite_ctrl_reset s .seg hv)
  · intro hv
    obtain ⟨u, rfl⟩ := exists_ctrlIndex h
    rw [regWrite_ctrl_none s u hv]
  · obtain rfl : idx = 5 := BitVec.eq_of_toNat_eq h
    rfl
  · obtain rfl : idx = 6 := BitVec.eq_of_toNat_eq h
    rfl
  · obtain rfl : idx = 7 := BitVec.eq_of_toNat_eq h
    rfl
  · obtain rfl : idx = 8 := BitVec.eq_of_toNat_eq h
    rfl
  · obtain rfl : idx = 9 := BitVec.eq_of_toNat_eq h
    rfl
  · rw [regWrite_readOnly s h]

end Machine
end Sys2Proof

/-! SUPPORT. The host's turn by its operation (R174, R175, R177), and the statement about OFFER, TAKE and withdrawing. -/

namespace Sys2Proof.Machine

/-- A TAKE on an empty queue waits (R175; log 2). -/
theorem takeThen_empty {s : State} {u : UnitId} (h : s.outq u = []) (prog : TokenWord → List HostOp) :
    s.takeThen u prog = .next s := by
  simp [State.takeThen, h]

theorem takeThen_cons {s : State} {u : UnitId} {w : TokenWord} {q : List TokenWord} (h : s.outq u = w :: q)
    (prog : TokenWord → List HostOp) : s.takeThen u prog = .next ((s.takeHead u w q).setProg (prog w)) := by
  simp [State.takeThen, h]

/-- A TAKE and the host's program are separate parts of the state. -/
theorem takeHead_setProg (s : State) (u : UnitId) (w : TokenWord) (q : List TokenWord) (ops : List HostOp) :
    (s.takeHead u w q).setProg ops = ((s.setProg ops).setOutq u q).setTaken u (s.taken u ++ [w]) := by
  cases u <;> rfl

/-- Settles O23: each clause is one case of `State.hostOp` in the state with the turn used up. -/
theorem offerTakeWithdraw : Obligations.OfferTakeWithdraw := by
  refine ⟨fun s turns u w ops hsched hprog => ?_, fun s turns u w q ops hsched hprog hq => ?_,
    fun s turns u ops hsched hprog hq => ?_, fun s turns u ops q1 q2 w hsched hprog hq => ?_⟩ <;>
    rw [step_host_op hsched hprog, State.hostOp]
  · rw [State.offer, setProg_inq, turn_inq]
    rfl
  · rw [takeThen_cons ((turn_outq ..).trans hq), takeHead_setProg, turn_taken]
    rfl
  · exact takeThen_empty ((turn_outq ..).trans hq) _
  · rw [turn_inq, hq, List.eraseIdx_append_of_length_le le_rfl, Nat.sub_self]
    rfl

end Sys2Proof.Machine

/-! SUPPORT. The fault action (R195): a token leaves its unit's fault code alone or does the fault action, and the statement about a
consume step that records a fault. -/

namespace Sys2Proof.Machine

/-- ENC's fault code changes only by the fault action, whose ERR carries no sub-reason. -/
theorem EncMove.fault_eq_or_raise {e e' : EncState} (h : EncMove e e') :
    e'.fault = e.fault ∨ e' = { e with fault := e'.fault, outq := e.outq ++ [(Token.err e'.fault 0).word] } := by
  cases h with
  | start | count | change | flush | finish | abort => exact .inl rfl
  | overflow | illegal => exact .inr rfl

/-- DEC's fault code changes only by the fault action, whose ERR carries no sub-reason. -/
theorem DecMove.fault_eq_or_raise {d d' : DecState} (h : DecMove d d') :
    d'.fault = d.fault ∨ d' = { d with fault := d'.fault, outq := d.outq ++ [(Token.err d'.fault 0).word] } := by
  cases h with
  | expand | finish | abort => exact .inl rfl
  | zero | illegal => exact .inr rfl

/-- SEG's fault code changes only by the fault action, whose ERR carries the recorded sub-reason. -/
theorem SegMove.fault_eq_or_raise {g g' : SegState} (h : SegMove g g') :
    g'.fault = g.fault ∨
      g' = { g with fault := g'.fault, info := g'.info, outq := g.outq ++ [(Token.err g'.fault g'.info).word] } := by
  cases h with
  | start | load | finish | abort => exact .inl rfl
  | image | illegal => exact .inr rfl

/-- Settles O25: a turn that passes records no fault, and a consumed token that changes the fault code did the fault action. -/
theorem faultActionIsWholeEffect : Obligations.FaultActionIsWholeEffect := by
  refine ⟨fun s t h hrun hhalt => ?_, fun s t h hrun hhalt => ?_, fun s t h hrun hhalt => ?_⟩
  · obtain ⟨rfl, -⟩ | ⟨w, q, e, hq, -, hmove, rfl⟩ := consume_enc h
    · exact absurd hrun hhalt
    · have hraise := hmove.fault_eq_or_raise.resolve_left (ne_of_ne_of_eq hhalt hrun.symm)
      exact ⟨w, q, hq, congrArg (fun e => { s with host := { s.host with encIn := q }, enc := e }) hraise⟩
  · obtain ⟨rfl, -⟩ | ⟨w, q, d, hq, -, hmove, rfl⟩ := consume_dec h
    · exact absurd hrun hhalt
    · have hraise := hmove.fault_eq_or_raise.resolve_left (ne_of_ne_of_eq hhalt hrun.symm)
      exact ⟨w, q, hq, congrArg (fun d => { s with host := { s.host with decIn := q }, dec := d }) hraise⟩
  · obtain ⟨rfl, -⟩ | ⟨w, q, g, hq, -, hmove, rfl⟩ := consume_seg h
    · exact absurd hrun hhalt
    · have hraise := hmove.fault_eq_or_raise.resolve_left (ne_of_ne_of_eq hhalt hrun.symm)
      exact ⟨w, q, hq, congrArg (fun g => { s with host := { s.host with segIn := q }, seg := g }) hraise⟩

end Sys2Proof.Machine

/-! SUPPORT. The hard reset (R220) register by register, what the host keeps of the words it took (R228), and the statement about them. -/

namespace Sys2Proof.Machine

section
variable (s : State) (u : UnitId)

@[simp] theorem hardReset_fault : s.hardReset.fault u = 0 := by cases u <;> rfl

@[simp] theorem hardReset_taken : s.hardReset.taken u = s.taken u := by cases u <;> rfl

@[simp] theorem hardReset_irq : s.hardReset.irq u = false := bne_eq_false_iff_eq.mpr (hardReset_fault s u)

/-- The STATUS registers hold no run, no open frame and no fault (R31, R33, R40). -/
theorem hardReset_regValue_status {idx : RegIdx} (h : idx.toNat = 1 ∨ idx.toNat = 3 ∨ idx.toNat = 10) :
    s.hardReset.regValue idx = 0 := by
  rcases h with h | h | h
  · obtain rfl : idx = 1 := BitVec.eq_of_toNat_eq h
    exact BitVec.eq_of_toNat_eq (encStatus_toNat EncState.reset)
  · obtain rfl : idx = 3 := BitVec.eq_of_toNat_eq h
    exact BitVec.eq_of_toNat_eq (decStatus_toNat DecState.reset)
  · obtain rfl : idx = 10 := BitVec.eq_of_toNat_eq h
    exact BitVec.eq_of_toNat_eq (segStatus_toNat s.hardReset.seg)

end

/-- RESET at the host's turn: the records are cut, then the block is reset (R176, R220, R228). -/
theorem step_reset {s : State} {turns : List Agent} {ops : List HostOp} (hsched : s.sched = .host :: turns)
    (hprog : s.host.prog = .reset :: ops) :
    step s = .next (({ s with sched := turns }.setProg ops).discardAll.hardReset) :=
  step_host_op hsched hprog

/-- Settles O29: the reset state is written out in `State.hardReset`, the host's queues are outside it, and each record is cut to its
closed part. -/
theorem hardResetFromAnyState : Obligations.HardResetFromAnyState := by
  intro s turns ops hsched hprog
  refine ⟨_, step_reset hsched hprog, rfl, rfl, rfl, rfl, rfl, rfl, rfl, rfl, fun _ => hardReset_regValue_status _, fun u => ?_⟩
  have htaken : ({ s with sched := turns }.setProg ops).discardAll.hardReset.taken u = closedPart (s.taken u) := by
    rw [hardReset_taken, discardAll_taken, setProg_taken, turn_taken]
  rw [htaken]
  exact ⟨hardReset_irq _ u, consume_empty, closedPart_append _, closedPart_last _, keptSequences_closedPart _⟩

end Sys2Proof.Machine

/-! SUPPORT. Encodings (R70 to R82): what every token word and request word decodes to, the bits a format uses, and the kinds a port
accepts. -/

namespace Sys2Proof

/-! ### Decoding the encoder's words -/

/-- At a port a token's word is read as the token. -/
theorem decode_word (u : UnitId) (t : Token) : decode u t.word = accept u t := decode_of_decodeToken_ok (decodeToken_word t)

theorem idxField_request (b : BitVec 1) (idx : RegIdx) (v : RegWord) : idxField (b ++ (idx ++ v) : BitVec 37) = idx :=
  (field_append_low b (idx ++ v) 32 4 (by omega)).trans ((field_append_high idx v 0 4).trans (field_whole idx))

theorem wdataField_request (b : BitVec 1) (idx : RegIdx) (v : RegWord) : wdataField (b ++ (idx ++ v) : BitVec 37) = v :=
  (field_append_low b (idx ++ v) 0 32 (by omega)).trans ((field_append_low idx v 0 32 (by omega)).trans (field_whole v))

theorem decodeRequest_rd_word (idx : RegIdx) (v : RegWord) : decodeRequest (0#1 ++ (idx ++ v) : BitVec 37) = .rd idx :=
  (decodeRequest_rd (Laws.EncodingRow.weField_request false idx v)).trans (congrArg Instr.rd (idxField_request 0#1 idx v))

theorem decodeRequest_wr_word (idx : RegIdx) (v : RegWord) : decodeRequest (1#1 ++ (idx ++ v) : BitVec 37) = .wr idx v :=
  (decodeRequest_wr (Laws.EncodingRow.weField_request true idx v)).trans
    (congrArg₂ Instr.wr (idxField_request 1#1 idx v) (wdataField_request 1#1 idx v))

/-- Settles O17: a token instruction's word is its token's, which its port accepts; a request's fields are read back. -/
theorem decodeEncodeRoundTrip : Obligations.DecodeEncodeRoundTrip := by
  intro i
  cases i with
  | segHdr h w c => exact decode_word .seg (.hdr h w c)
  | segPix c0 c1 c2 => exact decode_word .seg (.pix ⟨c0, c1, c2⟩)
  | segEnd => exact decode_word .seg .fin
  | segErr cause info => exact decode_word .seg (.err cause info)
  | encData v => exact decode_word .enc (.data v)
  | encEnd => exact decode_word .enc .fin
  | encErr cause info => exact decode_word .enc (.err cause info)
  | decRun v c => exact decode_word .dec (.run v c)
  | decEnd => exact decode_word .dec .fin
  | decErr cause info => exact decode_word .dec (.err cause info)
  | rd idx => exact congrArg Except.ok (decodeRequest_rd_word idx 0)
  | wr idx v => exact congrArg Except.ok (decodeRequest_wr_word idx v)

/-! ### The bits a format uses (R79) -/

/-- The bits of a word that the format of its kind uses (R72 to R77). -/
def usedBits (k : Code) : TokenWord :=
  match k.toNat with
  | 0 => 0xF00000000FF#44
  | 1 => 0xFFFFFFFFFFF#44
  | 2 => 0xF0000FFFFFF#44
  | 3 => 0xFFFFFFFFFFF#44
  | 4 => 0xF0000000000#44
  | 5 => 0xF00000000FF#44
  | _ => 0

/-- Two adjacent fields of a word are one field. -/
theorem field_split (w : TokenWord) (i n m : Nat) : w.extractLsb' i (n + m) = w.extractLsb' (i + m) n ++ w.extractLsb' i m :=
  (BitVec.extractLsb'_append_extractLsb'_eq_extractLsb' rfl).symm

/-- A word is its kind followed by its other 40 bits. -/
theorem word_eq_kind_append (w : TokenWord) : w = kindOf w ++ w.extractLsb' 0 40 :=
  (field_whole w).symm.trans (field_split w 0 4 40)

/-- A mask that uses the kind leaves it, and cuts the other 40 bits. -/
theorem and_kind_append (w : TokenWord) (m : BitVec 40) : w &&& (0xF#4 ++ m) = kindOf w ++ (w.extractLsb' 0 40 &&& m) := by
  conv_lhs => rw [word_eq_kind_append w]
  rw [BitVec.and_append]
  exact congrArg (· ++ (w.extractLsb' 0 40 &&& m)) BitVec.and_allOnes

/-- A mask that uses the low `n` of 40 bits leaves them and clears the rest. -/
theorem and_low (w : TokenWord) (k n : Nat) :
    w.extractLsb' 0 (k + n) &&& (0#k ++ BitVec.allOnes n) = 0#k ++ w.extractLsb' 0 n := by
  rw [field_split, BitVec.and_append, BitVec.and_zero, BitVec.and_allOnes]

/-- What a decoded token keeps of its word: the kind, and the bits its format uses. -/
theorem kind_and_word_of_decodeToken {w : TokenWord} {t : Token} (h : decodeToken w = .ok t) :
    t.kind = kindOf w ∧ t.word = w &&& usedBits (kindOf w) := by
  rcases kind_cases (kindOf w) with hk | hk | hk | hk | hk | hk | hk
  · obtain rfl := Except.ok.inj ((decodeToken_kind0 hk).symm.trans h)
    refine ⟨hk.symm, Eq.trans ?_ ((congrArg (w &&& usedBits ·) hk).trans (and_kind_append w (0#32 ++ 0xFF#8))).symm⟩
    rw [hk]
    exact congrArg (0#4 ++ ·) (and_low w 32 8).symm
  · obtain rfl := Except.ok.inj ((decodeToken_kind1 hk).symm.trans h)
    refine ⟨hk.symm, Eq.trans ?_ ((congrArg (w &&& usedBits ·) hk).trans BitVec.and_allOnes).symm⟩
    exact (congrArg₂ (· ++ ·) hk.symm (field_split w 0 32 8).symm).trans (word_eq_kind_append w).symm
  · obtain rfl := Except.ok.inj ((decodeToken_kind2 hk).symm.trans h)
    refine ⟨hk.symm, Eq.trans ?_ ((congrArg (w &&& usedBits ·) hk).trans (and_kind_append w (0#16 ++ 0xFFFFFF#24))).symm⟩
    rw [hk]
    refine congrArg (0x2#4 ++ ·) (Eq.trans ?_ (and_low w 16 24).symm)
    exact congrArg (0#16 ++ ·) ((congrArg (c2Field w ++ ·) (field_split w 0 8 8).symm).trans (field_split w 0 8 16).symm)
  · obtain rfl := Except.ok.inj ((decodeToken_kind3 hk).symm.trans h)
    refine ⟨hk.symm, Eq.trans ?_ ((congrArg (w &&& usedBits ·) hk).trans BitVec.and_allOnes).symm⟩
    refine (congrArg₂ (· ++ ·) hk.symm ?_).trans (word_eq_kind_append w).symm
    exact (congrArg (heightField w ++ ·) (field_split w 0 16 8).symm).trans (field_split w 0 16 24).symm
  · obtain rfl := Except.ok.inj ((decodeToken_kind4 hk).symm.trans h)
    refine ⟨hk.symm, Eq.trans ?_ ((congrArg (w &&& usedBits ·) hk).trans (and_kind_append w 0#40)).symm⟩
    rw [hk, BitVec.and_zero]
    rfl
  · obtain rfl := Except.ok.inj ((decodeToken_kind5 hk).symm.trans h)
    refine ⟨hk.symm, Eq.trans ?_ ((congrArg (w &&& usedBits ·) hk).trans (and_kind_append w (0#32 ++ 0xFF#8))).symm⟩
    rw [hk]
    refine congrArg (0x5#4 ++ ·) (Eq.trans ?_ (and_low w 32 8).symm)
    exact congrArg (0#32 ++ ·) (field_split w 0 4 4).symm
  · cases (decodeToken_reserved hk).symm.trans h

/-- Settles O18: the mask is that of the word's kind, and a token's word decodes to the token. -/
theorem unusedBitsAreIgnored : Obligations.UnusedBitsAreIgnored := by
  intro w t h
  obtain ⟨-, hword⟩ := kind_and_word_of_decodeToken h
  exact ⟨usedBits (kindOf w), congrArg usedBits, congrArg usedBits, congrArg usedBits, congrArg usedBits, congrArg usedBits,
    congrArg usedBits, hword ▸ decodeToken_word t, hword⟩

/-! ### The kinds of a port (R80) -/

/-- The kinds in the rows of an input port (R80). -/
def portKinds : UnitId → List Code
  | .enc => [0#4, 4#4, 5#4]
  | .dec => [1#4, 4#4, 5#4]
  | .seg => [2#4, 3#4, 4#4, 5#4]

theorem accept_ok_iff (u : UnitId) (t : Token) : (∃ i, accept u t = .ok i) ↔ t.kind ∈ portKinds u := by
  cases u <;> cases t <;> simp [accept, Token.kind, portKinds]

/-- Only a reserved kind carries no token (R71). -/
theorem reserved_of_decodeToken_error {w : TokenWord} {e : DecodeError} (h : decodeToken w = .error e) : 6#4 ≤ kindOf w := by
  rcases kind_cases (kindOf w) with hk | hk | hk | hk | hk | hk | hk
  · cases (decodeToken_kind0 hk).symm.trans h
  · cases (decodeToken_kind1 hk).symm.trans h
  · cases (decodeToken_kind2 hk).symm.trans h
  · cases (decodeToken_kind3 hk).symm.trans h
  · cases (decodeToken_kind4 hk).symm.trans h
  · cases (decodeToken_kind5 hk).symm.trans h
  · exact hk

theorem not_mem_portKinds_of_reserved (u : UnitId) {k : Code} (hk : 6#4 ≤ k) : k ∉ portKinds u := by
  revert k; cases u <;> decide

/-- Settles O19: a kind with a format is judged by the port's rows, and a reserved one is in none of them. -/
theorem portsAcceptTheirKinds : Obligations.PortsAcceptTheirKinds := by
  intro u w
  suffices h : (∃ i, decode u w = .ok i) ↔ kindOf w ∈ portKinds u by cases u <;> exact h
  cases hd : decodeToken w with
  | ok t => rw [decode_of_decodeToken_ok hd, accept_ok_iff, (kind_and_word_of_decodeToken hd).1]
  | error e =>
    rw [decode_of_decodeToken_error hd]
    exact iff_of_false (fun ⟨_, hi⟩ => nomatch hi) (not_mem_portKinds_of_reserved u (reserved_of_decodeToken_error hd))

/-- Settles O20: eight words, computed. -/
theorem writtenWordsDecode : Obligations.WrittenWordsDecode :=
  ⟨rfl, rfl, rfl, rfl, rfl, rfl, rfl, rfl⟩

end Sys2Proof

/-! SUPPORT. A unit's turn reads and writes the unit's own part of the state, its registers and its offered tokens (R20, R68); so turns of
different units commute (R61). -/

namespace Sys2Proof.Machine

/-- The state with a unit's own part, its registers and its offered tokens, taken from another state. -/
def State.withUnit (s : State) (u : UnitId) (a : State) : State :=
  match u with
  | .enc => { s with enc := a.enc, host := { s.host with encIn := a.host.encIn } }
  | .dec => { s with dec := a.dec, host := { s.host with decIn := a.host.decIn } }
  | .seg => { s with seg := a.seg, host := { s.host with segIn := a.host.segIn } }

section
variable (s a b : State) {u v : UnitId} (q : List TokenWord)

@[simp] theorem withUnit_enc : (s.withUnit .enc a).enc = a.enc := rfl
@[simp] theorem withUnit_seg : (s.withUnit .seg a).seg = a.seg := rfl
@[simp] theorem withUnit_inq : (s.withUnit u a).inq u = a.inq u := by cases u <;> rfl
@[simp] theorem withUnit_fault : (s.withUnit u a).fault u = a.fault u := by cases u <;> rfl
@[simp] theorem withUnit_setInq : (s.withUnit u a).setInq u q = s.withUnit u (a.setInq u q) := by cases u <;> rfl
@[simp] theorem withUnit_raise (c : Cause) (i : Info) : (s.withUnit u a).raise u c i = s.withUnit u (a.raise u c i) := by
  cases u <;> rfl
@[simp] theorem withUnit_self : s.withUnit u s = s := by cases u <;> rfl

variable (h : v ≠ u)
include h

theorem withUnit_comm : (s.withUnit u a).withUnit v b = (s.withUnit v b).withUnit u a := by
  cases u <;> cases v <;> first | rfl | exact absurd rfl h

/-- A unit's part does not show what another unit's part is. -/
theorem withUnit_of_withUnit_ne : s.withUnit v (a.withUnit u b) = s.withUnit v a := by
  cases u <;> cases v <;> first | rfl | exact absurd rfl h
@[simp] theorem withUnit_fault_ne : (s.withUnit u a).fault v = s.fault v := by
  cases u <;> cases v <;> first | rfl | exact absurd rfl h
@[simp] theorem withUnit_outq_ne : (s.withUnit u a).outq v = s.outq v := by
  cases u <;> cases v <;> first | rfl | exact absurd rfl h

end

section
variable {s t : State} (r : State) {u : UnitId} {w : TokenWord}

/-- A unit's instruction depends on the unit's part only and changes nothing else. -/
theorem exec_withUnit {i : Instr} (hd : decode u w = .ok i) (h : exec i s = .next t) :
    exec i (r.withUnit u s) = .next (r.withUnit u t) := by
  cases u with
  | enc =>
    rcases decode_enc_cases w with ⟨v, hw⟩ | hw | ⟨c, d, hw⟩ | ⟨e, hw⟩ <;> cases hw.symm.trans hd <;>
      obtain ⟨hf, h⟩ := whenRunning_next h <;>
      refine (if_pos ((withUnit_fault r s).trans hf)).trans ?_
    · rw [withUnit_enc]
      split_ifs at h ⊢ <;> cases h <;> rfl
    · cases h; rfl
    · cases h; rfl
  | dec =>
    rcases decode_dec_cases w with ⟨v, c, hw⟩ | hw | ⟨c, d, hw⟩ | ⟨e, hw⟩ <;> cases hw.symm.trans hd <;>
      obtain ⟨hf, h⟩ := whenRunning_next h <;>
      refine (if_pos ((withUnit_fault r s).trans hf)).trans ?_
    · split_ifs at h ⊢ <;> cases h <;> rfl
    · cases h; rfl
    · cases h; rfl
  | seg =>
    rcases decode_seg_cases w with ⟨x, y, c, hw⟩ | ⟨c0, c1, c2, hw⟩ | hw | ⟨c, d, hw⟩ | ⟨e, hw⟩ <;> cases hw.symm.trans hd <;>
      obtain ⟨hf, h⟩ := whenRunning_next h <;>
      refine (if_pos ((withUnit_fault r s).trans hf)).trans ?_
    · rw [withUnit_seg]
      split_ifs at h ⊢ <;> cases h <;> rfl
    · rw [withUnit_seg]
      split_ifs at h ⊢ <;> cases h <;> rfl
    · rw [withUnit_seg]
      split_ifs at h ⊢ <;> cases h <;> rfl
    · cases h; rfl

theorem executeToken_withUnit (h : s.executeToken u w = .next t) : (r.withUnit u s).executeToken u w = .next (r.withUnit u t) := by
  cases hd : decode u w with
  | ok i =>
    rw [executeToken_ok hd] at h ⊢
    exact exec_withUnit r hd h
  | error e =>
    rw [executeToken_error hd] at h ⊢
    cases h
    rw [withUnit_raise]

/-- So does a unit's turn. -/
theorem consume_withUnit (h : s.consume u = .next t) : (r.withUnit u s).consume u = .next (r.withUnit u t) := by
  rcases hq : s.inq u with _ | ⟨w, q⟩
  · rw [consume_empty hq] at h
    cases h
    exact consume_empty ((withUnit_inq r s).trans hq)
  · by_cases hf : s.fault u = 0
    · rw [consume_cons hq hf] at h
      rw [consume_cons ((withUnit_inq r s).trans hq) ((withUnit_fault r s).trans hf), withUnit_setInq]
      exact executeToken_withUnit r h
    · rw [consume_halted hf] at h
      cases h
      exact consume_halted ((withUnit_fault r s).trans_ne hf)

theorem consume_eq_withUnit (h : s.consume u = .next t) : t = s.withUnit u t := by
  have hself := consume_withUnit s h
  rw [withUnit_self, h] at hself
  exact Host.Outcome.next.inj hself

end

/-- Settles O35: the next state is the old one with the unit's own part new. -/
theorem unitsShareNoState : Obligations.UnitsShareNoState := by
  intro s t h
  obtain ⟨turns, n, hn⟩ := nextTurn_snd s
  have hturn : ∀ u, s.nextTurn.1 = .unit u → t = State.withUnit { s with sched := turns, tick := n } u t := by
    intro u hu
    rw [step, hn, hu] at h
    exact consume_eq_withUnit h
  refine ⟨fun hu => ?_, fun hu => ?_, fun hu => ?_⟩ <;> rw [hturn _ hu] <;> exact ⟨rfl, rfl, rfl⟩

/-- Settles O36: each unit's turn reads its own part, which the other's leaves as it was. -/
theorem unitTurnsCommute : Obligations.UnitTurnsCommute := by
  intro s a b u v huv hu hv
  have ha := consume_eq_withUnit hu
  have hb := consume_eq_withUnit hv
  have hfirst : s.consume v = .next (s.withUnit v b) := by
    have hlocal := consume_withUnit s hv
    rwa [ha, withUnit_of_withUnit_ne s s a huv.symm, withUnit_self] at hlocal
  have hsecond := consume_withUnit (s.withUnit v b) hu
  rw [withUnit_comm s b s huv, withUnit_self, withUnit_comm s b a huv, ← ha, ← hb] at hsecond
  exact ⟨_, hfirst, hsecond⟩

end Sys2Proof.Machine

/-! SUPPORT. What a step does to a unit's fault register, its output queue and the record of the words taken from it (R62, R200, R202), and
when a turn runs an instruction (R66, R82, R174). -/

namespace Sys2Proof.Machine

/-! ### The turn of a step -/

section
variable (s : State) (u : UnitId)

@[simp] theorem nextTurn_fault : s.nextTurn.2.fault u = s.fault u := by
  obtain ⟨turns, n, hn⟩ := nextTurn_snd s
  rw [hn, turn_fault]

@[simp] theorem nextTurn_outq : s.nextTurn.2.outq u = s.outq u := by
  obtain ⟨turns, n, hn⟩ := nextTurn_snd s
  rw [hn, turn_outq]

@[simp] theorem nextTurn_taken : s.nextTurn.2.taken u = s.taken u := by
  obtain ⟨turns, n, hn⟩ := nextTurn_snd s
  rw [hn, turn_taken]

@[simp] theorem nextTurn_host : s.nextTurn.2.host = s.host := by
  obtain ⟨turns, n, hn⟩ := nextTurn_snd s
  rw [hn]

end

/-- A step is a unit's turn or the host's. -/
theorem step_cases {s t : State} (h : step s = .next t) :
    (∃ u, s.nextTurn.1 = .unit u ∧ s.nextTurn.2.consume u = .next t) ∨ (s.nextTurn.1 = .host ∧ s.nextTurn.2.hostTurn = .next t) := by
  unfold step at h
  cases ha : s.nextTurn.1 with
  | unit u =>
    rw [ha] at h
    exact .inl ⟨u, rfl, h⟩
  | host =>
    rw [ha] at h
    exact .inr ⟨rfl, h⟩

/-! ### A unit's turn -/

/-- A token's words join the tail of ENC's output queue. -/
theorem EncMove.outq_append {e e' : EncState} (h : EncMove e e') : ∃ ws, e'.outq = e.outq ++ ws := by
  cases h with
  | start | count => exact ⟨[], (List.append_nil _).symm⟩
  | overflow | change | flush | finish | abort | illegal => exact ⟨_, rfl⟩

/-- A token's words join the tail of DEC's output queue. -/
theorem DecMove.outq_append {d d' : DecState} (h : DecMove d d') : ∃ ws, d'.outq = d.outq ++ ws := by
  cases h with
  | expand | zero | finish | abort | illegal => exact ⟨_, rfl⟩

/-- A token's words join the tail of SEG's output queue. -/
theorem SegMove.outq_append {g g' : SegState} (h : SegMove g g') : ∃ ws, g'.outq = g.outq ++ ws := by
  cases h with
  | start | load => exact ⟨[], (List.append_nil _).symm⟩
  | finish | abort | image | illegal => exact ⟨_, rfl⟩

section
variable {s t : State} {u : UnitId}

/-- A unit's turn appends to its output queue; where it changes the fault register, the register was 0 and one ERR with the new cause is
appended. -/
theorem consume_outq (h : s.consume u = .next t) :
    (∃ ws, t.outq u = s.outq u ++ ws) ∧
      (t.fault u = s.fault u ∨ s.fault u = 0 ∧ ∃ info, t.outq u = s.outq u ++ [(Token.err (t.fault u) info).word]) := by
  cases u with
  | enc =>
    obtain ⟨rfl, -⟩ | ⟨w, q, e, -, hf, hmove, rfl⟩ := consume_enc h
    · exact ⟨⟨[], (List.append_nil _).symm⟩, .inl rfl⟩
    · exact ⟨hmove.outq_append, hmove.fault_eq_or_raise.imp_right fun hraise => ⟨hf, 0, congrArg EncState.outq hraise⟩⟩
  | dec =>
    obtain ⟨rfl, -⟩ | ⟨w, q, d, -, hf, hmove, rfl⟩ := consume_dec h
    · exact ⟨⟨[], (List.append_nil _).symm⟩, .inl rfl⟩
    · exact ⟨hmove.outq_append, hmove.fault_eq_or_raise.imp_right fun hraise => ⟨hf, 0, congrArg DecState.outq hraise⟩⟩
  | seg =>
    obtain ⟨rfl, -⟩ | ⟨w, q, g, -, hf, hmove, rfl⟩ := consume_seg h
    · exact ⟨⟨[], (List.append_nil _).symm⟩, .inl rfl⟩
    · exact ⟨hmove.outq_append, hmove.fault_eq_or_raise.imp_right fun hraise => ⟨hf, g.info, congrArg SegState.outq hraise⟩⟩

/-- No unit's turn changes the record of the words taken. -/
theorem consume_taken (h : s.consume u = .next t) (v : UnitId) : t.taken v = s.taken v := by
  rw [consume_eq_withUnit h]
  cases u <;> cases v <;> rfl

theorem consume_fault_ne (h : s.consume u = .next t) {v : UnitId} (hv : v ≠ u) : t.fault v = s.fault v := by
  rw [consume_eq_withUnit h, withUnit_fault_ne s t hv]

theorem consume_outq_ne (h : s.consume u = .next t) {v : UnitId} (hv : v ≠ u) : t.outq v = s.outq v := by
  rw [consume_eq_withUnit h, withUnit_outq_ne s t hv]

end

/-! ### The host's turn -/

section
variable (s : State) {u v : UnitId}

@[simp] theorem setOutq_taken (q : List TokenWord) : (s.setOutq u q).taken v = s.taken v := by cases u <;> cases v <;> rfl
@[simp] theorem softReset_fault_self : (s.softReset u).fault u = 0 := by cases u <;> rfl
@[simp] theorem softReset_outq_self : (s.softReset u).outq u = [] := by cases u <;> rfl
@[simp] theorem softReset_taken : (s.softReset u).taken v = s.taken v := by cases u <;> cases v <;> rfl
@[simp] theorem softReset_fault_ne (h : v ≠ u) : (s.softReset u).fault v = s.fault v := by
  cases u <;> cases v <;> first | rfl | exact absurd rfl h
@[simp] theorem softReset_outq_ne (h : v ≠ u) : (s.softReset u).outq v = s.outq v := by
  cases u <;> cases v <;> first | rfl | exact absurd rfl h
@[simp] theorem hardReset_outq : s.hardReset.outq u = [] := by cases u <;> rfl
@[simp] theorem discardCut_fault : (s.discardCut u).fault v = s.fault v := by cases u <;> cases v <;> rfl
@[simp] theorem discardCut_outq : (s.discardCut u).outq v = s.outq v := by cases u <;> cases v <;> rfl

end

/-- The request is a soft reset of the unit, as R171 writes it. -/
theorem decodeRequest_of_resetTarget {w : RequestWord} {u : UnitId} (h : resetTarget w = some u) :
    decodeRequest w = .wr (ctrlIndex u) (wdataField w) ∧ (wdataField w).getLsbD 0 = true := by
  obtain ⟨hwe, hbit, hidx⟩ := resetTarget_ctrl.1 h
  refine ⟨(decodeRequest_wr hwe).trans (congrArg (Instr.wr · _) (hidx.trans ?_)), hbit⟩
  cases u <;> rfl

theorem resetTarget_of_decodeRequest {w : RequestWord} {u : UnitId} {v : RegWord} (h : decodeRequest w = .wr (ctrlIndex u) v)
    (hv : v.getLsbD 0 = true) : resetTarget w = some u := by
  unfold decodeRequest at h
  split at h
  · rename_i hwe
    obtain ⟨hidx, rfl⟩ := Instr.wr.inj h
    refine resetTarget_ctrl.2 ⟨hwe, hv, hidx.trans ?_⟩
    cases u <;> rfl
  · cases h

section
variable {s t : State} {w : RequestWord} {u : UnitId}

theorem exec_request_softReset (s : State) (h : resetTarget w = some u) : exec (decodeRequest w) s = .next (s.softReset u) := by
  obtain ⟨hw, hbit⟩ := decodeRequest_of_resetTarget h
  rw [hw, exec_wr, regWrite_ctrl_reset s u hbit]

/-- A request that is no soft reset changes no fault register, no output queue and no record of words taken. -/
theorem exec_request_other (h : resetTarget w = none) (hexec : exec (decodeRequest w) s = .next t) (v : UnitId) :
    t.fault v = s.fault v ∧ t.outq v = s.outq v ∧ t.taken v = s.taken v := by
  obtain ⟨hrd, -⟩ | ⟨hwr, hwe⟩ := exec_request w s
  · cases hrd.symm.trans hexec
    cases v <;> exact ⟨rfl, rfl, rfl⟩
  · obtain rfl := Host.Outcome.next.inj (hwr.symm.trans hexec)
    have hno : ∀ u, ¬((wdataField w).getLsbD 0 = true ∧ idxField w = ctrlIndex u) := by
      rintro u ⟨hbit, hidx⟩
      have hd : decodeRequest w = .wr (ctrlIndex u) (wdataField w) := (decodeRequest_wr hwe).trans (congrArg (Instr.wr · _) hidx)
      cases h.symm.trans (resetTarget_of_decodeRequest hd hbit)
    rcases regWrite_cases s (idxField w) (wdataField w) with heq | ⟨hbit, hreset⟩ | ⟨a, b, c, d, e, heq⟩
    · rw [heq]
      exact ⟨rfl, rfl, rfl⟩
    · rcases hreset with ⟨hidx, -⟩ | ⟨hidx, -⟩ | ⟨hidx, -⟩
      · exact absurd ⟨hbit, hidx⟩ (hno .enc)
      · exact absurd ⟨hbit, hidx⟩ (hno .dec)
      · exact absurd ⟨hbit, hidx⟩ (hno .seg)
    · rw [heq]
      cases v <;> exact ⟨rfl, rfl, rfl⟩

end

/-- The host operations that reset a unit: the hard reset, and the unit's soft reset (R202). -/
def HostOp.resets (op : HostOp) (u : UnitId) : Prop := op = .reset ∨ ∃ w, op = .request w ∧ resetTarget w = some u

/-- At a port the host's turn takes words from the queue to the record and leaves the fault register, or it resets the unit. -/
theorem hostTurn_port {s t : State} (h : s.hostTurn = .next t) (u : UnitId) :
    (t.fault u = s.fault u ∧ ∃ ws, s.outq u = ws ++ t.outq u ∧ t.taken u = s.taken u ++ ws) ∨
      (t.fault u = 0 ∧ t.outq u = [] ∧ ∃ op ops, s.host.prog = op :: ops ∧ op.resets u) := by
  have hsame : t.fault u = s.fault u → t.outq u = s.outq u → t.taken u = s.taken u →
      t.fault u = s.fault u ∧ ∃ ws, s.outq u = ws ++ t.outq u ∧ t.taken u = s.taken u ++ ws :=
    fun hf hq ht => ⟨hf, [], hq.symm, ht.trans (List.append_nil _).symm⟩
  rcases hostTurn_next h with rfl | ⟨op, ops, hprog, ⟨v, q, rfl⟩ | ⟨v, w, q, p, hq, rfl⟩ | ⟨w, rfl, hexec⟩ | ⟨rfl, rfl⟩⟩
  · exact .inl (hsame rfl rfl rfl)
  · exact .inl (hsame (by simp) (by simp) (by simp))
  · refine .inl ⟨by simp [State.takeHead], ?_⟩
    by_cases hv : u = v
    · subst hv
      exact ⟨[w], by simp [State.takeHead, hq], by simp [State.takeHead]⟩
    · exact ⟨[], by simp [State.takeHead, hv], by simp [State.takeHead, hv]⟩
  · cases hr : resetTarget w with
    | none =>
      rw [discardFor_none _ hr] at hexec
      obtain ⟨hf, hq, ht⟩ := exec_request_other hr hexec u
      exact .inl (hsame (by simpa using hf) (by simpa using hq) (by simpa using ht))
    | some v =>
      rw [discardFor_some _ v hr, exec_request_softReset _ hr] at hexec
      cases hexec
      by_cases hv : u = v
      · subst hv
        exact .inr ⟨by simp, by simp, _, _, hprog, .inr ⟨w, rfl, hr⟩⟩
      · exact .inl (hsame (by simp [hv]) (by simp [hv]) (by simp [hv]))
  · exact .inr ⟨by simp, by simp, _, _, hprog, .inl rfl⟩

/-! ### The statements -/

/-- Settles O27: a halted unit's turn passes, and of the host's operations only a reset writes a fault register. -/
theorem onlyResetLeavesHaltedState : Obligations.OnlyResetLeavesHaltedState := by
  intro s t u hf h
  obtain ⟨v, -, hturn⟩ | ⟨hhost, hturn⟩ := step_cases h
  · refine .inl ?_
    by_cases hv : u = v
    · subst hv
      rw [consume_halted (by simpa using hf)] at hturn
      cases hturn
      simp
    · simp [consume_fault_ne hturn hv, consume_outq_ne hturn hv]
  · obtain ⟨hfault, ws, hq, -⟩ | ⟨hfault, hq, op, ops, hprog, hreset⟩ := hostTurn_port hturn u
    · exact .inl ⟨by simpa using hfault, ws, by simpa using hq.symm⟩
    · refine .inr ⟨hhost, hfault, hq, op, ops, by simpa using hprog, hreset.imp_right ?_⟩
      rintro ⟨w, rfl, hr⟩
      obtain ⟨hw, hbit⟩ := decodeRequest_of_resetTarget hr
      refine ⟨w, _, rfl, hbit, hw.trans ?_⟩
      cases u <;> rfl

theorem irq_iff (s : State) (u : UnitId) : s.irq u = true ↔ s.fault u ≠ 0 := bne_iff_ne

/-- Settles O28: only the unit's own fault action sets its fault register, and only a reset clears it. -/
theorem interruptLinesFollowFaults : Obligations.InterruptLinesFollowFaults := by
  refine ⟨irq_iff, fun s t u h => ?_⟩
  simp only [← Bool.not_eq_true, irq_iff, not_not]
  obtain ⟨v, hv, hturn⟩ | ⟨hhost, hturn⟩ := step_cases h
  · have hown : t.fault u ≠ s.fault u → u = v := fun hne => by_contra fun hne' => hne (by simpa using consume_fault_ne hturn hne')
    refine ⟨fun hs ht => ?_, fun hs ht => ?_⟩
    · obtain rfl := hown (by rwa [hs])
      obtain hsame | ⟨-, info, hraise⟩ := (consume_outq hturn).2
      · exact absurd (by simpa [hs] using hsame) ht
      · exact ⟨hv, info, nextTurn_outq s u ▸ hraise⟩
    · obtain rfl := hown (ht.trans_ne hs.symm)
      obtain hsame | ⟨hzero, -⟩ := (consume_outq hturn).2
      · exact absurd (by simpa [ht] using hsame.symm) hs
      · exact absurd (by simpa using hzero) hs
  · obtain ⟨hfault, -⟩ | ⟨hfault, hq, -⟩ := hostTurn_port hturn u
    · rw [nextTurn_fault] at hfault
      exact ⟨fun hs ht => absurd (hfault.trans hs) ht, fun hs ht => absurd (hfault.symm.trans ht) hs⟩
    · exact ⟨fun _ ht => absurd hfault ht, fun _ _ => ⟨hhost, hq⟩⟩

/-- Settles O37: a unit's turn appends to its queue, and a TAKE moves the head of a queue to the end of its record. -/
theorem outputPortIsFifo : Obligations.OutputPortIsFifo := by
  intro s t u h hnot
  obtain ⟨v, -, hturn⟩ | ⟨hhost, hturn⟩ := step_cases h
  · rw [consume_taken hturn u, nextTurn_taken, List.prefix_append_right_inj, ← nextTurn_outq]
    by_cases hv : u = v
    · subst hv
      obtain ⟨ws, hws⟩ := (consume_outq hturn).1
      exact ⟨ws, hws.symm⟩
    · rw [consume_outq_ne hturn hv]
  · obtain ⟨-, ws, hq, ht⟩ | ⟨-, -, op, ops, hprog, hreset⟩ := hostTurn_port hturn u
    · rw [nextTurn_outq] at hq
      rw [ht, nextTurn_taken, hq, List.append_assoc]
    · rw [nextTurn_host] at hprog
      obtain ⟨hnoReset, hnoSoft⟩ := hnot hhost
      rcases hreset with rfl | ⟨w, rfl, hr⟩
      · exact absurd (congrArg List.head? hprog) hnoReset
      · obtain ⟨hw, hbit⟩ := decodeRequest_of_resetTarget hr
        have hzero := hnoSoft w _ (congrArg List.head? hprog) (hw.trans (by cases u <;> rfl))
        exact absurd (hbit.symm.trans hzero) (by decide)

/-- Settles O21: the turn comes from the interleaving or from the free value, and a unit's turn decodes the head of its input queue. -/
theorem stepRunsDecodedToken : Obligations.StepRunsDecodedToken := by
  refine ⟨fun s u turns w q i hsched hq hf hd => ?_, fun s hsched => ?_⟩
  · rw [step_sched hsched]
    exact (consume_cons ((turn_inq ..).trans hq) ((turn_fault ..).trans hf)).trans (executeToken_ok hd)
  · rw [step_free hsched, step_sched rfl]
    rw [← hsched]

/-- Settles O22: the host discards before the request exactly where the request is a soft reset. -/
theorem stepRunsRegisterRequest : Obligations.StepRunsRegisterRequest := by
  constructor
  · intro s turns w ops hsched hprog hno
    have hr : resetTarget w = none := by
      refine Option.eq_none_iff_forall_ne_some.2 fun u hu => ?_
      obtain ⟨hw, hbit⟩ := decodeRequest_of_resetTarget hu
      have hzero := hno u _ (hw.trans (by cases u <;> rfl))
      exact absurd (hbit.symm.trans hzero) (by decide)
    rw [step_host_op hsched hprog, State.hostOp, discardFor_none _ hr]
    rfl
  · intro s turns w ops u v hsched hprog hw hbit
    have hr : resetTarget w = some u := resetTarget_of_decodeRequest (hw.trans (by cases u <;> rfl)) hbit
    obtain ⟨cut, hcut, hpayload⟩ := closedPart_append (s.taken u)
    refine ⟨closedPart (s.taken u), cut, ?_, hcut, hpayload, closedPart_last _, keptSequences_closedPart _⟩
    rw [step_host_op hsched hprog, State.hostOp, discardFor_some _ u hr, State.discardCut, setProg_taken, turn_taken]
    rfl

/-- Settles O26: the turn of a halted unit passes, and each of its instructions is guarded. -/
theorem haltedUnitConsumesNothing : Obligations.HaltedUnitConsumesNothing := by
  refine ⟨fun s u turns hsched hf => ?_, fun u w i s hf hd => ?_⟩
  · rw [step_sched hsched]
    exact consume_halted ((turn_fault ..).trans_ne hf)
  · cases u with
    | enc =>
      rcases decode_enc_cases w with ⟨v, hw⟩ | hw | ⟨c, d, hw⟩ | ⟨e, hw⟩ <;> cases hw.symm.trans hd <;>
        exact whenRunning_halted hf _
    | dec =>
      rcases decode_dec_cases w with ⟨v, c, hw⟩ | hw | ⟨c, d, hw⟩ | ⟨e, hw⟩ <;> cases hw.symm.trans hd <;>
        exact whenRunning_halted hf _
    | seg =>
      rcases decode_seg_cases w with ⟨x, y, c, hw⟩ | ⟨c0, c1, c2, hw⟩ | hw | ⟨c, d, hw⟩ | ⟨e, hw⟩ <;> cases hw.symm.trans hd <;>
        exact whenRunning_halted hf _

end Sys2Proof.Machine

/-! SUPPORT. What a soft reset and a terminator leave of a unit (R47, R221, R223), and what each instruction leaves as it was (R20, R115,
R170, R171). -/

namespace Sys2Proof.Machine

/-! ### The soft reset after a consume step (R223) -/

theorem exec_wr_ctrl (s : State) (u : UnitId) : exec (.wr (ctrlIndex u) 1) s = .next (s.softReset u) :=
  congrArg Host.Outcome.next (regWrite_ctrl_reset s u rfl)

/-- A token changes no register of SEG that the soft reset keeps, but for the frame store. -/
theorem SegMove.softReset_eq {g g' : SegState} (h : SegMove g g') :
    { g'.idle with fault := 0, info := 0, outq := [] } = { g.idle with fault := 0, info := 0, outq := [], fs := g'.fs } := by
  cases h <;> rfl

/-- The soft reset erases what the unit's turn did but for the token taken and the frame store. -/
theorem consume_softReset {s t : State} {u : UnitId} (h : s.consume u = .next t) :
    t.softReset u =
      { (s.setInq u (t.inq u)).softReset u with
        seg := { ((s.setInq u (t.inq u)).softReset u).seg with fs := (t.softReset u).seg.fs } } := by
  cases u with
  | enc => obtain ⟨rfl, -⟩ | ⟨w, q, e, -, -, -, rfl⟩ := consume_enc h <;> rfl
  | dec => obtain ⟨rfl, -⟩ | ⟨w, q, d, -, -, -, rfl⟩ := consume_dec h <;> rfl
  | seg =>
    obtain ⟨rfl, -⟩ | ⟨w, q, g, -, -, hmove, rfl⟩ := consume_seg h
    · rfl
    · exact congrArg (fun g => { s with seg := g, host := { s.host with segIn := q } }) hmove.softReset_eq

/-- Settles O30: the soft reset writes every register of its unit that a token can have changed. -/
theorem consumeThenResetLeavesNoTrace : Obligations.ConsumeThenResetLeavesNoTrace := by
  intro s t u h
  cases u with
  | enc => exact ⟨_, _, exec_wr_ctrl t .enc, exec_wr_ctrl _ .enc, consume_softReset h⟩
  | dec => exact ⟨_, _, exec_wr_ctrl t .dec, exec_wr_ctrl _ .dec, consume_softReset h⟩
  | seg => exact ⟨_, _, exec_wr_ctrl t .seg, exec_wr_ctrl _ .seg, consume_softReset h⟩

/-! ### A unit after a terminator (R47) -/

theorem EncState.idle_eq_reset {e : EncState} (hf : e.fault = 0) : e.idle = { EncState.reset with outq := e.outq } := by
  rw [EncState.idle, hf]
  rfl

theorem DecState.eq_reset {d : DecState} (hf : d.fault = 0) : d = { DecState.reset with outq := d.outq } :=
  congrArg (DecState.mk · d.outq) hf

theorem SegState.idle_eq_reset {g : SegState} (hf : g.fault = 0) (hi : g.info = 0) :
    g.idle =
      { SegState.reset with
        outq := g.outq, hLo := g.hLo, hHi := g.hHi, sMin := g.sMin, vMin := g.vMin, openEn := g.openEn, fs := g.fs, fsEpoch := g.fsEpoch } := by
  rw [SegState.idle, hf, hi]
  rfl

/-- Settles O31: an accepted terminator makes its unit idle, and without a fault there is no sub-reason. -/
theorem terminatorLeavesUnitAsReset : Obligations.TerminatorLeavesUnitAsReset := by
  refine ⟨fun s t i _ hf hi h => ?_, fun s t i _ hf hi h => ?_, fun s t i hinv hf hi h hft => ?_⟩
  · rcases hi with rfl | ⟨c, d, rfl⟩
    · cases (execEncEnd_running hf).symm.trans h
      exact EncState.idle_eq_reset hf
    · cases (execEncErr_running hf c d).symm.trans h
      exact EncState.idle_eq_reset hf
  · rcases hi with rfl | ⟨c, d, rfl⟩
    · cases (execDecEnd_running hf).symm.trans h
      exact DecState.eq_reset hf
    · cases (execDecErr_running hf c d).symm.trans h
      exact DecState.eq_reset hf
  · obtain ⟨-, -, -, -, -, hcause, -⟩ := hinv
    have hinfo : s.seg.info = 0 := not_not.1 fun hne => absurd (hf.symm.trans (hcause.2 hne)) (by decide)
    rcases hi with rfl | ⟨c, d, rfl⟩
    · obtain ⟨-, h⟩ := whenRunning_next h
      split_ifs at h <;> cases h
      · exact absurd (show (1 : Code) = 0 from hft) (by decide)
      · exact absurd (show (4 : Code) = 0 from hft) (by decide)
      · exact SegState.idle_eq_reset hf hinfo
    · cases (execSegErr_running hf c d).symm.trans h
      exact SegState.idle_eq_reset hf hinfo

/-! ### The frame of each instruction -/

/-- The unit whose input port an instruction comes from; none for a register request. -/
def unitOf : Instr → Option UnitId
  | .segHdr _ _ _ | .segPix _ _ _ | .segEnd | .segErr _ _ => some .seg
  | .encData _ | .encEnd | .encErr _ _ => some .enc
  | .decRun _ _ | .decEnd | .decErr _ _ => some .dec
  | .rd _ | .wr _ _ => none

section
variable {i : Instr} {s t : State}

theorem exec_enc_next (hu : unitOf i = some .enc) (h : exec i s = .next t) :
    s.enc.fault = 0 ∧ ∃ e, EncMove s.enc e ∧ t = { s with enc := e } := by
  cases i <;> cases hu
  · exact execEncData_next h
  · exact execEncEnd_next h
  · exact execEncErr_next h

theorem exec_dec_next (hu : unitOf i = some .dec) (h : exec i s = .next t) :
    s.dec.fault = 0 ∧ ∃ d, DecMove s.dec d ∧ t = { s with dec := d } := by
  cases i <;> cases hu
  · exact execDecRun_next h
  · exact execDecEnd_next h
  · exact execDecErr_next h

theorem exec_seg_next (hu : unitOf i = some .seg) (h : exec i s = .next t) :
    s.seg.fault = 0 ∧ ∃ g, SegMove s.seg g ∧ t = { s with seg := g } := by
  cases i <;> cases hu
  · exact execSegHdr_next h
  · exact execSegPix_next h
  · exact execSegEnd_next h
  · exact execSegErr_next h

/-- An RD appends to the host's reads; a WR leaves the host, the interleaving and the frame store as they are. -/
theorem exec_regPort_next (hu : unitOf i = none) (h : exec i s = .next t) :
    (∃ idx, i = .rd idx ∧ t = { s with host := { s.host with reads := s.host.reads ++ [s.regValue idx] } }) ∨
      ∃ idx v, i = .wr idx v ∧ ∃ e d g, t = { s with enc := e, dec := d, seg := g } ∧ g.fs = s.seg.fs ∧ g.fsEpoch = s.seg.fsEpoch := by
  cases i <;> cases hu
  · cases h
    exact .inl ⟨_, rfl, rfl⟩
  · rename_i idx v
    refine .inr ⟨idx, v, rfl, ?_⟩
    obtain rfl := Host.Outcome.next.inj h
    rcases regWrite_cases s idx v with heq | ⟨-, ⟨-, heq⟩ | ⟨-, heq⟩ | ⟨-, heq⟩⟩ | ⟨a, b, c, d, e, heq⟩ <;> rw [heq] <;>
      exact ⟨_, _, _, rfl, rfl, rfl⟩

/-- Of SEG's instructions only SEG.PIX writes the frame store. -/
theorem exec_seg_frameStore (hu : unitOf i = some .seg) (hpix : ∀ c0 c1 c2, i ≠ .segPix c0 c1 c2) (h : exec i s = .next t) :
    t.seg.fs = s.seg.fs ∧ t.seg.fsEpoch = s.seg.fsEpoch := by
  cases i <;> cases hu
  · obtain ⟨-, h⟩ := whenRunning_next h
    split_ifs at h <;> cases h <;> exact ⟨rfl, rfl⟩
  · exact absurd rfl (hpix _ _ _)
  · obtain ⟨-, h⟩ := whenRunning_next h
    split_ifs at h <;> cases h <;> exact ⟨rfl, rfl⟩
  · obtain ⟨-, h⟩ := whenRunning_next h
    cases h
    exact ⟨rfl, rfl⟩

theorem byte_congr {g g' : SegState} (hfs : g'.fs = g.fs) (hepoch : g'.fsEpoch = g.fsEpoch) (a : Nat) : g'.byte a = g.byte a := by
  rw [SegState.byte, SegState.byte, hfs, hepoch]

end

/-- Settles O38: a token instruction replaces its unit's registers, an RD the host's reads, a WR registers of the units. -/
theorem instructionFrames : Obligations.InstructionFrames := by
  intro i s t h
  have henc : ∀ v c d, (i = .encData v ∨ i = .encEnd ∨ i = .encErr c d) → unitOf i = some .enc := by
    rintro v c d (rfl | rfl | rfl) <;> rfl
  have hdec : ∀ v n c d, (i = .decRun v n ∨ i = .decEnd ∨ i = .decErr c d) → unitOf i = some .dec := by
    rintro v n c d (rfl | rfl | rfl) <;> rfl
  have hseg : ∀ h w n c0 c1 c2 c d, (i = .segHdr h w n ∨ i = .segPix c0 c1 c2 ∨ i = .segEnd ∨ i = .segErr c d) →
      unitOf i = some .seg := by
    rintro h w n c0 c1 c2 c d (rfl | rfl | rfl | rfl) <;> rfl
  cases hu : unitOf i with
  | none =>
    rw [hu] at henc hdec hseg
    refine ⟨?_, ?_, ?_, ?_, ?_, fun v c d hi => (nomatch henc v c d hi), fun v n c d hi => (nomatch hdec v n c d hi),
      fun h w n c0 c1 c2 c d hi => (nomatch hseg h w n c0 c1 c2 c d hi)⟩
    all_goals
      obtain ⟨idx, rfl, rfl⟩ | ⟨idx, v, rfl, e, d, g, rfl, hfs, hepoch⟩ := exec_regPort_next hu h
    · rfl
    · rfl
    · rfl
    · rfl
    · exact fun hno => absurd rfl (hno idx)
    · exact fun _ => rfl
    · exact fun _ _ => rfl
    · exact fun _ => byte_congr hfs hepoch
    · exact fun _ => ⟨rfl, rfl, rfl, rfl, rfl⟩
    · exact fun hno => absurd rfl (hno idx v)
  | some u =>
    rw [hu] at henc hdec hseg
    cases u with
    | enc =>
      obtain ⟨-, e, -, rfl⟩ := exec_enc_next hu h
      exact ⟨rfl, rfl, fun _ => rfl, fun _ _ => rfl, fun _ => ⟨rfl, rfl, rfl, rfl, rfl⟩, fun _ _ _ _ => ⟨rfl, rfl⟩,
        fun v n c d hi => (nomatch hdec v n c d hi), fun h w n c0 c1 c2 c d hi => (nomatch hseg h w n c0 c1 c2 c d hi)⟩
    | dec =>
      obtain ⟨-, d, -, rfl⟩ := exec_dec_next hu h
      exact ⟨rfl, rfl, fun _ => rfl, fun _ _ => rfl, fun _ => ⟨rfl, rfl, rfl, rfl, rfl⟩, fun v c d hi => (nomatch henc v c d hi),
        fun _ _ _ _ _ => ⟨rfl, rfl⟩, fun h w n c0 c1 c2 c d hi => (nomatch hseg h w n c0 c1 c2 c d hi)⟩
    | seg =>
      have hstore := fun hpix => exec_seg_frameStore hu hpix h
      obtain ⟨-, g, hmove, rfl⟩ := exec_seg_next hu h
      exact ⟨rfl, rfl, fun _ => rfl, fun hpix => byte_congr (hstore hpix).1 (hstore hpix).2,
        fun _ => by simpa [SegState.config] using hmove.config_eq, fun v c d hi => (nomatch henc v c d hi),
        fun v n c d hi => (nomatch hdec v n c d hi), fun _ _ _ _ _ _ _ _ _ => ⟨rfl, rfl⟩⟩

/-! ### A configuration register written and read (R35 to R39) -/

/-- Cut to `n` bits and extended again, a word keeps its low `n` bits. -/
theorem setWidth_setWidth_low (v : RegWord) {n : Nat} (hn : n < 32) :
    (v.setWidth n).setWidth 32 = v &&& BitVec.ofNat 32 (2 ^ n - 1) := by
  have hlt : 2 ^ n < 2 ^ 32 := Nat.pow_lt_pow_right (by omega) hn
  have hmod : v.toNat % 2 ^ n < 2 ^ n := Nat.mod_lt _ (Nat.two_pow_pos n)
  apply BitVec.eq_of_toNat_eq
  rw [BitVec.toNat_setWidth, BitVec.toNat_setWidth, Nat.mod_eq_of_lt (hmod.trans hlt), BitVec.toNat_and, BitVec.toNat_ofNat,
    Nat.mod_eq_of_lt (show 2 ^ n - 1 < 2 ^ 32 by omega), Nat.and_two_pow_sub_one_eq_mod]

/-- Settles O16: a read returns what the write stored, its low 8 bits, or bit 0 at index 9. -/
theorem configurationWriteReadsBack : Obligations.ConfigurationWriteReadsBack := by
  intro idx v s h5 h9
  refine ⟨_, exec_wr idx v s, (exec_rd idx _).trans ?_⟩
  have hlow : (v.extractLsb' 0 8).setWidth 32 = v &&& 0xFF#32 := (congrArg _ (regWord_low8 v)).trans (setWidth_setWidth_low v (by omega))
  have hbit : (BitVec.ofBool (v.getLsbD 0)).setWidth 32 = v &&& 1#32 := by
    rw [← BitVec.setWidth_one, setWidth_setWidth_low v (by omega)]
    rfl
  have hidx : idx = 5 ∨ idx = 6 ∨ idx = 7 ∨ idx = 8 ∨ idx = 9 := by revert idx; decide
  rcases hidx with rfl | rfl | rfl | rfl | rfl
  · rw [if_neg (by decide), ← hlow]; rfl
  · rw [if_neg (by decide), ← hlow]; rfl
  · rw [if_neg (by decide), ← hlow]; rfl
  · rw [if_neg (by decide), ← hlow]; rfl
  · rw [if_pos (by decide), ← hbit]; rfl

/-! ### The frame store at SEG.END (R54, R236) -/

/-- A pixel is read from its own three bytes. -/
theorem pixels_congr {g g' : SegState} {n : Nat} (h : ∀ x < 3 * n, g'.byte x = g.byte x) : g'.pixels n = g.pixels n := by
  rw [pixels_eq, pixels_eq]
  refine List.map_congr_left fun i hi => ?_
  have hi := List.mem_range.1 hi
  rw [h (3 * i) (by omega), h (3 * i + 1) (by omega), h (3 * i + 2) (by omega)]

theorem SegState.phase_eq_load {g : SegState} (h : g.phase ≠ .idle) : g.phase = .load := by
  cases hp : g.phase with
  | idle => exact absurd hp h
  | load => rfl

/-- Settles O40: SEG.END reads the bytes of the frame's pixels and no other. -/
theorem staleBytesNeverLeak : Obligations.StaleBytesNeverLeak := by
  intro s fs epoch a b hbytes ha hb
  have htokens : SegState.outputTokens { s.seg with fs := fs, fsEpoch := epoch } = s.seg.outputTokens :=
    congrArg
      (fun p => Token.hdr s.seg.h s.seg.w Config.channels ::
        ((segFrame Config.hsvConv s.seg.h.toNat s.seg.w.toNat p s.seg.latched).map Token.pix ++ [Token.fin]))
      (pixels_congr hbytes)
  obtain ⟨hf, ha⟩ := whenRunning_next ha
  split_ifs at ha with hidle hshort hroom <;> cases ha
  · cases hb.symm.trans (execSegEnd_idle hf hidle)
    rfl
  · cases hb.symm.trans (execSegEnd_short hf (SegState.phase_eq_load hidle) hshort)
    rfl
  · cases hb.symm.trans (execSegEnd_emit hf (SegState.phase_eq_load hidle) (not_not.1 hshort) hroom)
    exact congrArg (s.seg.outq ++ wordsOf ·) htokens

/-- Settles O41: the bytes of pixel 40000 and of a frame larger than 40000 pixels end above address 119999. -/
theorem outsideFrameStoreStops : Obligations.OutsideFrameStoreStops := by
  refine ⟨fun c0 c1 c2 s hf hp hn hmax => ?_, fun s hf hp hn hmax => ?_⟩
  · have hno : ¬frameStoreHas s.seg.storeAddr 3 = true := by
      rw [frameStoreHas_iff, SegState.storeAddr, pixelAddr]
      omega
    exact (whenRunning_seg hf _).trans ((if_neg (SegState.phase_ne_idle hp)).trans ((if_neg hn).trans (if_neg hno)))
  · have hno : ¬frameStoreHas 0 (3 * s.seg.frameSize) = true := by
      rw [frameStoreHas_iff, SegState.frameSize]
      omega
    exact (whenRunning_seg hf _).trans ((if_neg (SegState.phase_ne_idle hp)).trans ((if_neg (not_not.2 hn)).trans (if_neg hno)))

end Sys2Proof.Machine

namespace Sys2Proof

theorem SegCfg.accepts_iff (cfg : SegCfg) (x : Hsv) :
    cfg.accepts x = true ↔
      cfg.hlo.toNat ≤ x.hue.toNat ∧ x.hue.toNat ≤ cfg.hhi.toNat ∧ cfg.smin.toNat ≤ x.sat.toNat ∧ cfg.vmin.toNat ≤ x.val.toNat := by
  simp [SegCfg.accepts, BitVec.le_def, and_assoc]

/-- Settles O42: the comparisons of `accepts` are those of the numbers. -/
theorem thresholdIsInclusiveBand : Obligations.ThresholdIsInclusiveBand := by
  refine ⟨SegCfg.accepts_iff, fun x => SegCfg.accepts_iff _ x, fun conv cfg p i x hx => ?_⟩
  rw [thresholdMask, List.getElem?_map, hx]
  rfl

end Sys2Proof

/-! SUPPORT. The invariant (R24, R28, R47, R53, R80): every move of a unit and every operation of the host keeps it, and under it every step
has a next state. -/

namespace Sys2Proof.Machine

/-! ### The words a unit emits (R80) -/

/-- A token's word is one the unit can have emitted when the token is. -/
theorem emittedWord_word (u : UnitId) (t : Token) : emittedWord u t.word = emittable u t := by
  simp [emittedWord, Laws.EncodingRow.canonicalWord_word]

/-- Emitting tokens of the unit's kinds keeps its queue to words it emits. -/
theorem emittedWord_append {u : UnitId} {q : List TokenWord} {ts : List Token} (hq : ∀ w ∈ q, emittedWord u w = true)
    (hts : ∀ t ∈ ts, emittable u t = true) : ∀ w ∈ q ++ wordsOf ts, emittedWord u w = true := by
  refine List.forall_mem_append.2 ⟨hq, fun w hw => ?_⟩
  obtain ⟨t, ht, rfl⟩ := List.mem_map.1 hw
  exact (emittedWord_word u t).trans (hts t ht)

/-- Emitting one token. -/
theorem emittedWord_append_one {u : UnitId} {q : List TokenWord} {t : Token} (hq : ∀ w ∈ q, emittedWord u w = true)
    (ht : emittable u t = true) : ∀ w ∈ q ++ [t.word], emittedWord u w = true :=
  emittedWord_append (ts := [t]) hq (List.forall_mem_singleton.2 ht)

/-- The RUN token of a positive count is ENC's. -/
theorem emittable_run {v : Sample} {c : Count} (hc : c ≠ 0) : emittable .enc (.run v c) = true := bne_iff_ne.2 hc

/-! ### A unit's move -/

/-- A token keeps ENC's invariant: an open run has a positive count, and is emitted with it. -/
theorem EncMove.inv {e e' : EncState} (hinv : e.Inv) (h : EncMove e e') : e'.Inv := by
  obtain ⟨hnone, hopen, hfault, hq⟩ := hinv
  cases h with
  | start v _ => exact ⟨nofun, fun _ => (by simp), hfault, hq⟩
  | count hr hc =>
    have hnext : (e.cnt + 1).toNat = e.cnt.toNat + 1 :=
      BitVec.toNat_add_of_lt (show e.cnt.toNat + 1 < 2 ^ 32 by simp only [Config.maxCnt] at hc; omega)
    refine ⟨fun hr' => absurd (hr.symm.trans hr') (by decide), fun _ hzero => ?_, hfault, hq⟩
    rw [show e.cnt + 1 = 0 from hzero] at hnext
    exact absurd hnext (by simp)
  | overflow _ _ => exact ⟨hnone, hopen, by simp, emittedWord_append_one hq rfl⟩
  | change v hr _ => exact ⟨nofun, fun _ => (by simp), hfault, emittedWord_append_one hq (emittable_run (hopen hr))⟩
  | flush hr =>
    refine ⟨fun _ => ⟨rfl, rfl⟩, nofun, hfault, emittedWord_append (ts := [e.openRun, .fin]) hq ?_⟩
    exact List.forall_mem_cons.2 ⟨emittable_run (hopen hr), List.forall_mem_singleton.2 rfl⟩
  | finish _ => exact ⟨fun _ => ⟨rfl, rfl⟩, nofun, hfault, emittedWord_append_one hq rfl⟩
  | abort c d => exact ⟨fun _ => ⟨rfl, rfl⟩, nofun, hfault, emittedWord_append_one hq rfl⟩
  | illegal => exact ⟨hnone, hopen, by simp, emittedWord_append_one hq rfl⟩

theorem DecMove.inv {d d' : DecState} (hinv : d.Inv) (h : DecMove d d') : d'.Inv := by
  obtain ⟨hfault, hq⟩ := hinv
  cases h with
  | expand v c _ => exact ⟨hfault, emittedWord_append hq fun t ht => by rw [List.eq_of_mem_replicate ht]; rfl⟩
  | zero => exact ⟨by simp, emittedWord_append_one hq rfl⟩
  | finish => exact ⟨hfault, emittedWord_append_one hq rfl⟩
  | abort c i => exact ⟨hfault, emittedWord_append_one hq rfl⟩
  | illegal => exact ⟨by simp, emittedWord_append_one hq rfl⟩

theorem emittable_outputTokens (g : SegState) : ∀ t ∈ g.outputTokens, emittable .seg t = true := by
  refine List.forall_mem_cons.2 ⟨rfl, List.forall_mem_append.2 ⟨fun t ht => ?_, List.forall_mem_singleton.2 rfl⟩⟩
  obtain ⟨x, -, rfl⟩ := List.mem_map.1 ht
  rfl

/-- A frame within the limits has at most 40000 pixels (R5). -/
theorem frameSize_le {g : SegState} (hh : g.h.toNat ≤ Config.maxH) (hw : g.w.toNat ≤ Config.maxW) : g.frameSize ≤ 40000 :=
  Nat.mul_le_mul hh hw

/-- One more pixel of a frame that is not complete. -/
theorem toNat_n_succ {g : SegState} (hsize : g.frameSize ≤ 40000) (hn : g.n.toNat < g.frameSize) :
    (g.n + 1).toNat = g.n.toNat + 1 :=
  BitVec.toNat_add_of_lt (show g.n.toNat + 1 < 2 ^ 16 by omega)

/-- The bytes written below pixel `n + 1` once pixel `n` is stored (R53, R115). -/
theorem isSome_read_loadPixel {g : SegState} (p : Pixel) (hread : ∀ a < 3 * g.n.toNat, (Memory.read g.fs a).isSome = true) :
    ∀ a < 3 * (g.n.toNat + 1), (Memory.read (g.loadPixel p).fs a).isSome = true := by
  intro a ha
  simp only [SegState.loadPixel, SegState.memWrite, read_writeLE, SegState.storeAddr, pixelAddr]
  split_ifs with h
  · rfl
  · exact hread a (by omega)

theorem SegMove.inv {g g' : SegState} (hinv : g.Inv) (h : SegMove g g') : g'.Inv := by
  obtain ⟨hidle, hload, hfault, hcause, hinfo, hwf, hbound, hq⟩ := hinv
  cases h with
  | start h w _ hh hw hmaxH hmaxW =>
    refine ⟨nofun, fun _ => ⟨⟨?_, hmaxH⟩, ⟨?_, hmaxW⟩, Nat.zero_le _, nofun⟩, hfault, hcause, hinfo, hwf, hbound, hq⟩
    · exact Nat.one_le_iff_ne_zero.2 fun hz => hh (BitVec.eq_of_toNat_eq hz)
    · exact Nat.one_le_iff_ne_zero.2 fun hz => hw (BitVec.eq_of_toNat_eq hz)
  | load p hp hn hroom =>
    obtain ⟨hH, hW, hle, hread⟩ := hload hp
    have hlt := lt_of_le_of_ne hle hn
    have hnext := toNat_n_succ (frameSize_le hH.2 hW.2) hlt
    refine ⟨fun hp' => absurd (hp.symm.trans hp') (by decide), fun _ => ⟨hH, hW, ?_, ?_⟩, hfault, hcause, hinfo, wf_writeLE _ _ _ _ hwf,
      bound_writeLE _ _ _ _ _ hbound (frameStoreHas_iff.1 hroom), hq⟩
    · exact hnext.trans_le hlt
    · intro a ha
      exact isSome_read_loadPixel p hread a (hnext ▸ ha)
  | finish _ _ _ =>
    exact ⟨fun _ => ⟨rfl, rfl, rfl, rfl, rfl, rfl, rfl, rfl, rfl⟩, nofun, hfault, hcause, hinfo, hwf, hbound,
      emittedWord_append hq (emittable_outputTokens g)⟩
  | abort c i =>
    exact ⟨fun _ => ⟨rfl, rfl, rfl, rfl, rfl, rfl, rfl, rfl, rfl⟩, nofun, hfault, hcause, hinfo, hwf, hbound,
      emittedWord_append_one hq rfl⟩
  | image i hi =>
    refine ⟨hidle, hload, by simp, iff_of_true rfl ?_, ?_, hwf, hbound, emittedWord_append_one hq rfl⟩
    · rcases hi with rfl | rfl | rfl | rfl <;> simp
    · rcases hi with rfl | rfl | rfl | rfl <;> simp
  | illegal => exact ⟨hidle, hload, by simp, by simp, by simp, hwf, hbound, emittedWord_append_one hq rfl⟩

/-! ### The state -/

section
variable {s t : State} {u : UnitId}

theorem consume_inv (hinv : s.Inv) (h : s.consume u = .next t) : t.Inv := by
  obtain ⟨henc, hdec, hseg⟩ := hinv
  cases u with
  | enc =>
    obtain ⟨rfl, -⟩ | ⟨w, q, e, -, -, hmove, rfl⟩ := consume_enc h
    · exact ⟨henc, hdec, hseg⟩
    · exact ⟨hmove.inv henc, hdec, hseg⟩
  | dec =>
    obtain ⟨rfl, -⟩ | ⟨w, q, d, -, -, hmove, rfl⟩ := consume_dec h
    · exact ⟨henc, hdec, hseg⟩
    · exact ⟨henc, hmove.inv hdec, hseg⟩
  | seg =>
    obtain ⟨rfl, -⟩ | ⟨w, q, g, -, -, hmove, rfl⟩ := consume_seg h
    · exact ⟨henc, hdec, hseg⟩
    · exact ⟨henc, hdec, hmove.inv hseg⟩

/-- Taking words from an output queue keeps the invariant. -/
theorem setOutq_inv {q : List TokenWord} (hinv : s.Inv) (hq : ∀ w ∈ q, w ∈ s.outq u) : (s.setOutq u q).Inv := by
  obtain ⟨⟨hnone, hopen, hefault, heq⟩, ⟨hdfault, hdq⟩, hidle, hload, hfault, hcause, hinfo, hwf, hbound, hsq⟩ := hinv
  cases u with
  | enc =>
    exact ⟨⟨hnone, hopen, hefault, fun w hw => heq w (hq w hw)⟩, ⟨hdfault, hdq⟩, hidle, hload, hfault, hcause, hinfo, hwf, hbound, hsq⟩
  | dec =>
    exact ⟨⟨hnone, hopen, hefault, heq⟩, ⟨hdfault, fun w hw => hdq w (hq w hw)⟩, hidle, hload, hfault, hcause, hinfo, hwf, hbound, hsq⟩
  | seg =>
    exact ⟨⟨hnone, hopen, hefault, heq⟩, ⟨hdfault, hdq⟩, hidle, hload, hfault, hcause, hinfo, hwf, hbound, fun w hw => hsq w (hq w hw)⟩

theorem encReset_inv : EncState.reset.Inv := ⟨fun _ => ⟨rfl, rfl⟩, nofun, by decide, nofun⟩

theorem decReset_inv : DecState.reset.Inv := ⟨by decide, nofun⟩

/-- SEG idle with no fault and nothing emitted, whatever its configuration, meets the invariant if the frame store does. -/
theorem segIdle_inv {g : SegState} (hwf : Memory.wf g.fs = true) (hbound : ∀ x ∈ g.fs, x.1 < Config.maxFlat) :
    SegState.Inv { g.idle with fault := 0, info := 0, outq := [] } :=
  ⟨fun _ => ⟨rfl, rfl, rfl, rfl, rfl, rfl, rfl, rfl, rfl⟩, nofun, by simp, by simp, by simp, hwf, hbound, nofun⟩

theorem softReset_inv (hinv : s.Inv) : (s.softReset u).Inv := by
  obtain ⟨henc, hdec, hseg⟩ := hinv
  cases u with
  | enc => exact ⟨encReset_inv, hdec, hseg⟩
  | dec => exact ⟨henc, decReset_inv, hseg⟩
  | seg =>
    obtain ⟨-, -, -, -, -, hwf, hbound, -⟩ := hseg
    exact ⟨henc, hdec, segIdle_inv hwf hbound⟩

theorem hardReset_inv (s : State) : s.hardReset.Inv :=
  ⟨encReset_inv, decReset_inv, segIdle_inv (g := { SegState.reset with fsEpoch := s.seg.fsEpoch + 1 }) rfl nofun⟩

theorem regWrite_inv (hinv : s.Inv) (idx : RegIdx) (v : RegWord) : (s.regWrite idx v).Inv := by
  rcases regWrite_cases s idx v with heq | ⟨-, ⟨-, heq⟩ | ⟨-, heq⟩ | ⟨-, heq⟩⟩ | ⟨a, b, c, d, e, heq⟩ <;> rw [heq]
  · exact hinv
  · exact softReset_inv hinv
  · exact softReset_inv hinv
  · exact softReset_inv hinv
  · exact hinv

/-- The host's records are no part of the invariant. -/
theorem discardFor_inv (hinv : s.Inv) (w : RequestWord) : (s.discardFor w).Inv := by
  obtain ⟨a, b, c, heq⟩ := discardFor_eq s w
  rw [heq]
  exact hinv

theorem hostTurn_inv (hinv : s.Inv) (h : s.hostTurn = .next t) : t.Inv := by
  rcases hostTurn_next h with rfl | ⟨op, ops, -, ⟨v, q, rfl⟩ | ⟨v, w, q, p, hq, rfl⟩ | ⟨w, -, hexec⟩ | ⟨-, rfl⟩⟩
  · exact hinv
  · cases v <;> exact hinv
  · have hout : (s.setOutq v q).Inv := setOutq_inv hinv fun x hx => hq ▸ List.mem_cons_of_mem w hx
    cases v <;> exact hout
  · have hdiscard : ((s.setProg ops).discardFor w).Inv := discardFor_inv (s := s.setProg ops) hinv w
    obtain ⟨hrd, -⟩ | ⟨hwr, -⟩ := exec_request w ((s.setProg ops).discardFor w)
    · cases hrd.symm.trans hexec
      exact hdiscard
    · cases hwr.symm.trans hexec
      exact regWrite_inv hdiscard _ _
  · exact hardReset_inv _

theorem nextTurn_inv (hinv : s.Inv) : s.nextTurn.2.Inv := by
  obtain ⟨turns, n, hn⟩ := nextTurn_snd s
  rw [hn]
  exact hinv

end

/-- Settles O32: a step is a unit's turn, which makes one move of the unit, or the host's. -/
theorem stepKeepsInvariant : Obligations.StepKeepsInvariant := by
  intro s t hinv h
  obtain ⟨u, -, hturn⟩ | ⟨-, hturn⟩ := step_cases h
  · exact consume_inv (nextTurn_inv hinv) hturn
  · exact hostTurn_inv (nextTurn_inv hinv) hturn

/-- Settles O33: the reset state is a hard reset's, with the frame store not yet written. -/
theorem resetMeetsInvariant : Obligations.ResetMeetsInvariant :=
  ⟨encReset_inv, decReset_inv, segIdle_inv (g := SegState.reset) rfl nofun⟩

/-! ### Every step goes on -/

section
variable {s : State}

theorem execSegHdr_goes_on (hf : s.seg.fault = 0) (h w : Dim) (c : Sample) : ∃ t, execSegHdr h w c s = .next t := by
  rw [execSegHdr, whenRunning_seg hf]
  split_ifs <;> exact ⟨_, rfl⟩

/-- Under the invariant the pixel's bytes exist (R54). -/
theorem execSegPix_goes_on (hinv : s.seg.Inv) (hf : s.seg.fault = 0) (c0 c1 c2 : Sample) : ∃ t, execSegPix c0 c1 c2 s = .next t := by
  obtain ⟨-, hload, -⟩ := hinv
  by_cases hp : s.seg.phase = .idle
  · exact ⟨_, execSegPix_idle hf hp⟩
  · have hp := SegState.phase_eq_load hp
    obtain ⟨hH, hW, hle, -⟩ := hload hp
    by_cases hn : s.seg.n.toNat = s.seg.frameSize
    · exact ⟨_, execSegPix_full hf hp hn⟩
    · have hsize := frameSize_le hH.2 hW.2
      refine ⟨_, execSegPix_loadPixel hf hp hn (frameStoreHas_iff.2 ?_)⟩
      rw [SegState.storeAddr, pixelAddr]
      omega

/-- Under the invariant the frame's bytes exist (R54). -/
theorem execSegEnd_goes_on (hinv : s.seg.Inv) (hf : s.seg.fault = 0) : ∃ t, execSegEnd s = .next t := by
  obtain ⟨-, hload, -⟩ := hinv
  by_cases hp : s.seg.phase = .idle
  · exact ⟨_, execSegEnd_idle hf hp⟩
  · have hp := SegState.phase_eq_load hp
    obtain ⟨hH, hW, -⟩ := hload hp
    by_cases hn : s.seg.n.toNat = s.seg.frameSize
    · have hsize := frameSize_le hH.2 hW.2
      exact ⟨_, execSegEnd_emit hf hp hn (frameStoreHas_iff.2 (by omega))⟩
    · exact ⟨_, execSegEnd_short hf hp hn⟩

theorem executeToken_goes_on {u : UnitId} (hinv : s.Inv) (hf : s.fault u = 0) (w : TokenWord) : ∃ t, s.executeToken u w = .next t := by
  cases hd : decode u w with
  | error e => exact ⟨_, executeToken_error hd⟩
  | ok i =>
    rw [executeToken_ok hd]
    cases u with
    | enc =>
      rcases decode_enc_cases w with ⟨v, hw⟩ | hw | ⟨c, d, hw⟩ | ⟨e, hw⟩ <;> cases hw.symm.trans hd
      · obtain ⟨t, ht, -⟩ := execEncData_accepted hf v
        exact ⟨t, ht⟩
      · exact ⟨_, execEncEnd_running hf⟩
      · exact ⟨_, execEncErr_running hf c d⟩
    | dec =>
      rcases decode_dec_cases w with ⟨v, c, hw⟩ | hw | ⟨c, d, hw⟩ | ⟨e, hw⟩ <;> cases hw.symm.trans hd
      · obtain ⟨t, ht, -⟩ := execDecRun_accepted hf v c
        exact ⟨t, ht⟩
      · exact ⟨_, execDecEnd_running hf⟩
      · exact ⟨_, execDecErr_running hf c d⟩
    | seg =>
      rcases decode_seg_cases w with ⟨x, y, c, hw⟩ | ⟨c0, c1, c2, hw⟩ | hw | ⟨c, d, hw⟩ | ⟨e, hw⟩ <;> cases hw.symm.trans hd
      · exact execSegHdr_goes_on hf x y c
      · exact execSegPix_goes_on hinv.2.2 hf c0 c1 c2
      · exact execSegEnd_goes_on hinv.2.2 hf
      · exact ⟨_, execSegErr_running hf c d⟩

theorem consume_goes_on (hinv : s.Inv) (u : UnitId) : ∃ t, s.consume u = .next t := by
  rcases hq : s.inq u with _ | ⟨w, q⟩
  · exact ⟨s, consume_empty hq⟩
  · by_cases hf : s.fault u = 0
    · have hinq : (s.setInq u q).Inv := by cases u <;> exact hinv
      rw [consume_cons hq hf]
      exact executeToken_goes_on hinq ((setInq_fault ..).trans hf) w
    · exact ⟨s, consume_halted hf⟩

theorem takeThen_goes_on (s : State) (u : UnitId) (prog : TokenWord → List HostOp) : ∃ t, s.takeThen u prog = .next t := by
  rcases hq : s.outq u with _ | ⟨w, q⟩
  · exact ⟨s, takeThen_empty hq prog⟩
  · exact ⟨_, takeThen_cons hq prog⟩

/-- The host's turn has a next state from every state. -/
theorem hostTurn_goes_on (s : State) : ∃ t, s.hostTurn = .next t := by
  unfold State.hostTurn
  split
  · exact ⟨s, rfl⟩
  · rename_i op ops _
    cases op with
    | offer u w => exact ⟨_, rfl⟩
    | take u => exact takeThen_goes_on s u _
    | request w => exact (exec_request w ((s.setProg ops).discardFor w)).elim (fun h => ⟨_, h.1⟩) fun h => ⟨_, h.1⟩
    | reset => exact ⟨_, rfl⟩
    | withdraw u k => exact ⟨_, rfl⟩
    | drain u => exact takeThen_goes_on s u _
    | pipe src dst => exact takeThen_goes_on s src _
    | pipeFlat => exact takeThen_goes_on s .seg _

end

/-- Settles O34: a halted unit passes, and within the limits of a frame the store's addresses suffice. -/
theorem invariantStepsGoOn : Obligations.InvariantStepsGoOn := by
  intro s hinv
  rw [step]
  cases s.nextTurn.1 with
  | unit u => exact consume_goes_on (nextTurn_inv hinv) u
  | host => exact hostTurn_goes_on _

end Sys2Proof.Machine

/-! SUPPORT. Opening as a projection (R107, R113): masks compared position by position. -/

namespace Sys2Proof

section
variable {h w i : Nat} {m m' : List Bool}

theorem mask_ext (hlen : m.length = m'.length) (hset : ∀ i, maskAt m i = true ↔ maskAt m' i = true) : m = m' := by
  refine List.ext_getElem hlen fun i hi hi' => ?_
  have hi := hset i
  rwa [maskAt, maskAt, List.getD_eq_getElem, List.getD_eq_getElem, ← Bool.eq_iff_iff] at hi

theorem maskAt_opening :
    maskAt (opening h w m) i = true ↔ i < h * w ∧ ∃ j ∈ neighbours h w i, maskAt (erode h w m) j = true := maskAt_dilate

theorem maskAt_replicate (n : Nat) (b : Bool) : maskAt (List.replicate n b) i = true ↔ i < n ∧ b = true := by
  by_cases hi : i < n <;> simp [maskAt, hi, List.getD_eq_getElem?_getD]

/-- A position is its own neighbour. -/
theorem self_mem_neighbours (hi : i < h * w) : i ∈ neighbours h w i := by
  obtain ⟨r, c, hr, hc, rfl⟩ := exists_rowMajor hi
  exact (mem_neighbours hc).2 ⟨r, c, hr, hc, by omega, by omega, rfl⟩

/-- Where the square around a position is set, it is set in the opened mask too: dilation gives back what erosion left. -/
theorem maskAt_erode_opening (hset : maskAt (erode h w m) i = true) : maskAt (erode h w (opening h w m)) i = true := by
  obtain ⟨hi, -⟩ := maskAt_erode.1 hset
  refine maskAt_erode.2 ⟨hi, fun j hj => ?_⟩
  obtain ⟨hj', hij⟩ := mem_neighbours_symm hi hj
  exact maskAt_opening.2 ⟨hj', i, hij, hset⟩

end

/-- Settles O45: opening removes nothing more from an opened mask, since the eroded squares are still set in it. -/
theorem openingIsIdempotent : Obligations.OpeningIsIdempotent := by
  intro h w m
  refine mask_ext ((length_opening h w _).trans (length_opening h w m).symm) fun i => ⟨maskAt_of_maskAt_opening, fun hset => ?_⟩
  obtain ⟨hi, j, hj, heroded⟩ := maskAt_opening.1 hset
  exact maskAt_opening.2 ⟨hi, j, hj, maskAt_erode_opening heroded⟩

/-- Settles O46: a foreground position of a uniform frame has itself for a neighbour whose whole square is set. -/
theorem openingRemovesOnlyAndKeepsUniformFrames : Obligations.OpeningRemovesOnlyAndKeepsUniformFrames := by
  refine ⟨fun h w i m => maskAt_of_maskAt_opening, fun h w b => ?_⟩
  refine mask_ext ((length_opening h w _).trans List.length_replicate.symm) fun i => ⟨maskAt_of_maskAt_opening, fun hset => ?_⟩
  obtain ⟨hi, rfl⟩ := (maskAt_replicate _ b).1 hset
  refine maskAt_opening.2 ⟨hi, i, self_mem_neighbours hi, maskAt_erode.2 ⟨hi, fun j hj => ?_⟩⟩
  exact (maskAt_replicate _ true).2 ⟨(mem_neighbours_symm hi hj).1, rfl⟩

end Sys2Proof

/-! SUPPORT. Sizes and concatenations of the codec's sequences (R140, R141, R160), and FLAT and UNFLAT on whole sequences (R178). -/

namespace Sys2Proof

/-! ### The number of runs (R140, R141) -/

/-- Every run holds at least one sample. -/
theorem length_rleEncode_le (x : List Sample) : (rleEncode x).length ≤ x.length := by
  obtain ⟨hsum, hpos⟩ := counts_of_rleDecode (rleDecode_rleEncode x)
  calc (rleEncode x).length
      = ((rleEncode x).map Prod.snd).length := (List.length_map _).symm
    _ ≤ countSum (rleEncode x) := List.length_le_sum_of_one_le _ (List.forall_mem_map.2 hpos)
    _ = x.length := hsum

theorem length_rleEncode_pos {x : List Sample} (hx : x ≠ []) : 0 < (rleEncode x).length := by
  refine List.length_pos_iff.2 fun hnil => hx ?_
  have hdecode := rleDecode_rleEncode x
  rw [hnil] at hdecode
  exact (Except.ok.inj hdecode).symm

/-- Settles O51: the number of runs is from 1 to the number of samples. -/
theorem efficiencyRatioRange : Obligations.EfficiencyRatioRange := by
  intro e x hx
  have hn : 0 < x.length := List.length_pos_iff.2 hx
  have hle : ((rleEncode x).length : Rat) ≤ x.length := Nat.cast_le.2 (length_rleEncode_le x)
  have hpos : (0 : Rat) < (rleEncode x).length := Nat.cast_pos.2 (length_rleEncode_pos hx)
  have hn' : (0 : Rat) < x.length := Nat.cast_pos.2 hn
  refine ⟨_, if_neg hn.ne', div_nonneg (by linarith) hn'.le, ?_⟩
  rw [div_lt_iff₀ hn']
  linarith

/-- Settles O53, by induction on the first sequence. -/
theorem decodeDistributesOverConcatenation : Obligations.DecodeDistributesOverConcatenation := by
  intro r q x y hr hq
  induction r generalizing x with
  | nil => cases hr; exact hq
  | cons a r ih =>
    obtain ⟨hc, out, hout, rfl⟩ := rleDecode_cons_eq_ok_iff.1 hr
    rw [List.append_assoc]
    exact rleDecode_cons_of_ok hc (ih out hout)

/-! ### FLAT and UNFLAT (R178) -/

theorem wordsOf_append (ts us : List Token) : wordsOf (ts ++ us) = wordsOf ts ++ wordsOf us := List.map_append

theorem flat_append (ws vs : List TokenWord) : flat (ws ++ vs) = flat ws ++ flat vs := List.flatMap_append

@[simp] theorem flatWord_hdr (h w : Dim) (c : Sample) : flatWord (Token.hdr h w c).word = [] := by simp [flatWord]

@[simp] theorem flatWord_pix (p : Pixel) : flatWord (Token.pix p).word = wordsOf (p.samples.map Token.data) := by
  simp [flatWord, wordsOf]

@[simp] theorem flatWord_fin : flatWord Token.fin.word = [Token.fin.word] := by simp [flatWord]

/-- The pixels become their samples, pixel by pixel. -/
theorem flat_pixels (p : List Pixel) : flat (wordsOf (p.map Token.pix)) = wordsOf ((flattenPixels p).map Token.data) := by
  induction p with
  | nil => rfl
  | cons a p ih =>
    calc flat (wordsOf ((a :: p).map Token.pix))
        = flatWord (Token.pix a).word ++ flat (wordsOf (p.map Token.pix)) := rfl
      _ = wordsOf (a.samples.map Token.data) ++ wordsOf ((flattenPixels p).map Token.data) := by rw [flatWord_pix, ih]
      _ = wordsOf ((flattenPixels (a :: p)).map Token.data) := by rw [← wordsOf_append, ← List.map_append]; rfl

theorem flat_toksFrame (h w : Nat) (p : List Pixel) : flat (wordsOf (toksFrame h w p)) = wordsOf (toksData (flattenPixels p)) := by
  calc flat (wordsOf (toksFrame h w p))
      = flatWord (headerToken h w).word ++ flat (wordsOf (p.map Token.pix ++ [.fin])) := rfl
    _ = flat (wordsOf (p.map Token.pix)) ++ flatWord Token.fin.word := by
      rw [headerToken, flatWord_hdr, wordsOf_append, flat_append]; rfl
    _ = wordsOf (toksData (flattenPixels p)) := by rw [flat_pixels, flatWord_fin, toksData, wordsOf_append]; rfl

theorem length_flattenPixels (p : List Pixel) : (flattenPixels p).length = 3 * p.length := by
  induction p with
  | nil => rfl
  | cons a p ih =>
    rw [flattenPixels, List.flatMap_cons, List.length_append, List.length_cons, ← flattenPixels, ih, Nat.mul_succ, Nat.add_comm]
    rfl

theorem groupPixels_flattenPixels (p : List Pixel) : groupPixels (flattenPixels p) = p := by
  induction p with
  | nil => rfl
  | cons a p ih => exact congrArg (a :: ·) ih

/-- A flat sequence splits at its terminator. -/
theorem splitData_toksData (x : List Sample) : splitData (wordsOf (toksData x)) = (x, [Token.fin.word]) := by
  induction x with
  | nil => simp [toksData, wordsOf, splitData]
  | cons v x ih =>
    have hcons : wordsOf (toksData (v :: x)) = (Token.data v).word :: wordsOf (toksData x) := rfl
    simp [hcons, splitData, ih]

theorem unflat_toksData (h w : Nat) (x : List Sample) :
    unflat h w (wordsOf (toksData x)) =
      if x.length = 3 * h * w then .ok (wordsOf (toksFrame h w (groupPixels x))) else .error .length := by
  simp [unflat, splitData_toksData, toksFrame]

/-- Settles O60: FLAT works token by token, and three samples are one pixel. -/
theorem flatAndUnflatAreInverse : Obligations.FlatAndUnflatAreInverse := by
  refine ⟨fun h w p => ⟨flat_toksFrame h w p, fun hp => ?_⟩, fun h w x hx => ?_⟩
  · have hlen : (flattenPixels p).length = 3 * h * w := by rw [length_flattenPixels, hp, Nat.mul_assoc]
    rw [flat_toksFrame, unflat_toksData, if_pos hlen, groupPixels_flattenPixels]
  · rw [unflat_toksData, if_neg hx]

namespace Machine

/-! ### The words ENC emits (R140) -/

/-- ENC.DATA emits the closed run, an ERR, or nothing. -/
theorem execEncData_outq {v : Sample} {s t : State} (h : execEncData v s = .next t) :
    ∃ q, t.enc.outq = s.enc.outq ++ q ∧ q.length ≤ 1 := by
  obtain ⟨-, h⟩ := whenRunning_next h
  split_ifs at h <;> cases h
  · exact ⟨[], (List.append_nil _).symm, Nat.zero_le 1⟩
  · exact ⟨_, rfl, le_rfl⟩
  · exact ⟨[], (List.append_nil _).symm, Nat.zero_le 1⟩
  · exact ⟨_, rfl, le_rfl⟩

/-- Settles O50: the number of runs, and what each of ENC's instructions emits. -/
theorem encodingNeverExpands : Obligations.EncodingNeverExpands := by
  refine ⟨length_rleEncode_le, fun v s t h => ?_, fun s t i hi h => ?_⟩
  · obtain ⟨q, hq, hlen⟩ := execEncData_outq h
    rw [hq, List.length_append]
    omega
  · rcases hi with rfl | ⟨c, d, rfl⟩
    · obtain ⟨-, h⟩ := whenRunning_next h
      cases h
      refine ⟨_, rfl, ?_⟩
      cases s.enc.haveRun <;> simp [EncState.openRun, Token.kind]
    · obtain ⟨-, h⟩ := whenRunning_next h
      cases h
      exact ⟨_, rfl, by simp [Token.kind]⟩

end Machine
end Sys2Proof

/-! SUPPORT. Consecutive turns of one unit: DEC against `rleDecode` (R158). -/

namespace Sys2Proof.Machine

/-- A unit's turn with a token its port accepts at the head of its input queue (R66, R174). -/
theorem step_token {s : State} {u : UnitId} {turns : List Agent} {t : Token} {q : List TokenWord} {i : Instr}
    (hsched : s.sched = .unit u :: turns) (hq : s.inq u = t.word :: q) (hf : s.fault u = 0) (ha : accept u t = .ok i) :
    step s = exec i ({ s with sched := turns }.setInq u q) :=
  stepRunsDecodedToken.1 s u turns t.word q i hsched hq hf ((decode_word u t).trans ha)

/-- A run whose first step goes on. -/
theorem steps_succ {s t r : State} {k : Nat} (h : step s = .next t) (hrun : steps k t = .next r) : steps (k + 1) s = .next r :=
  (steps_succ_of_next h k).trans hrun

/-- A run and one step after it. -/
theorem steps_then {s t r : State} {k : Nat} (hrun : steps k s = .next t) (h : step t = .next r) : steps (k + 1) s = .next r :=
  (steps_add hrun 1).trans (steps_succ h rfl)

/-- DEC with words appended to its output, its consumed tokens and its turns used up. -/
def State.decEmit (s : State) (turns : List Agent) (rest ws : List TokenWord) : State :=
  { s with sched := turns, host := { s.host with decIn := rest }, dec := { s.dec with outq := s.dec.outq ++ ws } }

theorem decEmit_decEmit (s : State) (turns turns' : List Agent) (rest rest' ws ws' : List TokenWord) :
    (s.decEmit turns rest ws).decEmit turns' rest' ws' = s.decEmit turns' rest' (ws ++ ws') := by
  simp [State.decEmit]

theorem decEmit_nil (s : State) : s.decEmit s.sched s.host.decIn [] = s := by
  simp [State.decEmit]

section
variable {s : State} {rest q : List TokenWord} {turns : List Agent}

theorem step_dec_run {v : Sample} {c : Count} (hsched : s.sched = .unit .dec :: turns) (hf : s.dec.fault = 0)
    (hq : s.host.decIn = (Token.run v c).word :: q) (hc : c ≠ 0) :
    step s = .next (s.decEmit turns q (wordsOf (List.replicate c.toNat (.data v)))) :=
  (step_token hsched hq hf rfl).trans (execDecRun_expand (by exact hf) v hc)

theorem step_dec_zero {v : Sample} (hsched : s.sched = .unit .dec :: turns) (hf : s.dec.fault = 0)
    (hq : s.host.decIn = (Token.run v 0).word :: q) :
    step s = .next ({ s with sched := turns, host := { s.host with decIn := q } }.raise .dec .invalidRun .none) :=
  (step_token hsched hq hf rfl).trans (execDecRun_zero (by exact hf) v rfl)

theorem step_dec_end (hsched : s.sched = .unit .dec :: turns) (hf : s.dec.fault = 0) (hq : s.host.decIn = Token.fin.word :: q) :
    step s = .next (s.decEmit turns q [Token.fin.word]) :=
  (step_token hsched hq hf rfl).trans (execDecEnd_running (by exact hf))

/-- A run's samples, as DEC emits them. -/
theorem replicate_count {c : Nat} (hc : c ≤ 4294967295) (v : Sample) :
    List.replicate (BitVec.ofNat 32 c).toNat (Token.data v) = (List.replicate c v).map Token.data := by
  rw [BitVec.toNat_ofNat, Nat.mod_eq_of_lt (by omega), List.map_replicate]

theorem ofNat_count_ne_zero {c : Nat} (h1 : 1 ≤ c) (hc : c ≤ 4294967295) : BitVec.ofNat 32 c ≠ 0 := by
  intro h
  have hnat := congrArg BitVec.toNat h
  rw [BitVec.toNat_ofNat, Nat.mod_eq_of_lt (by omega)] at hnat
  exact absurd hnat (by simp; omega)

/-- Consuming the RUN tokens of a sequence appends the samples it decodes to. -/
theorem steps_dec_runs {r : List Run} {x : List Sample} (hr : ∀ a ∈ r, 1 ≤ a.2 ∧ a.2 ≤ 4294967295) (hx : rleDecode r = .ok x)
    (hf : s.dec.fault = 0) (hq : s.host.decIn = wordsOf (r.map runToken) ++ rest)
    (hsched : s.sched = List.replicate r.length (.unit .dec) ++ turns) :
    steps r.length s = .next (s.decEmit turns rest (wordsOf (x.map Token.data))) := by
  induction r generalizing s x with
  | nil =>
    cases hx
    obtain rfl : s.host.decIn = rest := hq
    obtain rfl : s.sched = turns := hsched
    exact congrArg _ (decEmit_nil s).symm
  | cons a r ih =>
    obtain ⟨v, c⟩ := a
    obtain ⟨⟨h1, hmax⟩, hr⟩ := List.forall_mem_cons.1 hr
    obtain ⟨-, out, hout, rfl⟩ := rleDecode_cons_eq_ok_iff.1 hx
    have hstep := step_dec_run hsched hf hq (ofNat_count_ne_zero h1 hmax)
    refine steps_succ hstep ((ih hr hout (by exact hf) rfl rfl).trans ?_)
    rw [decEmit_decEmit, replicate_count hmax, ← wordsOf_append, ← List.map_append]

/-- The tokens of a sequence that decodes, the END with them. -/
theorem steps_dec_toksRuns {r : List Run} {x : List Sample} (hr : ∀ a ∈ r, 1 ≤ a.2 ∧ a.2 ≤ 4294967295) (hx : rleDecode r = .ok x)
    (hf : s.dec.fault = 0) (hq : s.host.decIn = wordsOf (toksRuns r) ++ rest)
    (hsched : s.sched = List.replicate (r.length + 1) (.unit .dec) ++ turns) :
    steps (r.length + 1) s = .next (s.decEmit turns rest (wordsOf (toksData x))) := by
  rw [toksRuns, wordsOf_append, List.append_assoc] at hq
  rw [List.replicate_succ', List.append_assoc] at hsched
  have hruns := steps_dec_runs hr hx hf hq hsched
  refine (steps_then hruns (step_dec_end rfl (by exact hf) rfl)).trans ?_
  rw [decEmit_decEmit, toksData, wordsOf_append]
  rfl

end

theorem rleDecode_zero_count {r : List Run} {x : List Sample} (hx : rleDecode r = .ok x) (v : Sample) (r' : List Run) :
    rleDecode (r ++ (v, 0) :: r') = .error .invalidRun := by
  induction r generalizing x with
  | nil => rfl
  | cons a r ih =>
    obtain ⟨hc, out, hout, -⟩ := rleDecode_cons_eq_ok_iff.1 hx
    rw [List.cons_append, rleDecode, if_neg hc, ih hout]

/-- Settles O56: each run is expanded in one turn, up to the END or the first zero count. -/
theorem decoderCorrespondence : Obligations.DecoderCorrespondence := by
  refine ⟨fun r x s rest turns hr hx hf hq hsched => steps_dec_toksRuns hr hx hf hq hsched,
    fun r r' v x s rest turns hr hx hf hq hsched => ⟨rleDecode_zero_count hx v r', ?_⟩⟩
  have htoks : toksRuns (r ++ (v, 0) :: r') = r.map runToken ++ (Token.run v 0 :: toksRuns r') := by
    simp [toksRuns, runToken]
  rw [htoks, wordsOf_append, List.append_assoc] at hq
  rw [List.replicate_succ', List.append_assoc] at hsched
  have hruns := steps_dec_runs hr hx hf hq hsched
  refine (steps_then hruns (step_dec_zero rfl (by exact hf) rfl)).trans ?_
  rw [raise_dec]
  simp only [State.decEmit, List.append_assoc]
  rfl

end Sys2Proof.Machine

/-! SUPPORT. `rleEncode` of a longer sequence: all runs but the last are closed (R130), and the bounds on a run's count. -/

namespace Sys2Proof

/-- The scan after some samples: the closed runs, and the open run, which the samples to come extend. -/
theorem encodeFrom_split (cur : Sample) (cnt : Nat) (xs : List Sample) :
    ∃ (runs : List Run) (last : Run), (cur :: xs).getLast? = some last.1 ∧
      ∀ ys, encodeFrom cur cnt (xs ++ ys) = runs ++ encodeFrom last.1 last.2 ys := by
  induction xs generalizing cur cnt with
  | nil => exact ⟨[], (cur, cnt), rfl, fun _ => rfl⟩
  | cons x xs ih =>
    rw [List.getLast?_cons_cons]
    by_cases hx : x = cur
    · subst hx
      obtain ⟨runs, last, hlast, hsplit⟩ := ih x (cnt + 1)
      exact ⟨runs, last, hlast, fun ys => encodeFrom_cons_self.trans (hsplit ys)⟩
    · obtain ⟨runs, last, hlast, hsplit⟩ := ih x 1
      exact ⟨(cur, cnt) :: runs, last, hlast, fun ys => (if_neg hx).trans (congrArg ((cur, cnt) :: ·) (hsplit ys))⟩

theorem rleEncode_split {xs : List Sample} (hx : xs ≠ []) :
    ∃ (runs : List Run) (last : Run), xs.getLast? = some last.1 ∧
      ∀ ys, rleEncode (xs ++ ys) = runs ++ encodeFrom last.1 last.2 ys := by
  obtain ⟨x, xs, rfl⟩ := List.exists_cons_of_ne_nil hx
  exact encodeFrom_split x 1 xs

/-- The open run is the first to be closed, with its count so far or more. -/
theorem encodeFrom_head (cur : Sample) (cnt : Nat) (xs : List Sample) : ∃ k rest, encodeFrom cur cnt xs = (cur, cnt + k) :: rest := by
  induction xs generalizing cnt with
  | nil => exact ⟨0, [], rfl⟩
  | cons x xs ih =>
    by_cases hx : x = cur
    · subst hx
      obtain ⟨k, rest, h⟩ := ih (cnt + 1)
      exact ⟨1 + k, rest, by rw [encodeFrom_cons_self, h, Nat.add_assoc]⟩
    · exact ⟨0, _, if_neg hx⟩

theorem count_le_of_encodeFrom {cur : Sample} {cnt m : Nat} {xs : List Sample} (h : ∀ r ∈ encodeFrom cur cnt xs, r.2 ≤ m) : cnt ≤ m := by
  obtain ⟨k, rest, heq⟩ := encodeFrom_head cur cnt xs
  rw [heq] at h
  exact (Nat.le_add_right cnt k).trans (List.forall_mem_cons.1 h).1

/-- Samples to come make no run shorter. -/
theorem count_le_of_append {xs ys : List Sample} {m : Nat} (h : ∀ r ∈ rleEncode (xs ++ ys), r.2 ≤ m) : ∀ r ∈ rleEncode xs, r.2 ≤ m := by
  by_cases hx : xs = []
  · subst hx
    exact nofun
  · obtain ⟨runs, last, -, hsplit⟩ := rleEncode_split hx
    rw [hsplit] at h
    have hxs := hsplit []
    rw [List.append_nil] at hxs
    obtain ⟨hruns, hlast⟩ := List.forall_mem_append.1 h
    rw [hxs]
    exact List.forall_mem_append.2 ⟨hruns, List.forall_mem_singleton.2 (count_le_of_encodeFrom hlast)⟩

/-- A block of another value is a run of its own. -/
theorem rleEncode_append_replicate {xs : List Sample} {v : Sample} {c : Nat} (hc : c ≠ 0) (hlast : xs.getLast? ≠ some v) :
    rleEncode (xs ++ List.replicate c v) = rleEncode xs ++ [(v, c)] := by
  have hblock : rleEncode (List.replicate c v) = [(v, c)] := by
    have h := rleEncode_replicate_append (v := v) (xs := []) hc nofun
    rwa [List.append_nil] at h
  by_cases hx : xs = []
  · subst hx
    exact hblock
  · obtain ⟨runs, last, hl, hsplit⟩ := rleEncode_split hx
    have hxs := hsplit []
    rw [List.append_nil] at hxs
    have hhead : (List.replicate c v).head? ≠ some last.1 := by
      rw [List.head?_replicate, if_neg hc, ← hl]
      exact Ne.symm hlast
    rw [hsplit, encodeFrom_of_head_ne hhead, hblock, hxs, List.append_assoc]
    rfl

/-- No run is longer than the sequence. -/
theorem count_le_length {x : List Sample} {r : Run} (hr : r ∈ rleEncode x) : r.2 ≤ x.length := by
  rw [← (counts_of_rleDecode (rleDecode_rleEncode x)).1]
  exact List.le_sum_of_mem (List.mem_map_of_mem hr)

end Sys2Proof

/-! SUPPORT. Consecutive turns of ENC against `rleEncode` (R137, R138). -/

namespace Sys2Proof.Machine

/-- ENC with new registers, its consumed tokens and its turns used up. -/
def State.encAt (s : State) (turns : List Agent) (rest : List TokenWord) (e : EncState) : State :=
  { s with sched := turns, host := { s.host with encIn := rest }, enc := e }

/-- ENC with an open run and what it has emitted, no fault. -/
def openEnc (r : Run) (ws : List TokenWord) : EncState :=
  { haveRun := true, cur := r.1, cnt := BitVec.ofNat 32 r.2, fault := 0, outq := ws }

theorem toNat_count {c : Nat} (hc : c ≤ 4294967295) : (BitVec.ofNat 32 c).toNat = c := by
  rw [BitVec.toNat_ofNat, Nat.mod_eq_of_lt (by omega)]

section
variable {s : State} {rest q ws : List TokenWord} {turns : List Agent} {v : Sample}

/-- ENC's turn with a token it accepts: the turn and the token used up, then the instruction. -/
theorem step_enc_token {t : Token} {i : Instr} (hsched : s.sched = .unit .enc :: turns) (hf : s.enc.fault = 0)
    (hq : s.host.encIn = t.word :: q) (ha : accept .enc t = .ok i) : step s = exec i (s.encAt turns q s.enc) :=
  step_token hsched hq hf ha

theorem step_enc_start (hsched : s.sched = .unit .enc :: turns) (hf : s.enc.fault = 0) (hr : s.enc.haveRun = false)
    (hq : s.host.encIn = (Token.data v).word :: q) : step s = .next (s.encAt turns q (openEnc (v, 1) s.enc.outq)) := by
  rw [step_enc_token hsched hf hq rfl, openEnc, ← hf]
  exact execEncData_start (s := s.encAt turns q s.enc) hf v hr

theorem step_enc_same {c : Nat} (hsched : s.sched = .unit .enc :: turns) (he : s.enc = openEnc (v, c) ws) (hc : c < 4294967295)
    (hq : s.host.encIn = (Token.data v).word :: q) : step s = .next (s.encAt turns q (openEnc (v, c + 1) ws)) := by
  have hf : s.enc.fault = 0 := by rw [he]; rfl
  have hcount : (openEnc (v, c) ws).cnt.toNat ≠ Config.maxCnt := (toNat_count hc.le).trans_ne hc.ne
  rw [step_enc_token hsched hf hq rfl, he]
  refine (execEncData_count (s := s.encAt turns q (openEnc (v, c) ws)) rfl rfl rfl hcount).trans ?_
  rw [openEnc, openEnc, BitVec.ofNat_add]
  rfl

theorem step_enc_change {r : Run} (hsched : s.sched = .unit .enc :: turns) (he : s.enc = openEnc r ws) (hv : v ≠ r.1)
    (hq : s.host.encIn = (Token.data v).word :: q) :
    step s = .next (s.encAt turns q (openEnc (v, 1) (ws ++ [(runToken r).word]))) := by
  have hf : s.enc.fault = 0 := by rw [he]; rfl
  rw [step_enc_token hsched hf hq rfl, he]
  exact execEncData_change (s := s.encAt turns q (openEnc r ws)) rfl rfl hv

theorem step_enc_overflow {c : Nat} (hsched : s.sched = .unit .enc :: turns) (he : s.enc = openEnc (v, c) ws) (hc : c = 4294967295)
    (hq : s.host.encIn = (Token.data v).word :: q) :
    step s = .next ((s.encAt turns q (openEnc (v, c) ws)).raise .enc .countOverflow .none) := by
  have hf : s.enc.fault = 0 := by rw [he]; rfl
  have hcount : (openEnc (v, c) ws).cnt.toNat = Config.maxCnt := (toNat_count hc.le).trans hc
  rw [step_enc_token hsched hf hq rfl, he]
  exact execEncData_overflow (s := s.encAt turns q (openEnc (v, c) ws)) rfl rfl rfl hcount

/-- END with a run open (R134). -/
theorem step_enc_flush {r : Run} (hsched : s.sched = .unit .enc :: turns) (he : s.enc = openEnc r ws)
    (hq : s.host.encIn = Token.fin.word :: q) :
    step s = .next (s.encAt turns q { EncState.reset with outq := ws ++ [(runToken r).word, Token.fin.word] }) := by
  have hf : s.enc.fault = 0 := by rw [he]; rfl
  rw [step_enc_token hsched hf hq rfl, he]
  exact execEncEnd_running (s := s.encAt turns q (openEnc r ws)) rfl

/-- END with no run open. -/
theorem step_enc_end (hsched : s.sched = .unit .enc :: turns) (he : s.enc = { EncState.reset with outq := ws })
    (hq : s.host.encIn = Token.fin.word :: q) :
    step s = .next (s.encAt turns q { EncState.reset with outq := ws ++ [Token.fin.word] }) := by
  have hf : s.enc.fault = 0 := by rw [he]; rfl
  rw [step_enc_token hsched hf hq rfl, he]
  exact execEncEnd_running (s := s.encAt turns q { EncState.reset with outq := ws }) rfl

/-- With a run open, the samples to come close the runs of the scan and leave the last one open (R138). -/
theorem steps_enc_open {cur : Sample} {cnt : Nat} {x : List Sample} (hfit : ∀ r ∈ encodeFrom cur cnt x, r.2 ≤ 4294967295)
    (he : s.enc = openEnc (cur, cnt) ws) (hq : s.host.encIn = wordsOf (x.map Token.data) ++ rest)
    (hsched : s.sched = List.replicate x.length (.unit .enc) ++ turns) :
    ∃ (runs : List Run) (last : Run), encodeFrom cur cnt x = runs ++ [last] ∧
      steps x.length s = .next (s.encAt turns rest (openEnc last (ws ++ wordsOf (runs.map runToken)))) := by
  induction x generalizing s cur cnt ws with
  | nil =>
    obtain rfl : s.host.encIn = rest := hq
    obtain rfl : s.sched = turns := hsched
    refine ⟨[], (cur, cnt), rfl, congrArg _ ?_⟩
    rw [List.map_nil, wordsOf, List.map_nil, List.append_nil, ← he]
    rfl
  | cons v x ih =>
    by_cases hv : v = cur
    · subst hv
      rw [encodeFrom_cons_self] at hfit ⊢
      have hstep := step_enc_same hsched he (count_le_of_encodeFrom hfit) hq
      obtain ⟨runs, last, hsplit, hrun⟩ := ih (s := s.encAt _ _ (openEnc (v, cnt + 1) ws)) hfit rfl rfl rfl
      exact ⟨runs, last, hsplit, steps_succ hstep hrun⟩
    · have hclose : encodeFrom cur cnt (v :: x) = (cur, cnt) :: encodeFrom v 1 x := if_neg hv
      rw [hclose] at hfit ⊢
      have hstep := step_enc_change hsched he hv hq
      obtain ⟨runs, last, hsplit, hrun⟩ := ih (s := s.encAt _ _ (openEnc (v, 1) _)) (List.forall_mem_cons.1 hfit).2 rfl rfl rfl
      refine ⟨(cur, cnt) :: runs, last, congrArg ((cur, cnt) :: ·) hsplit, (steps_succ hstep hrun).trans ?_⟩
      rw [List.append_assoc]
      rfl

/-- From ENC with no run, a sequence that is not empty leaves its last run open (R138). -/
theorem steps_enc_data {x : List Sample} (hx : x ≠ []) (hfit : ∀ r ∈ rleEncode x, r.2 ≤ 4294967295) (hf : s.enc.fault = 0)
    (hr : s.enc.haveRun = false) (hq : s.host.encIn = wordsOf (x.map Token.data) ++ rest)
    (hsched : s.sched = List.replicate x.length (.unit .enc) ++ turns) :
    ∃ (runs : List Run) (last : Run), rleEncode x = runs ++ [last] ∧
      steps x.length s = .next (s.encAt turns rest (openEnc last (s.enc.outq ++ wordsOf (runs.map runToken)))) := by
  obtain ⟨v, x, rfl⟩ := List.exists_cons_of_ne_nil hx
  have hstep := step_enc_start hsched hf hr hq
  obtain ⟨runs, last, hsplit, hrun⟩ := steps_enc_open hfit (s := s.encAt _ _ (openEnc (v, 1) s.enc.outq)) rfl rfl rfl
  exact ⟨runs, last, hsplit, steps_succ hstep hrun⟩

/-- The tokens of a sequence, the END with them. -/
theorem steps_enc_toksData {x : List Sample} (hfit : ∀ r ∈ rleEncode x, r.2 ≤ 4294967295)
    (he : s.enc = { EncState.reset with outq := ws }) (hq : s.host.encIn = wordsOf (toksData x) ++ rest)
    (hsched : s.sched = List.replicate (x.length + 1) (.unit .enc) ++ turns) :
    steps (x.length + 1) s =
      .next (s.encAt turns rest { EncState.reset with outq := ws ++ wordsOf (toksRuns (rleEncode x)) }) := by
  by_cases hx : x = []
  · subst hx
    exact steps_succ (step_enc_end hsched he hq) rfl
  · rw [toksData, wordsOf_append, List.append_assoc] at hq
    rw [List.replicate_succ', List.append_assoc] at hsched
    have hf : s.enc.fault = 0 := by rw [he]; rfl
    have hr : s.enc.haveRun = false := by rw [he]; rfl
    obtain ⟨runs, last, hsplit, hrun⟩ := steps_enc_data hx hfit hf hr hq hsched
    refine (steps_then hrun (step_enc_flush rfl rfl rfl)).trans ?_
    rw [hsplit, he, List.append_assoc, toksRuns, List.map_append, wordsOf_append, wordsOf_append, List.append_assoc]
    rfl

/-- One sample more than `MAXCNT` of a value, after a sequence that does not end in it (R137). -/
theorem steps_enc_overflow {x : List Sample} {c : Nat} (hc : c = 4294967295) (hfit : ∀ r ∈ rleEncode x, r.2 ≤ 4294967295)
    (hlast : x.getLast? ≠ some v) (hf : s.enc.fault = 0) (hr : s.enc.haveRun = false)
    (hq : s.host.encIn = wordsOf ((x ++ List.replicate (c + 1) v).map Token.data) ++ rest)
    (hsched : s.sched = List.replicate (x.length + (c + 1)) (.unit .enc) ++ turns) :
    steps (x.length + (c + 1)) s =
      .next ((s.encAt turns rest (openEnc (v, c) (s.enc.outq ++ wordsOf ((rleEncode x).map runToken)))).raise .enc .countOverflow
        .none) := by
  have hc0 : c ≠ 0 := by omega
  have hlen : (x ++ List.replicate c v).length = x.length + c := by rw [List.length_append, List.length_replicate]
  have hencode := rleEncode_append_replicate hc0 hlast
  have hfit' : ∀ r ∈ rleEncode (x ++ List.replicate c v), r.2 ≤ 4294967295 := by
    rw [hencode]
    exact List.forall_mem_append.2 ⟨hfit, List.forall_mem_singleton.2 hc.le⟩
  have hne : x ++ List.replicate c v ≠ [] := by
    rw [← List.length_pos_iff, hlen]
    omega
  rw [List.replicate_succ', ← List.append_assoc, List.map_append, wordsOf_append, List.append_assoc] at hq
  rw [← Nat.add_assoc, List.replicate_succ', List.append_assoc, ← hlen] at hsched
  obtain ⟨runs, last, hsplit, hrun⟩ := steps_enc_data hne hfit' hf hr hq hsched
  obtain ⟨rfl, hlast⟩ := List.append_inj' (hencode.symm.trans hsplit) rfl
  obtain rfl := List.singleton_inj.1 hlast
  rw [hlen] at hrun
  exact steps_then hrun (step_enc_overflow rfl rfl hc rfl)

end

theorem EncState.eq_reset_of_isIdle {e : EncState} (hidle : e.isIdle) (hf : e.fault = 0) : e = { EncState.reset with outq := e.outq } := by
  obtain ⟨hr, hcur, hcnt⟩ := hidle
  cases e
  cases hr; cases hcur; cases hcnt; cases hf
  rfl

/-- Settles O54: the first samples of a sequence have runs that fit, and END closes the last one. -/
theorem encoderCorrespondence : Obligations.EncoderCorrespondence := by
  intro x s rest turns hfit hidle hf hq hsched
  have he := EncState.eq_reset_of_isIdle hidle hf
  refine ⟨?_, fun j hj hjx => ?_⟩
  · rw [steps_enc_toksData hfit he hq hsched]
    conv_rhs => rw [he]
    rfl
  · have hlen : (x.take j).length = j := List.length_take_of_le hjx
    have hne : x.take j ≠ [] := by
      rw [← List.length_pos_iff, hlen]
      omega
    have hfit' : ∀ r ∈ rleEncode (x.take j), r.2 ≤ 4294967295 :=
      count_le_of_append (ys := x.drop j) ((List.take_append_drop j x).symm ▸ hfit)
    have hq' : s.host.encIn = wordsOf ((x.take j).map Token.data) ++ (wordsOf (toksData (x.drop j)) ++ rest) := by
      rw [hq, ← List.append_assoc, ← wordsOf_append, toksData, toksData, ← List.append_assoc, ← List.map_append,
        List.take_append_drop]
    have hsched' : s.sched =
        List.replicate (x.take j).length (.unit .enc) ++ (List.replicate (x.length + 1 - j) (.unit .enc) ++ turns) := by
      rw [hsched, hlen, ← List.append_assoc, List.replicate_append_replicate, Nat.add_sub_cancel' (by omega)]
    obtain ⟨runs, last, hsplit, hrun⟩ := steps_enc_data hne hfit' hf hidle.1 hq' hsched'
    rw [hlen] at hrun
    exact ⟨_, runs, last, hrun, hsplit, rfl⟩

/-- Settles O55: the first `MAXCNT` samples of the long run fit, and its next one is the overflow. -/
theorem tooLongRunOverflows : Obligations.TooLongRunOverflows := by
  intro x v s rest turns hfit hlast hidle hf hq hsched
  refine (steps_enc_overflow rfl hfit hlast hf hidle.1 hq hsched).trans ?_
  rw [raise_enc, ← List.append_assoc]
  rfl

end Sys2Proof.Machine

/-! SUPPORT. Consecutive turns of SEG against `segFrame` (R120). -/

namespace Sys2Proof.Machine

/-! ### Loading pixels (R115) -/

/-- SEG after loading pixels, one after the other. -/
def SegState.loadPixels (g : SegState) (p : List Pixel) : SegState := p.foldl SegState.loadPixel g

/-- Loading pixels writes the frame store and the pixel count. -/
theorem loadPixels_eq (g : SegState) (p : List Pixel) :
    g.loadPixels p = { g with fs := (g.loadPixels p).fs, n := (g.loadPixels p).n } := by
  induction p generalizing g with
  | nil => rfl
  | cons a p ih => exact (ih (g.loadPixel a)).trans rfl

/-- The loaded pixel follows those loaded before it. -/
theorem pixels_loadPixel (g : SegState) (a : Pixel) : (g.loadPixel a).pixels (g.n.toNat + 1) = g.pixels g.n.toNat ++ [a] := by
  obtain ⟨h0, h1, h2, hother⟩ := byte_memWrite_pixel g g.storeAddr a
  have hbyte : ∀ x, (g.loadPixel a).byte x = (g.memWrite g.storeAddr 3 a.toNat24).byte x := fun _ => rfl
  have hbefore : ∀ x < 3 * g.n.toNat, (g.loadPixel a).byte x = g.byte x := fun x hx => (hbyte x).trans (hother x (.inl hx))
  have hnew : (g.loadPixel a).pixel g.n.toNat = a := by
    rw [pixel_eq, hbyte, hbyte, hbyte]
    exact congrArg₂ (fun c0 (c : Sample × Sample) => Pixel.mk c0 c.1 c.2) h0 (congrArg₂ Prod.mk h1 h2)
  calc (g.loadPixel a).pixels (g.n.toNat + 1)
      = (g.loadPixel a).pixels g.n.toNat ++ [(g.loadPixel a).pixel g.n.toNat] := by
        rw [SegState.pixels, SegState.pixels, List.range_succ, List.map_append]; rfl
    _ = g.pixels g.n.toNat ++ [a] := by rw [pixels_congr hbefore, hnew]

/-- Where there is room for a pixel and more, there is room for the rest after it. -/
theorem room_loadPixel {g : SegState} {k : Nat} (hsize : g.frameSize ≤ 40000) (hn : g.n.toNat + (k + 1) ≤ g.frameSize) (a : Pixel) :
    (g.loadPixel a).n.toNat = g.n.toNat + 1 ∧ (g.loadPixel a).n.toNat + k ≤ (g.loadPixel a).frameSize := by
  have hnext : (g.loadPixel a).n.toNat = g.n.toNat + 1 := toNat_n_succ hsize (by omega)
  have hsame : (g.loadPixel a).frameSize = g.frameSize := rfl
  exact ⟨hnext, by omega⟩

section
variable {g : SegState} {p : List Pixel} (hsize : g.frameSize ≤ 40000) (hn : g.n.toNat + p.length ≤ g.frameSize)
include hsize hn

theorem toNat_n_loadPixels : (g.loadPixels p).n.toNat = g.n.toNat + p.length := by
  induction p generalizing g with
  | nil => rfl
  | cons a p ih =>
    rw [List.length_cons] at hn ⊢
    obtain ⟨hnext, hroom⟩ := room_loadPixel hsize hn a
    have hrest := ih (g := g.loadPixel a) hsize hroom
    exact hrest.trans (by omega)

/-- The pixels loaded follow those loaded before them. -/
theorem pixels_loadPixels : (g.loadPixels p).pixels (g.n.toNat + p.length) = g.pixels g.n.toNat ++ p := by
  induction p generalizing g with
  | nil => exact (List.append_nil _).symm
  | cons a p ih =>
    rw [List.length_cons] at hn ⊢
    obtain ⟨hnext, hroom⟩ := room_loadPixel hsize hn a
    have hrest := ih (g := g.loadPixel a) hsize hroom
    rw [hnext, pixels_loadPixel, List.append_assoc, Nat.add_assoc, Nat.add_comm 1] at hrest
    exact hrest

end

/-! ### The turns -/

/-- SEG with new registers, its consumed tokens and its turns used up. -/
def State.segAt (s : State) (turns : List Agent) (rest : List TokenWord) (g : SegState) : State :=
  { s with sched := turns, host := { s.host with segIn := rest }, seg := g }

section
variable {s : State} {rest q : List TokenWord} {turns : List Agent}

theorem step_seg_token {t : Token} {i : Instr} (hsched : s.sched = .unit .seg :: turns) (hf : s.seg.fault = 0)
    (hq : s.host.segIn = t.word :: q) (ha : accept .seg t = .ok i) : step s = exec i (s.segAt turns q s.seg) :=
  step_token hsched hq hf ha

/-- The header of a frame within the limits opens it. -/
theorem step_seg_header {h w : Nat} (h1 : 1 ≤ h) (h2 : h ≤ 200) (w1 : 1 ≤ w) (w2 : w ≤ 200)
    (hsched : s.sched = .unit .seg :: turns) (hf : s.seg.fault = 0) (hp : s.seg.phase = .idle)
    (hq : s.host.segIn = (headerToken h w).word :: q) :
    step s = .next (s.segAt turns q (s.seg.openFrame (BitVec.ofNat 16 h) (BitVec.ofNat 16 w))) := by
  have hh : (BitVec.ofNat 16 h).toNat = h := by rw [BitVec.toNat_ofNat, Nat.mod_eq_of_lt (by omega)]
  have hw : (BitVec.ofNat 16 w).toNat = w := by rw [BitVec.toNat_ofNat, Nat.mod_eq_of_lt (by omega)]
  rw [step_seg_token hsched hf hq rfl]
  exact execSegHdr_open (s := s.segAt turns q s.seg) hf hp (hh.symm ▸ h1) (hh.symm ▸ h2) (hw.symm ▸ w1) (hw.symm ▸ w2)

theorem step_seg_pixel {a : Pixel} (hsched : s.sched = .unit .seg :: turns) (hf : s.seg.fault = 0) (hp : s.seg.phase = .load)
    (hn : s.seg.n.toNat ≠ s.seg.frameSize) (hroom : frameStoreHas s.seg.storeAddr 3 = true)
    (hq : s.host.segIn = (Token.pix a).word :: q) : step s = .next (s.segAt turns q (s.seg.loadPixel a)) := by
  rw [step_seg_token hsched hf hq rfl]
  exact execSegPix_loadPixel (s := s.segAt turns q s.seg) hf hp hn hroom

/-- Pixels within an open frame are loaded, one a turn. -/
theorem steps_seg_pixels {p : List Pixel} (hf : s.seg.fault = 0) (hp : s.seg.phase = .load) (hsize : s.seg.frameSize ≤ 40000)
    (hn : s.seg.n.toNat + p.length ≤ s.seg.frameSize) (hq : s.host.segIn = wordsOf (p.map Token.pix) ++ rest)
    (hsched : s.sched = List.replicate p.length (.unit .seg) ++ turns) :
    steps p.length s = .next (s.segAt turns rest (s.seg.loadPixels p)) := by
  induction p generalizing s with
  | nil =>
    obtain rfl : s.host.segIn = rest := hq
    obtain rfl : s.sched = turns := hsched
    rfl
  | cons a p ih =>
    rw [List.length_cons] at hn
    have hroom : frameStoreHas s.seg.storeAddr 3 = true := by
      rw [frameStoreHas_iff, SegState.storeAddr, pixelAddr]
      omega
    have hne : s.seg.n.toNat ≠ s.seg.frameSize := by omega
    have hstep := step_seg_pixel hsched hf hp hne hroom hq
    have hrun := ih (s := s.segAt _ _ (s.seg.loadPixel a)) hf hp hsize (room_loadPixel hsize hn a).2 rfl rfl
    exact steps_succ hstep hrun

end

theorem SegState.idle_of_isIdle {g : SegState} (hidle : g.isIdle) : g.idle = g := by
  obtain ⟨hp, hh, hw, hn, h1, h2, h3, h4, h5⟩ := hidle
  cases g
  cases hp; cases hh; cases hw; cases hn; cases h1; cases h2; cases h3; cases h4; cases h5
  rfl

section
variable {s : State} {rest : List TokenWord} {turns : List Agent} {h w : Nat} {p : List Pixel}

/-- SEG with the whole frame loaded: the configuration latched, every pixel in its place. -/
def SegState.loaded (g : SegState) (h w : Nat) (p : List Pixel) : SegState :=
  (g.openFrame (BitVec.ofNat 16 h) (BitVec.ofNat 16 w)).loadPixels p

theorem loaded_eq (g : SegState) (h w : Nat) (p : List Pixel) :
    g.loaded h w p =
      { g.openFrame (BitVec.ofNat 16 h) (BitVec.ofNat 16 w) with fs := (g.loaded h w p).fs, n := (g.loaded h w p).n } :=
  loadPixels_eq _ p

theorem outq_loaded (g : SegState) (h w : Nat) (p : List Pixel) : (g.loaded h w p).outq = g.outq :=
  (congrArg SegState.outq (loaded_eq g h w p)).trans rfl

theorem toNat_dim {d : Nat} (hd : d ≤ 200) : (BitVec.ofNat 16 d).toNat = d := by
  rw [BitVec.toNat_ofNat, Nat.mod_eq_of_lt (by omega)]

section
variable (g : SegState) (hh : h ≤ 200) (hw : w ≤ 200) (hp : p.length = h * w)
include hh hw

theorem frameSize_openFrame : (g.openFrame (BitVec.ofNat 16 h) (BitVec.ofNat 16 w)).frameSize = h * w :=
  congrArg₂ (· * ·) (toNat_dim hh) (toNat_dim hw)

theorem frameSize_openFrame_le : (g.openFrame (BitVec.ofNat 16 h) (BitVec.ofNat 16 w)).frameSize ≤ 40000 :=
  (frameSize_openFrame g hh hw).trans_le (Nat.mul_le_mul hh hw)

theorem frameSize_loaded : (g.loaded h w p).frameSize = h * w :=
  (congrArg SegState.frameSize (loaded_eq g h w p)).trans (frameSize_openFrame g hh hw)

include hp

/-- An opened frame has room for its pixels. -/
theorem room_openFrame :
    (g.openFrame (BitVec.ofNat 16 h) (BitVec.ofNat 16 w)).n.toNat + p.length ≤
      (g.openFrame (BitVec.ofNat 16 h) (BitVec.ofNat 16 w)).frameSize :=
  ((Nat.zero_add _).trans (hp.trans (frameSize_openFrame g hh hw).symm)).le

theorem toNat_n_loaded : (g.loaded h w p).n.toNat = (g.loaded h w p).frameSize := by
  rw [frameSize_loaded g hh hw, ← hp]
  exact (toNat_n_loadPixels (frameSize_openFrame_le g hh hw) (room_openFrame g hh hw hp)).trans (Nat.zero_add _)

theorem pixels_loaded : (g.loaded h w p).pixels (g.loaded h w p).frameSize = p := by
  have hpix := pixels_loadPixels (frameSize_openFrame_le g hh hw) (room_openFrame g hh hw hp)
  rw [frameSize_loaded g hh hw, ← hp, ← Nat.zero_add p.length]
  exact hpix

/-- What SEG.END emits of a loaded frame: the segmented frame under the configuration at the header (R116, R121). -/
theorem outputTokens_loaded :
    (g.loaded h w p).outputTokens = toksFrame h w (segFrame Config.hsvConv h w p g.config) := by
  have hheight : (g.loaded h w p).h = BitVec.ofNat 16 h := congrArg SegState.h (loaded_eq g h w p)
  have hwidth : (g.loaded h w p).w = BitVec.ofNat 16 w := congrArg SegState.w (loaded_eq g h w p)
  have hlatched : (g.loaded h w p).latched = g.config := congrArg SegState.latched (loaded_eq g h w p)
  rw [SegState.outputTokens, SegState.segmented, pixels_loaded g hh hw hp, hlatched, hheight, hwidth, toNat_dim hh, toNat_dim hw]
  rfl

end

theorem idle_loaded {g : SegState} (hidle : g.isIdle) (h w : Nat) (p : List Pixel) :
    (g.loaded h w p).idle = { g with fs := (g.loaded h w p).fs } := by
  have hopen : (g.loaded h w p).idle = { g.idle with fs := (g.loaded h w p).fs } := congrArg SegState.idle (loaded_eq g h w p)
  rwa [SegState.idle_of_isIdle hidle] at hopen

section
variable (h1 : 1 ≤ h) (h2 : h ≤ 200) (w1 : 1 ≤ w) (w2 : w ≤ 200) (hp : p.length = h * w) (hidle : s.seg.isIdle) (hf : s.seg.fault = 0)
  (hq : s.host.segIn = wordsOf (toksFrame h w p) ++ rest) (hsched : s.sched = List.replicate (h * w + 2) (.unit .seg) ++ turns)
include h1 h2 w1 w2 hp hidle hf hq hsched

/-- Before the END the whole frame is loaded and nothing has been emitted. -/
theorem steps_seg_load :
    steps (h * w + 1) s = .next (s.segAt (.unit .seg :: turns) (Token.fin.word :: rest) (s.seg.loaded h w p)) := by
  have hq' : s.host.segIn = (headerToken h w).word :: (wordsOf (p.map Token.pix) ++ (Token.fin.word :: rest)) := by
    rw [hq, toksFrame, wordsOf, List.map_cons, List.map_append, List.cons_append, List.append_assoc]
    rfl
  have hsched' : s.sched = .unit .seg :: (List.replicate p.length (.unit .seg) ++ (.unit .seg :: turns)) := by
    rw [hsched, hp, List.replicate_succ, List.replicate_succ', List.cons_append, List.append_assoc]
    rfl
  have hstep := step_seg_header h1 h2 w1 w2 hsched' hf hidle.1 hq'
  have hrun := steps_seg_pixels (turns := .unit .seg :: turns) (rest := Token.fin.word :: rest)
    (s := s.segAt _ _ (s.seg.openFrame (BitVec.ofNat 16 h) (BitVec.ofNat 16 w))) hf rfl
    (frameSize_openFrame_le s.seg h2 w2) (room_openFrame s.seg h2 w2 hp) rfl rfl
  rw [← hp]
  exact steps_succ hstep hrun

/-- A frame's tokens, the END with them. -/
theorem steps_seg_frame :
    steps (h * w + 2) s =
      .next (s.segAt turns rest
        { s.seg with
          fs := (s.seg.loaded h w p).fs
          outq := s.seg.outq ++ wordsOf (toksFrame h w (segFrame Config.hsvConv h w p s.seg.config)) }) := by
  have hphase : (s.seg.loaded h w p).phase = .load := congrArg SegState.phase (loaded_eq s.seg h w p)
  have hfault : (s.seg.loaded h w p).fault = 0 := (congrArg SegState.fault (loaded_eq s.seg h w p)).trans hf
  have hroom : frameStoreHas 0 (3 * (s.seg.loaded h w p).frameSize) = true := by
    have hmax : h * w ≤ 200 * 200 := Nat.mul_le_mul h2 w2
    rw [frameStoreHas_iff, frameSize_loaded s.seg h2 w2]
    omega
  have hend : step (s.segAt (.unit .seg :: turns) (Token.fin.word :: rest) (s.seg.loaded h w p)) =
      .next (s.segAt turns rest
        { (s.seg.loaded h w p).idle with outq := (s.seg.loaded h w p).outq ++ wordsOf (s.seg.loaded h w p).outputTokens }) := by
    rw [step_seg_token rfl hfault rfl rfl]
    exact execSegEnd_emit (s := s.segAt turns rest (s.seg.loaded h w p)) hfault hphase (toNat_n_loaded s.seg h2 w2 hp) hroom
  rw [steps_then (steps_seg_load h1 h2 w1 w2 hp hidle hf hq hsched) hend, idle_loaded hidle, outq_loaded,
    outputTokens_loaded s.seg h2 w2 hp]

end

end

/-- Settles O48: the header opens the frame, each pixel is loaded, and END computes from the loaded pixels. -/
theorem segmenterCorrespondence : Obligations.SegmenterCorrespondence := by
  intro h w p s rest turns h1 h2 w1 w2 hp hidle hf hq hsched
  exact ⟨⟨_, steps_seg_load h1 h2 w1 w2 hp hidle hf hq hsched, outq_loaded s.seg h w p⟩, _,
    steps_seg_frame h1 h2 w1 w2 hp hidle hf hq hsched⟩

end Sys2Proof.Machine

/-! SUPPORT. Consecutive turns of the host in a DRAIN or PIPE loop (R85): one TAKE a word and the OFFERs it asks for, up to a terminator. -/

namespace Sys2Proof.Machine

/-- The host has moved words from a unit's output queue, which holds `q` after it, to that port's record, and has made offers on an input
port; the turns and the program are what is left of them. -/
def State.moved (s : State) (turns : List Agent) (ops : List HostOp) (u dst : UnitId) (ws q offered : List TokenWord) : State :=
  ((({ s with sched := turns }.setProg ops).setOutq u q).setTaken u (s.taken u ++ ws)).setInq dst (s.inq dst ++ offered)

section
variable (s : State) (turns turns' : List Agent) (ops ops' : List HostOp) (u dst : UnitId) (ws ws' q q' offered offered' : List TokenWord)

@[simp] theorem moved_sched : (s.moved turns ops u dst ws q offered).sched = turns := by simp [State.moved]

@[simp] theorem moved_prog : (s.moved turns ops u dst ws q offered).host.prog = ops := by simp [State.moved]

@[simp] theorem moved_outq : (s.moved turns ops u dst ws q offered).outq u = q := by simp [State.moved]

theorem moved_moved :
    (s.moved turns ops u dst ws q offered).moved turns' ops' u dst ws' q' offered' =
      s.moved turns' ops' u dst (ws ++ ws') q' (offered ++ offered') := by
  simp only [State.moved, ← List.append_assoc]
  cases u <;> cases dst <;> rfl

end

/-- The OFFERs of a list of words, one a turn. -/
theorem steps_offers {s : State} {turns : List Agent} {ops : List HostOp} {dst : UnitId} {ws : List TokenWord}
    (hsched : s.sched = List.replicate ws.length .host ++ turns) (hprog : s.host.prog = ws.map (.offer dst) ++ ops) :
    steps ws.length s = .next (({ s with sched := turns }.setProg ops).setInq dst (s.inq dst ++ ws)) := by
  induction ws generalizing s with
  | nil =>
    obtain rfl : s.sched = turns := hsched
    obtain rfl : s.host.prog = ops := hprog
    rw [List.append_nil]
    cases dst <;> rfl
  | cons w ws ih =>
    have hstep := offerTakeWithdraw.1 s _ dst w _ hsched hprog
    refine steps_succ hstep ((ih (by simp) (by simp)).trans ?_)
    rw [setInq_inq_self, List.append_assoc]
    cases dst <;> rfl

section
variable {op : HostOp} {u dst : UnitId} {g : TokenWord → List TokenWord} {s : State} {turns : List Agent} {ops : List HostOp}
  {w : TokenWord} {q1 q2 : List TokenWord}

/-- An operation that takes words from `u` and offers `g` of each on `dst`, up to a terminator (R85). -/
def HostOp.moves (op : HostOp) (u dst : UnitId) (g : TokenWord → List TokenWord) : Prop :=
  ∀ (s : State) (ops : List HostOp), s.hostOp op ops = s.takeThen u (loopProg op ops fun w => (g w).map (.offer dst))

theorem drain_moves (u dst : UnitId) : (HostOp.drain u).moves u dst fun _ => [] := fun _ _ => rfl

theorem pipe_moves (src dst : UnitId) : (HostOp.pipe src dst).moves src dst fun w => [w] := fun _ _ => rfl

theorem pipeFlat_moves : HostOp.pipeFlat.moves .seg .enc flatWord := fun _ _ => rfl

/-- The turns of the host that moving a list of words takes: a TAKE and the OFFERs for each. -/
def moveTurns (g : TokenWord → List TokenWord) (ws : List TokenWord) : Nat := (ws.map fun w => (g w).length + 1).sum

theorem moveTurns_cons (g : TokenWord → List TokenWord) (w : TokenWord) (ws : List TokenWord) :
    moveTurns g (w :: ws) = (g w).length + 1 + moveTurns g ws := rfl

theorem moveTurns_append (g : TokenWord → List TokenWord) (ws vs : List TokenWord) :
    moveTurns g (ws ++ vs) = moveTurns g ws + moveTurns g vs := by
  rw [moveTurns, List.map_append, List.sum_append]
  rfl

theorem moveTurns_of_length {g : TokenWord → List TokenWord} {k : Nat} {ws : List TokenWord} (h : ∀ w ∈ ws, (g w).length = k) :
    moveTurns g ws = (k + 1) * ws.length := by
  rw [moveTurns, List.map_congr_left fun w hw => congrArg (· + 1) (h w hw), List.map_const', List.sum_replicate, smul_eq_mul,
    Nat.mul_comm]

variable (hop : op.moves u dst g) (hprog : s.host.prog = op :: ops)
include hop hprog

/-- One word of a loop. -/
theorem steps_move_word (hout : s.outq u = w :: q2) (hsched : s.sched = List.replicate ((g w).length + 1) .host ++ turns) :
    steps ((g w).length + 1) s = .next (s.moved turns (if isTerminator w then ops else op :: ops) u dst [w] q2 (g w)) := by
  have hstep := step_host_op hsched hprog
  rw [hop, takeThen_cons ((turn_outq ..).trans hout), takeHead_setProg, turn_taken] at hstep
  refine steps_succ hstep ?_
  refine (steps_offers (turns := turns) (ops := if isTerminator w then ops else op :: ops) (dst := dst) (ws := g w) ?_ ?_).trans ?_
  · simp
  · simp [loopProg]
  · rw [State.moved]
    cases u <;> cases dst <;> rfl

/-- A loop moves the words up to the first terminator, and is then done. -/
theorem steps_move (hq1 : ∀ x ∈ q1, isTerminator x = false) (hw : isTerminator w = true) (hout : s.outq u = q1 ++ w :: q2)
    (hsched : s.sched = List.replicate (moveTurns g (q1 ++ [w])) .host ++ turns) :
    steps (moveTurns g (q1 ++ [w])) s = .next (s.moved turns ops u dst (q1 ++ [w]) q2 ((q1 ++ [w]).flatMap g)) := by
  induction q1 generalizing s with
  | nil =>
    have hlast := steps_move_word hop hprog hout hsched
    rw [if_pos hw] at hlast
    rw [List.nil_append, List.flatMap_singleton]
    exact hlast
  | cons x q1 ih =>
    obtain ⟨hx, hq1⟩ := List.forall_mem_cons.1 hq1
    rw [List.cons_append] at hout
    rw [List.cons_append, moveTurns_cons] at hsched ⊢
    rw [← List.replicate_append_replicate, List.append_assoc] at hsched
    have hfirst := steps_move_word hop hprog hout hsched
    rw [hx, if_neg Bool.false_ne_true] at hfirst
    rw [steps_add hfirst, ih (moved_prog ..) hq1 (moved_outq ..) (moved_sched ..), moved_moved]
    rfl

end

/-- Settles O24: DRAIN is the loop that offers nothing. -/
theorem drainTakesOneSequence : Obligations.DrainTakesOneSequence := by
  intro s u q1 q2 w ops turns hq1 hw hout hprog hsched
  have hturns : moveTurns (fun _ => []) (q1 ++ [w]) = q1.length + 1 := by
    rw [moveTurns_of_length (k := 0) fun _ _ => rfl, Nat.one_mul, List.length_append]
    rfl
  rw [← hturns] at hsched ⊢
  rw [steps_move (drain_moves u u) hprog hq1 hw hout hsched, State.moved, List.flatMap_eq_nil_iff.2 fun _ _ => rfl, List.append_nil]
  cases u <;> rfl

end Sys2Proof.Machine

/-! SUPPORT. The units one after the other (R151, R179): the host moves a sequence from one unit's output to the next one's input. -/

namespace Sys2Proof.Machine

/-- After a run, a loop moves the sequence that is all the queue holds. -/
theorem steps_add_move {j : Nat} {s t : State} {op : HostOp} {u dst : UnitId} {g : TokenWord → List TokenWord} {turns : List Agent}
    {ops : List HostOp} {ts : List Token} (hrun : steps j s = .next t) (hop : op.moves u dst g)
    (hts : ∀ a ∈ ts, isTerminator a.word = false) (hprog : t.host.prog = op :: ops) (hout : t.outq u = wordsOf (ts ++ [Token.fin]))
    (hsched : t.sched = List.replicate (moveTurns g (wordsOf (ts ++ [Token.fin]))) Agent.host ++ turns) :
    steps (j + moveTurns g (wordsOf (ts ++ [Token.fin]))) s =
      .next (t.moved turns ops u dst (wordsOf (ts ++ [Token.fin])) [] ((wordsOf (ts ++ [Token.fin])).flatMap g)) := by
  rw [wordsOf_append] at hout hsched ⊢
  exact (steps_add hrun _).trans (steps_move hop hprog (List.forall_mem_map.2 hts) rfl hout hsched)

/-! ### ENC to DEC (R151) -/

theorem isTerminator_runToken (r : List Run) : ∀ t ∈ r.map runToken, isTerminator t.word = false :=
  List.forall_mem_map.2 fun a _ => by simp [runToken, Token.kind]

theorem moveTurns_pipe (r : List Run) : moveTurns (fun w => [w]) (wordsOf (toksRuns r)) = 2 * (r.length + 1) := by
  rw [moveTurns_of_length (k := 1) fun _ _ => rfl]
  simp [wordsOf, toksRuns]

/-- Settles O57: ENC's correspondence, a PIPE of its whole output, then DEC's. -/
theorem roundTripThroughUnits : Obligations.RoundTripThroughUnits := by
  intro x s rest ops turns m hfit hm hidle hf hdf hout hdecIn hencIn hprog hsched
  subst hm
  have he : s.enc = { EncState.reset with outq := [] } := hout ▸ EncState.eq_reset_of_isIdle hidle hf
  obtain ⟨-, hpos⟩ := counts_of_rleDecode (rleDecode_rleEncode x)
  have hencode := steps_enc_toksData hfit he hencIn hsched
  rw [← moveTurns_pipe] at hencode ⊢
  have hmove := steps_add_move hencode (pipe_moves .enc .dec) (isTerminator_runToken _) hprog rfl rfl
  have hdec := (steps_add hmove _).trans
    (steps_dec_toksRuns (rest := []) (fun a ha => ⟨hpos a ha, hfit a ha⟩) (rleDecode_rleEncode x) hdf ?_ rfl)
  · rw [← Nat.add_assoc]
    refine ⟨_, hdec, rfl, he.symm, rfl, ?_, rfl⟩
    exact congrArg (fun q => { s.host with
      encIn := rest, decIn := q, prog := ops, encTaken := s.host.encTaken ++ wordsOf (toksRuns (rleEncode x)) }) hdecIn.symm
  · have hpiped : (wordsOf (toksRuns (rleEncode x))).flatMap (fun w => [w]) = wordsOf (toksRuns (rleEncode x)) :=
      List.flatMap_singleton' _
    exact (congrArg₂ (· ++ ·) hdecIn hpiped).trans (List.append_nil _).symm

/-! ### SEG to ENC to DEC (R179, R212) -/

/-- What FLAT offers for the tokens of a frame: nothing for the header, three samples for a pixel, the END. -/
theorem moveTurns_flat (h w : Nat) (p : List Pixel) :
    moveTurns flatWord (wordsOf (toksFrame h w p)) = 4 * p.length + 3 := by
  have hpix : moveTurns flatWord (wordsOf (p.map Token.pix)) = 4 * p.length := by
    refine (moveTurns_of_length (k := 3) ?_).trans (by simp [wordsOf])
    refine List.forall_mem_map.2 (List.forall_mem_map.2 fun a _ => ?_)
    rw [flatWord_pix]
    rfl
  have hsplit : wordsOf (toksFrame h w p) = (headerToken h w).word :: (wordsOf (p.map Token.pix) ++ [Token.fin.word]) := by
    rw [toksFrame, wordsOf, List.map_cons, List.map_append]
    rfl
  rw [hsplit, moveTurns_cons, moveTurns_append, hpix, moveTurns_cons, headerToken, flatWord_hdr, flatWord_fin, moveTurns]
  simp
  omega

theorem isTerminator_frame (h w : Nat) (p : List Pixel) :
    ∀ t ∈ headerToken h w :: p.map Token.pix, isTerminator t.word = false := by
  refine List.forall_mem_cons.2 ⟨?_, List.forall_mem_map.2 fun a _ => ?_⟩
  · simp [headerToken, Token.kind]
  · simp [Token.kind]

/-- A frame offered to an idle SEG arrives at ENC as the samples of the segmented frame (R120, R178). -/
theorem steps_frame_to_enc {s : State} {h w : Nat} {p : List Pixel} {ops : List HostOp} {turns : List Agent} (h1 : 1 ≤ h) (h2 : h ≤ 200)
    (w1 : 1 ≤ w) (w2 : w ≤ 200) (hp : p.length = h * w) (hidle : s.seg.isIdle) (hf : s.seg.fault = 0) (hout : s.seg.outq = [])
    (hencIn : s.host.encIn = []) (hsegIn : s.host.segIn = wordsOf (toksFrame h w p)) (hprog : s.host.prog = .pipeFlat :: ops)
    (hsched : s.sched = List.replicate (h * w + 2) (.unit .seg) ++ (List.replicate (4 * (h * w) + 3) .host ++ turns)) :
    ∃ t, steps (h * w + 2 + (4 * (h * w) + 3)) s = .next t ∧ t.enc = s.enc ∧ t.dec = s.dec ∧ t.seg = { s.seg with fs := t.seg.fs } ∧
      t.host.encIn = wordsOf (toksData (flattenPixels (segFrame Config.hsvConv h w p s.seg.config))) ∧ t.host.decIn = s.host.decIn ∧
      t.host.prog = ops ∧ t.sched = turns := by
  have hseg := steps_seg_frame h1 h2 w1 w2 hp hidle hf (hsegIn.trans (List.append_nil _).symm) hsched
  have hturns := moveTurns_flat h w (segFrame Config.hsvConv h w p s.seg.config)
  rw [length_segFrame hp] at hturns
  rw [← hturns] at hseg ⊢
  rw [hout, List.nil_append] at hseg
  refine ⟨_, steps_add_move hseg pipeFlat_moves (isTerminator_frame h w _) hprog rfl rfl, rfl, rfl, ?_, ?_, rfl, rfl, rfl⟩
  · exact congrArg (fun out => { s.seg with fs := (s.seg.loaded h w p).fs, outq := out }) hout.symm
  · exact (congrArg₂ (· ++ ·) hencIn (flat_toksFrame h w _)).trans (List.nil_append _)

/-- Settles O58: the segmented frame's samples arrive at ENC, and then make the round trip. -/
theorem pipelineEndToEnd : Obligations.PipelineEndToEnd := by
  intro h w p s ops turns x m h1 h2 w1 w2 hp hx hm hsegIdle hencIdle hfault hsegOut hencOut hencIn hdecIn hsegIn hprog hsched
  simp only [State.noFault, Bool.and_eq_true, beq_iff_eq] at hfault ⊢
  obtain ⟨⟨hef, hdf⟩, hsf⟩ := hfault
  have hxlen : x.length = 3 * (h * w) := by rw [hx, length_flattenPixels, length_segFrame hp]
  have hfit : ∀ r ∈ rleEncode x, r.2 ≤ 4294967295 := by
    intro r hr
    have hmax : h * w ≤ 200 * 200 := Nat.mul_le_mul h2 w2
    have hle := count_le_length hr
    omega
  obtain ⟨a, hframe, haenc, hadec, haseg, haencIn, hadecIn, haprog, hasched⟩ :=
    steps_frame_to_enc h1 h2 w1 w2 hp hsegIdle hsf hsegOut hencIn hsegIn hprog hsched
  rw [← hx] at haencIn
  rw [← hxlen] at hasched
  obtain ⟨t, ht, hdec, henc, hseg, hhost, hturns⟩ :=
    roundTripThroughUnits x a [] ops turns m hfit hm (haenc ▸ hencIdle) (haenc ▸ hef) (hadec ▸ hdf) (haenc ▸ hencOut)
      (hadecIn.trans hdecIn) (haencIn.trans (List.append_nil _).symm) haprog hasched
  refine ⟨t, ?_, hadec ▸ congrArg DecState.outq hdec, ?_, ?_, ?_, congrArg HostState.prog hhost, hturns⟩
  · rw [← Nat.add_assoc (h * w + 2), ← hxlen]
    exact (steps_add hframe _).trans ht
  · rw [henc, hdec, hseg, haenc, hadec, haseg]
    exact ⟨⟨hef, hdf⟩, hsf⟩
  · rw [hseg, haseg]
    exact hsegIdle
  · rw [henc, haenc]
    exact hencIdle

end Sys2Proof.Machine
